-- ==== Sys2Proof/Word.lean ====
section
/-! DEFINITION. The word types of the block: bytes, 16-bit operands, 32-bit host words, 12-bit register offsets. -/

namespace Sys2Proof

/-- A framebuffer byte, a text byte, a transport byte, an opcode. -/
abbrev Byte := BitVec 8

/-- A coordinate or operand: 16 bits, unsigned (00_scope.md R7, R69). -/
abbrev Half := BitVec 16

/-- A host data word and a command word (R47, R64). -/
abbrev Word := BitVec 32

/-- A byte offset into the register space: the port has 12 address bits (R43, R49). -/
abbrev Offset := BitVec 12

end Sys2Proof
end

