-- ==== Sys2Proof/Config.lean ====
section
/-! DEFINITION. What an implementation fixes (00_scope.md R7) and the free values the spec leaves open
(93_implementation_defined.md). The parameters are plain data, held in State.cfg and changed by no step, so a
statement about every state holds for every choice of them. -/

namespace Sys2Proof

/-- The result of one transport transaction (R82). -/
inductive Answer
  | ok
  | nack
  | timeout
  | busBusy
deriving DecidableEq, Repr, Inhabited

/-- Parameter P_CHAR_CHECK: which cursor the glyph bounds check reads (R7, R126). -/
inductive CharCheck
  | beforeReposition
  | afterReposition
deriving DecidableEq, Repr, Inhabited

/-- One font (R7, R8): FW and FH lie in 1..255 (the field holds one less), and `rows` lists the 16-bit row words.
A row index past the list reads 0, so every value of this type is a font the spec admits (log entry 1). -/
structure Font where
  widthPred  : Fin 255
  heightPred : Fin 255
  rows       : List (BitVec 16)
deriving DecidableEq, Repr, Inhabited

/-- FONTS[f].FW. -/
def Font.fw (f : Font) : Nat := f.widthPred.val + 1

/-- FONTS[f].FH. -/
def Font.fh (f : Font) : Nat := f.heightPred.val + 1

/-- The open parameters of the block (R7). NFONTS lies in 1..16 (the field holds one less); a font slot at or above
NFONTS is never read. INIT_SEQ is non-empty by its form. `base` is where the platform puts the register space (R54). -/
structure Params where
  nfontsPred : Fin 16
  fonts      : Vector Font 16
  initHead   : Byte
  initTail   : List Byte
  pageCmds   : Vector (Vector Byte 3) 8
  charCheck  : CharCheck
  base       : Nat
deriving DecidableEq, Repr, Inhabited

/-- NFONTS. -/
def Params.nfonts (p : Params) : Nat := p.nfontsPred.val + 1

/-- INIT_SEQ (R89). -/
def Params.initSeq (p : Params) : List Byte := p.initHead :: p.initTail

/-- The default of PAGE_CMDS(p): 0xB0 or p, 0x00, 0x10 (R93). -/
def Config.defaultPageCmds : Vector (Vector Byte 3) 8 :=
  #v[#v[0xB0, 0x00, 0x10], #v[0xB1, 0x00, 0x10], #v[0xB2, 0x00, 0x10], #v[0xB3, 0x00, 0x10],
     #v[0xB4, 0x00, 0x10], #v[0xB5, 0x00, 0x10], #v[0xB6, 0x00, 0x10], #v[0xB7, 0x00, 0x10]]

/-- ID_VALUE (R7, R17): the letters F, B, C, 1. -/
def Config.idValue : Word := 0x46424331

/-- The parameters of the block at hand: open, so no value (R7; log entry 1). -/
opaque Config.installed : Params

/-- The transport's n-th answer where the environment has supplied none: any value (R83, U13; log entry 3). -/
opaque Config.transportAnswer : Nat → Answer

/-- The n-th value drawn for a host read of an unsynchronised register while BUSY = 1: any value (R160, U4; log entry 4). -/
opaque Config.anyRead : Nat → Word

/-- TEXT byte i as drawn at the n-th reset: any value (R41, U16; log entry 5). -/
opaque Config.resetText : Nat → Nat → Byte

end Sys2Proof
end

