-- ==== Sys2Proof/Syntax.lean ====
section
/-! DEFINITION. The command set (30_encoding.md R65): one constructor per row of the opcode table. -/

namespace Sys2Proof

/-- A decoded command word (R79). Every constructor carries the word's COLOR bit and FONT field, because acceptance
latches both whatever the opcode (R19); the opcodes that do not use one ignore it (R66, R67). The numeric operands are
not in the word: they are read from the latched operand registers (R68, R70). -/
inductive Instr
  | init (color : Bool) (font : BitVec 4)
  | clear (color : Bool) (font : BitVec 4)
  | allon (color : Bool) (font : BitVec 4)
  | flush (color : Bool) (font : BitVec 4)
  | setpixel (color : Bool) (font : BitVec 4)
  | line (color : Bool) (font : BitVec 4)
  | rect (color : Bool) (font : BitVec 4)
  | frect (color : Bool) (font : BitVec 4)
  | tri (color : Bool) (font : BitVec 4)
  | ftri (color : Bool) (font : BitVec 4)
  | circle (color : Bool) (font : BitVec 4)
  | fcircle (color : Bool) (font : BitVec 4)
  | char (color : Bool) (font : BitVec 4)
  | str (color : Bool) (font : BitVec 4)
  | gotoxy (color : Bool) (font : BitVec 4)
deriving DecidableEq, Repr

end Sys2Proof
end

