-- ==== Sys2Proof/WellFormed.lean ====
section
/-! DEFINITION. When a command is legal on a block with given parameters (R71, R67). -/

namespace Sys2Proof

/-- A FONT field names a font the block has (R67, R71). -/
def fontLegal (p : Params) (font : BitVec 4) : Bool := Nat.ble (font.toNat + 1) p.nfonts

/-- CHAR and STR are legal only for an existing font; every other opcode ignores COLOR and FONT, so it is legal with
any value of them (R66, R67, R71). -/
def Instr.wf (p : Params) : Instr → Bool
  | .init _ _ => true
  | .clear _ _ => true
  | .allon _ _ => true
  | .flush _ _ => true
  | .setpixel _ _ => true
  | .line _ _ => true
  | .rect _ _ => true
  | .frect _ _ => true
  | .tri _ _ => true
  | .ftri _ _ => true
  | .circle _ _ => true
  | .fcircle _ _ => true
  | .char _ font => fontLegal p font
  | .str _ font => fontLegal p font
  | .gotoxy _ _ => true

end Sys2Proof
end

