-- ==== Sys2Proof/Decode.lean ====
section
/-! DEFINITION. The decoder and the encoder of command words, from 30_encoding.md R64, R65, R71, R79, and the opcode
table's mask and match words. -/

namespace Sys2Proof

/-- Why a word is illegal (R71, R79), in the order the decoder checks. -/
inductive DecodeError
  /-- RSV1 (31:16) or RSV0 (11:9) is not zero (R72). -/
  | reservedBits
  /-- OP is 0x00 or 0x10..0xFF (R73). -/
  | reservedOpcode
  /-- CHAR or STR with FONT at or above NFONTS (R67). -/
  | noSuchFont
  /-- Not four bytes: a command is always one 32-bit word (R64). -/
  | notOneWord
deriving DecidableEq, Repr

/-- OP, bits 7:0 (R64). -/
def opField (w : Word) : Byte := w.extractLsb' 0 8

/-- COLOR, bit 8 (R64). -/
def colorField (w : Word) : Bool := w.getLsbD 8

/-- FONT, bits 15:12 (R64). -/
def fontField (w : Word) : BitVec 4 := w.extractLsb' 12 4

/-- RSV0, bits 11:9 (R64). -/
def rsv0Field (w : Word) : BitVec 3 := w.extractLsb' 9 3

/-- RSV1, bits 31:16 (R64). -/
def rsv1Field (w : Word) : BitVec 16 := w.extractLsb' 16 16

/-- The opcode map (R65). -/
def instrOfFields (op : Byte) (color : Bool) (font : BitVec 4) : Option Instr :=
  match op.toNat with
  | 0x01 => some (.init color font)
  | 0x02 => some (.clear color font)
  | 0x03 => some (.allon color font)
  | 0x04 => some (.flush color font)
  | 0x05 => some (.setpixel color font)
  | 0x06 => some (.line color font)
  | 0x07 => some (.rect color font)
  | 0x08 => some (.frect color font)
  | 0x09 => some (.tri color font)
  | 0x0A => some (.ftri color font)
  | 0x0B => some (.circle color font)
  | 0x0C => some (.fcircle color font)
  | 0x0D => some (.char color font)
  | 0x0E => some (.str color font)
  | 0x0F => some (.gotoxy color font)
  | _ => none

/-- The decoder of R79: total on 32-bit words, rejecting by name. -/
def decode (p : Params) (w : Word) : Except DecodeError Instr :=
  if rsv1Field w ≠ 0 ∨ rsv0Field w ≠ 0 then .error .reservedBits
  else
    match instrOfFields (opField w) (colorField w) (fontField w) with
    | none => .error .reservedOpcode
    | some i => bif i.wf p then .ok i else .error .noSuchFont

/-- A command word from the four bytes of a host word, lowest byte first (R45). -/
def wordOfBytes (b0 b1 b2 b3 : Byte) : Word := b3 ++ b2 ++ b1 ++ b0

/-- The decoder on bytes: any number of bytes but four is no command (R64). -/
def decodeBytes (p : Params) : List Byte → Except DecodeError Instr
  | [b0, b1, b2, b3] => decode p (wordOfBytes b0 b1 b2 b3)
  | _ => .error .notOneWord

/-- The word of an instruction whose table bits are `w`, zero above `nbits`; none where it does not fit 32 bits. -/
def tableWord (nbits w : Nat) : Option Word :=
  let v := w % 2 ^ nbits
  if v < 2 ^ 32 then some (BitVec.ofNat 32 v) else none

/-- What the decoder reads from a word numbered as the opcode table numbers it, on the installed block. -/
def decodeTableWord (nbits w : Nat) : Option Instr :=
  match tableWord nbits w with
  | none => none
  | some v =>
    match decode Config.installed v with
    | .ok i => some i
    | .error _ => none

/-- The OP value of a command (R65). -/
def Instr.opcode : Instr → Byte
  | .init _ _ => 0x01
  | .clear _ _ => 0x02
  | .allon _ _ => 0x03
  | .flush _ _ => 0x04
  | .setpixel _ _ => 0x05
  | .line _ _ => 0x06
  | .rect _ _ => 0x07
  | .frect _ _ => 0x08
  | .tri _ _ => 0x09
  | .ftri _ _ => 0x0A
  | .circle _ _ => 0x0B
  | .fcircle _ _ => 0x0C
  | .char _ _ => 0x0D
  | .str _ _ => 0x0E
  | .gotoxy _ _ => 0x0F

/-- The COLOR bit a command's word carries. -/
def Instr.color : Instr → Bool
  | .init c _ => c
  | .clear c _ => c
  | .allon c _ => c
  | .flush c _ => c
  | .setpixel c _ => c
  | .line c _ => c
  | .rect c _ => c
  | .frect c _ => c
  | .tri c _ => c
  | .ftri c _ => c
  | .circle c _ => c
  | .fcircle c _ => c
  | .char c _ => c
  | .str c _ => c
  | .gotoxy c _ => c

/-- The FONT field a command's word carries. -/
def Instr.font : Instr → BitVec 4
  | .init _ f => f
  | .clear _ f => f
  | .allon _ f => f
  | .flush _ f => f
  | .setpixel _ f => f
  | .line _ f => f
  | .rect _ f => f
  | .frect _ f => f
  | .tri _ f => f
  | .ftri _ f => f
  | .circle _ f => f
  | .fcircle _ f => f
  | .char _ f => f
  | .str _ f => f
  | .gotoxy _ f => f

/-- A word from its fields, in format C (R64): RSV1, FONT, RSV0, COLOR, OP. -/
def packFields (op : Byte) (color : Bool) (font : BitVec 4) : Word :=
  0#16 ++ font ++ 0#3 ++ BitVec.ofBool color ++ op

/-- The encoder (R64, R65, R76): `OP | COLOR << 8 | FONT << 12`. -/
def encode (i : Instr) : Word := packFields i.opcode i.color i.font

/-- The MASK column of opcode_table.json: the bits format C fixes, the same in every row. -/
def formatMask : Word := 0xFFFF0EFF

/-- The MATCH column of opcode_table.json, row by row. -/
def Instr.tableMatch : Instr → Word
  | .init _ _ => 0x00000001
  | .clear _ _ => 0x00000002
  | .allon _ _ => 0x00000003
  | .flush _ _ => 0x00000004
  | .setpixel _ _ => 0x00000005
  | .line _ _ => 0x00000006
  | .rect _ _ => 0x00000007
  | .frect _ _ => 0x00000008
  | .tri _ _ => 0x00000009
  | .ftri _ _ => 0x0000000A
  | .circle _ _ => 0x0000000B
  | .fcircle _ _ => 0x0000000C
  | .char _ _ => 0x0000000D
  | .str _ _ => 0x0000000E
  | .gotoxy _ _ => 0x0000000F

end Sys2Proof
end

