-- ==== Sys2Proof/Machine/State.lean ====
section
/-! DEFINITION. The state of the block (10_state.md), as plain data, and its value at reset (R40, R153). -/

namespace Sys2Proof.Machine

/-- Byte memory as (address, byte) cells: addresses strictly rising, no byte 0x00. An unlisted address reads 0x00, the
framebuffer's reset contents (R33, R40). -/
abbrev Memory := List Host.Cell

/-- A pixel position as it reaches PutPixel: two 16-bit unsigned coordinates (R96). -/
abbrev Point := Half × Half

/-- Completion codes (R31). Codes 5 to 7 are reserved and never produced, so they have no constructor. -/
inductive Code
  | ok
  | transportFail
  | glyphRejected
  | illegalCmd
  | badGlyph
deriving DecidableEq, Repr

/-- What a completion records beside the opcode: the `code` and `info` of `finish` (R138). Fields left out are zero. -/
structure Completion where
  code  : Code
  tkind : Answer := .ok
  char  : Byte := 0
  fpage : BitVec 3 := 0
  fcfg  : Bool := false
deriving DecidableEq, Repr

/-- RESULT (R30). -/
structure Result where
  op   : Byte
  info : Completion
deriving DecidableEq, Repr

/-- The latched command (R19, R20): L_OP, L_COLOR, L_FONT, L[0..5]. Hidden from the host. -/
structure Latch where
  op    : Byte
  color : Bool
  font  : BitVec 4
  l     : Vector Half 6
deriving DecidableEq, Repr

/-- A transport transaction: one command byte, or a data burst (R81). -/
inductive Tx
  | cmd (b : Byte)
  | data (bytes : List Byte)
deriving DecidableEq, Repr

/-- One entry of the transport log (R60). -/
structure LogEntry where
  tx     : Tx
  result : Answer
deriving DecidableEq, Repr

/-- How the command whose flush is running ends when the flush succeeds: INIT sets INITIALIZED first (R88); every other
command finishes with the CHAR value its FlushTail was given (R85). -/
inductive Tail
  | init
  | flushTail (ch : Byte)
deriving DecidableEq, Repr

/-- Where a command's transaction stands: INIT's configuration byte k (R88), or transaction k of page p of a flush,
k = 0..2 for the three PAGE_CMDS bytes and k = 3 for the data burst (R84). -/
inductive Site
  | config (k : Nat)
  | page (p : Fin 8) (k : Fin 4) (tail : Tail)
deriving DecidableEq, Repr

/-- The sequencer (R36), as it stands between two atomic steps (R56). RUN, which equals STATUS.BUSY, is 1 exactly when it
is not idle. -/
inductive Engine
  /-- RUN = 0. -/
  | idle
  /-- The command was accepted and none of its segments has run. -/
  | accepted (i : Instr)
  /-- A transaction is outstanding: the engine blocks until the transport answers (R83). -/
  | waiting (site : Site) (tx : Tx)
  /-- The answer has arrived and the next segment has not run. -/
  | answered (site : Site) (r : Answer)
  /-- Only the completion primitive is left (R138). -/
  | finishing (c : Completion)
deriving DecidableEq, Repr

/-- One host access: its width in bytes, its port offset, and for a write the value (R47, R48). -/
inductive Access
  | read (width : Nat) (addr : Offset)
  | write (width : Nat) (addr : Offset) (v : Word)
deriving DecidableEq, Repr

/-- The response to one host access (R47, R48). -/
inductive Resp
  | ok
  | err
deriving DecidableEq, Repr

/-- One host access with the response and the data it got (a write's data is 0). -/
structure HostEntry where
  access : Access
  resp   : Resp
  data   : Word
deriving DecidableEq, Repr

/-- What the environment does next (R4, R56): which agent moves, and with what. -/
inductive Event
  /-- The host makes one access. -/
  | host (a : Access)
  /-- The host polls STATUS until BUSY reads 0; the running command goes on between two polls (R75). -/
  | waitIdle
  /-- The host writes `w` to CMD and makes no other access until the command it starts has finished: the CMD write of
  R76 with its WAITIDLE, as one uninterrupted step. -/
  | command (w : Word)
  /-- The engine takes its next atomic step, if it has one. -/
  | engine
  /-- The transport answers the outstanding transaction, if there is one. -/
  | transport
  /-- The platform asserts the reset input (R153). -/
  | reset
deriving DecidableEq, Repr

/-- The block's state. The fields from `inbox` on are the model's own. -/
structure State where
  /-- The parameters (R7): constant for a run (R35). -/
  cfg : Params
  /-- FB (R32). -/
  fb : Memory
  /-- TEXT (R34). -/
  text : Vector Byte 256
  /-- ARG0..ARG5 (R15). -/
  arg : Vector Half 6
  /-- The latched command (R20). -/
  latch : Latch
  /-- CurX (R21). -/
  curX : Half
  /-- CurY (R21). -/
  curY : Half
  /-- STATUS.INITIALIZED (R23). -/
  initialized : Bool
  /-- STATUS.BATCH (R24). -/
  batch : Bool
  /-- STATUS.OVR (R26). -/
  ovr : Bool
  /-- STATUS.ILL (R27). -/
  ill : Bool
  /-- STATUS.TERR (R28). -/
  terr : Bool
  /-- RESULT (R30). -/
  result : Result
  /-- The sequencer and its loop position (R36); STATUS.BUSY is read from it. -/
  engine : Engine
  /-- The transport log, oldest first (R60). -/
  log : List LogEntry
  /-- The environment's coming events, next first (log entry 2). -/
  inbox : List Event
  /-- The transport's coming answers, next first (log entry 3). -/
  answers : List Answer
  /-- The host's accesses with their responses, oldest first (log entry 2). -/
  hostLog : List HostEntry
  /-- Free transport answers drawn so far (log entry 3). -/
  answerDraws : Nat
  /-- Free busy-read values drawn so far (log entry 4). -/
  readDraws : Nat
  /-- Draws of TEXT at reset so far (log entry 5). -/
  textDraws : Nat
deriving DecidableEq, Repr

/-- The block never faults: the spec gives it no trap (R141), and "No behaviour of this block is treated as `fault`"
(93_implementation_defined.md). So no reason exists, and nobody raises one. -/
inductive Fault
deriving DecidableEq, Repr

/-- Why an instruction has no meaning. -/
inductive Refusal
  /-- An arm of exec that is not modelled yet, by its mnemonic. Safe. No arm of this model raises it. -/
  | notModelled (mnemonic : String)
deriving DecidableEq, Repr

/-- TEXT as the n-th reset leaves it: every byte a free value (R41). -/
def drawnText (n : Nat) : Vector Byte 256 :=
  ⟨((List.range 256).map (Config.resetText n)).toArray, by simp⟩

/-- RESULT = 0 (R40). -/
def Result.zero : Result := { op := 0, info := { code := .ok } }

/-- The latched registers at reset: the spec gives no value and none is ever read (R20). DESIGN CHOICE: zero
(log entry 6). -/
def Latch.zero : Latch := { op := 0, color := false, font := 0, l := Vector.replicate 6 0 }

/-- Every piece of state at its reset value (R40, R153), for parameters `p`, TEXT being drawn for the n-th time. -/
def State.atReset (p : Params) (n : Nat) : State where
  cfg := p
  fb := []
  text := drawnText n
  arg := Vector.replicate 6 0
  latch := Latch.zero
  curX := 0
  curY := 0
  initialized := false
  batch := false
  ovr := false
  ill := false
  terr := false
  result := Result.zero
  engine := .idle
  log := []
  inbox := []
  answers := []
  hostLog := []
  answerDraws := 0
  readDraws := 0
  textDraws := n + 1

/-- The block right after power-on reset (R153). -/
def State.reset : State := State.atReset Config.installed 0

end Sys2Proof.Machine
end

