-- ==== Sys2Proof/Machine/Flags.lean ====
section
/-! DEFINITION. STATUS and RESULT: their bits as the host reads them, and the rules that set and clear the flags. -/

namespace Sys2Proof.Machine

/-- STATUS.BUSY, which equals RUN (R22, R36). -/
def State.busy (s : State) : Bool :=
  match s.engine with
  | .idle => false
  | .accepted _ => true
  | .waiting _ _ => true
  | .answered _ _ => true
  | .finishing _ => true

/-- The STATUS word from its fields (R22): bit 2 is INVERTED, hard-wired 0 (R25); bits 7:4 and 31:11 read 0. -/
def statusBits (busy initialized batch ovr ill terr : Bool) : Word :=
  0#21 ++ BitVec.ofBool terr ++ BitVec.ofBool ill ++ BitVec.ofBool ovr ++ 0#4 ++ BitVec.ofBool batch ++ 0#1
    ++ BitVec.ofBool initialized ++ BitVec.ofBool busy

/-- STATUS as it stands (R22). -/
def State.statusWord (s : State) : Word := statusBits s.busy s.initialized s.batch s.ovr s.ill s.terr

/-- RESULT.CODE (R31). -/
def Code.bits : Code → BitVec 3
  | .ok => 0
  | .transportFail => 1
  | .glyphRejected => 2
  | .illegalCmd => 3
  | .badGlyph => 4

/-- RESULT.TKIND: how a transaction result is numbered (R82). -/
def answerBits : Answer → BitVec 2
  | .ok => 0
  | .nack => 1
  | .timeout => 2
  | .busBusy => 3

/-- The RESULT word (R30): OP 31:24, FCFG 20, FPAGE 18:16, CHAR 15:8, TKIND 5:4, CODE 2:0, the other bits 0. -/
def Result.word (r : Result) : Word :=
  r.op ++ 0#3 ++ BitVec.ofBool r.info.fcfg ++ 0#1 ++ r.info.fpage ++ r.info.char ++ 0#2 ++ answerBits r.info.tkind
    ++ 0#1 ++ r.info.code.bits

/-- The CURSOR word (R21): CurY in 31:16, CurX in 15:0. -/
def State.cursorWord (s : State) : Word := s.curY ++ s.curX

/-- A host write to STATUS (R29): bits 8, 9 and 10 clear OVR, ILL and TERR where they are 1; every other bit is ignored. -/
def clearSticky (v : Word) (s : State) : State :=
  { s with
    ovr := s.ovr && !v.getLsbD 8
    ill := s.ill && !v.getLsbD 9
    terr := s.terr && !v.getLsbD 10 }

/-- A CMD or TEXT write arrived while BUSY = 1 (R26, R159). -/
def setOvr (s : State) : State := { s with ovr := true }

/-- The completion of a command sets TERR when its code is TRANSPORT_FAIL, and leaves it otherwise (R28, R138). -/
def terrAfter (terr : Bool) (code : Code) : Bool := terr || decide (code = .transportFail)

end Sys2Proof.Machine
end

