-- ==== Sys2Proof/Machine/Operands.lean ====
section
/-! DEFINITION. The operand forms: latched operand registers, 16-bit coordinates, the line's clamp, font lookup. -/

namespace Sys2Proof.Machine

/-- L[n] (R19, R68): the operand a running command reads. -/
def State.opd (s : State) (n : Fin 6) : Half := s.latch.l[n]

/-- L[2][7:0]: the character code of CHAR and the text index of STR; L[2][15:8] is ignored (R69). -/
def State.opdByte (s : State) : Byte := (s.opd 2).extractLsb' 0 8

/-- The value a 16-bit coordinate datapath carries (R9, R96): `v mod 2^16`, so a negative value arrives large. -/
def mod16 (v : Int) : Half := BitVec.ofInt 16 v

/-- A line endpoint's column, clamped on the upper side only (R99). -/
def clampX (x : Half) : Int := if x.toNat ≥ 128 then 127 else x.toNat

/-- A line endpoint's row, clamped on the upper side only (R99). -/
def clampY (y : Half) : Int := if y.toNat ≥ 64 then 63 else y.toNat

/-- `|a|` as an integer (R9). -/
def absInt (a : Int) : Int := if a < 0 then -a else a

/-- The integers from a to b inclusive, ascending; none when b is below a. -/
def span (a b : Int) : List Int := (List.range (b - a + 1).toNat).map fun (k : Nat) => a + (k : Int)

/-- FONTS[f] (R35). -/
def fontOf (p : Params) (f : BitVec 4) : Font := p.fonts[f.toNat]'(by have := f.isLt; omega)

/-- FontRow(f, k) (R11): the 16-bit row word at index k. -/
def fontRow (font : Font) (k : Nat) : BitVec 16 := font.rows.getD k 0

/-- The mask of glyph column j, most significant bit first; 0 from column 16 on (R123, R127). -/
def columnMask (j : Nat) : BitVec 16 := if j < 16 then 0x8000#16 >>> j else 0

end Sys2Proof.Machine
end

