-- ==== Sys2Proof/Machine/Ops.lean ====
section
/-! DEFINITION. The shared operations: framebuffer memory, the pixel primitive, acceptance, the transport transaction, the
page serializer, and the one completion primitive every command ends with (the block's counterpart of taking an
exception: R138, R141). -/

namespace Sys2Proof.Machine

/-! ### Byte memory -/

/-- The byte at an address; an unlisted address reads 0x00. -/
def Memory.read : Memory → Nat → Byte
  | [], _ => 0
  | (k, b) :: rest, a => if k = a then b else Memory.read rest a

/-- The cells without the one of an address. -/
def Memory.erase (a : Nat) (m : Memory) : Memory := m.filter fun c => !decide (c.1 = a)

/-- The cells with one more, put before the first higher address. -/
def Memory.insert (a : Nat) (b : Byte) : Memory → Memory
  | [] => [(a, b)]
  | (k, c) :: rest => if a < k then (a, b) :: (k, c) :: rest else (k, c) :: Memory.insert a b rest

/-- Writes one byte, keeping the canonical form: a byte 0x00 leaves no cell. -/
def Memory.write (m : Memory) (a : Nat) (b : Byte) : Memory :=
  if b = 0 then Memory.erase a m else Memory.insert a b (Memory.erase a m)

/-- Every address is at least `lo`, the addresses strictly rise, and no byte is 0x00. -/
def Memory.wfFrom : Nat → Memory → Bool
  | _, [] => true
  | lo, (k, b) :: rest => decide (lo ≤ k) && decide (b ≠ 0) && Memory.wfFrom (k + 1) rest

/-- The canonical form: strictly rising addresses, no byte equal to what an unlisted address reads as. -/
def Memory.wf (m : Memory) : Bool := Memory.wfFrom 0 m

/-- Every listed address lies in the framebuffer, 0..1023 (R32). -/
def Memory.inFb (m : Memory) : Bool := m.all fun c => decide (c.1 < 1024)

/-- The whole framebuffer at one byte value: `for i in 0 .. 1023: FB[i] <- b` (R88, R90, R92). -/
def Memory.filled (b : Byte) : Memory := if b = 0 then [] else (List.range 1024).map fun i => (i, b)

/-! ### Pixels -/

/-- The framebuffer byte that holds pixel (x, y) (R32, R97). -/
def pixelIndex (x y : Nat) : Nat := x + (y >>> 3) * 128

/-- Pixel (x, y) of the framebuffer (R32). -/
def pixelAt (fb : Memory) (x y : Nat) : Bool := (fb.read (pixelIndex x y)).getLsbD (y &&& 7)

/-- PutPixel (R97): ignored outside the panel, else exactly one bit of one byte. -/
def putPixel (p : Point) (c : Bool) (fb : Memory) : Memory :=
  if p.1.toNat ≥ 128 ∨ p.2.toNat ≥ 64 then fb
  else
    let i := pixelIndex p.1.toNat p.2.toNat
    let m : Byte := 1#8 <<< (p.2.toNat &&& 7)
    if c then fb.write i (fb.read i ||| m) else fb.write i (fb.read i &&& ~~~m)

/-- PutPixel for each position and colour of a list, in order (R57). -/
def putDots (dots : List (Point × Bool)) (fb : Memory) : Memory :=
  dots.foldl (fun m d => putPixel d.1 d.2 m) fb

/-- PutPixel in one colour for each position of a list, in order (R57). -/
def putPoints (points : List Point) (c : Bool) (fb : Memory) : Memory :=
  putDots (points.map fun p => (p, c)) fb

/-- A command draws positions in its own colour, L_COLOR (R66). -/
def State.draw (points : List Point) (s : State) : State := { s with fb := putPoints points s.latch.color s.fb }

/-! ### Acceptance and completion -/

/-- Acceptance of a legal command word (R19): its fields and all six operand registers are latched, and BUSY becomes 1. -/
def accept (i : Instr) (s : State) : State :=
  { s with
    latch := { op := i.opcode, color := i.color, font := i.font, l := s.arg }
    engine := .accepted i }

/-- An illegal word while BUSY = 0 (R71): RESULT = (OP, ILLEGAL_CMD), ILL set, nothing else changes. -/
def rejectWord (w : Word) (s : State) : State :=
  { s with
    result := { op := opField w, info := { code := .illegalCmd } }
    ill := true }

/-- The command's work is done and only its completion is left: `finish(code, info)` or `raise code(info)` (R138). -/
def finishWith (c : Completion) (s : State) : State := { s with engine := .finishing c }

/-- The completion primitive itself, one atomic step and the last of the command (R138). -/
def complete (c : Completion) (s : State) : State :=
  { s with
    result := { op := s.latch.op, info := c }
    terr := terrAfter s.terr c.code
    batch := false
    engine := .idle }

/-! ### Transport -/

/-- Issues a transaction; the engine then blocks on the answer (R83). -/
def issue (site : Site) (tx : Tx) (s : State) : State := { s with engine := .waiting site tx }

/-- The transport's next answer (R83): the environment's, or else a free value. -/
def State.nextAnswer (s : State) : Answer :=
  match s.answers with
  | r :: _ => r
  | [] => Config.transportAnswer s.answerDraws

/-- The state with that answer used up. -/
def State.dropAnswer (s : State) : State :=
  match s.answers with
  | _ :: rest => { s with answers := rest }
  | [] => { s with answerDraws := s.answerDraws + 1 }

/-- The transport answers the outstanding transaction, and the log gets its entry (R60, R83). Without an outstanding
transaction the transport has nothing to do. -/
def transportStep (s : State) : State :=
  match s.engine with
  | .waiting site tx =>
    { s.dropAnswer with
      log := s.log ++ [{ tx := tx, result := s.nextAnswer }]
      engine := .answered site s.nextAnswer }
  | .idle => s
  | .accepted _ => s
  | .answered _ _ => s
  | .finishing _ => s

/-! ### The page serializer -/

/-- Page p's 128 framebuffer bytes, in ascending index (R84, R46). -/
def pageBytes (fb : Memory) (p : Fin 8) : List Byte := (List.range 128).map fun (j : Nat) => fb.read (128 * p.val + j)

/-- Transaction k of page p (R84): a PAGE_CMDS byte for k = 0, 1, 2, the data burst for k = 3. -/
def pageTx (cfg : Params) (fb : Memory) (p : Fin 8) (k : Fin 4) : Tx :=
  if h : k.val < 3 then .cmd ((cfg.pageCmds[p])[k.val]'h) else .data (pageBytes fb p)

/-- Issues transaction k of page p of the flush. -/
def issuePage (p : Fin 8) (k : Fin 4) (tail : Tail) (s : State) : State :=
  issue (.page p k tail) (pageTx s.cfg s.fb p k) s

/-- The position after transaction k of page p: the next of the page, then page p + 1, none after page 7 (R84). -/
def nextPageSite (p : Fin 8) (k : Fin 4) : Option (Fin 8 × Fin 4) :=
  if hk : k.val < 3 then some (p, ⟨k.val + 1, by omega⟩)
  else if hp : p.val < 7 then some (⟨p.val + 1, by omega⟩, 0)
  else none

/-- The CHAR value a flush's completion carries (R85, R88). -/
def Tail.char : Tail → Byte
  | .init => 0
  | .flushTail ch => ch

/-- The flush succeeded (R85, R88). -/
def flushOk (tail : Tail) (s : State) : State :=
  match tail with
  | .init => finishWith { code := .ok } { s with initialized := true }
  | .flushTail ch => finishWith { code := .ok, char := ch } s

/-- FlushTail(ch) (R85): batch mode off, then the flush from page 0. -/
def flushTail (ch : Byte) (s : State) : State := issuePage 0 0 (.flushTail ch) { s with batch := false }

/-- INIT from configuration byte k on (R88): the byte's transaction, or, after the last, the clear, the cursor's reset and
the flush. -/
def configFrom (k : Nat) (s : State) : State :=
  match s.cfg.initSeq[k]? with
  | some b => issue (.config k) (.cmd b) s
  | none => issuePage 0 0 .init { s with fb := Memory.filled 0x00, curX := 0, curY := 0, batch := false }

/-- What a failed transaction raises (R85, R88): TKIND is the result, FPAGE the page, FCFG marks a configuration byte. -/
def transportFailure (site : Site) (r : Answer) : Completion :=
  match site with
  | .config _ => { code := .transportFail, tkind := r, fcfg := true }
  | .page p _ tail => { code := .transportFail, tkind := r, char := tail.char, fpage := BitVec.ofNat 3 p.val }

/-- After an OK answer: the next transaction, or the end of the flush (R84, R88). -/
def afterOk (site : Site) (s : State) : State :=
  match site with
  | .config k => configFrom (k + 1) s
  | .page p k tail =>
    match nextPageSite p k with
    | some (p', k') => issuePage p' k' tail s
    | none => flushOk tail s

/-- The engine segment after an answer (R84, R88): any result but OK ends the command at once, with no retry (R86, R142). -/
def resume (site : Site) (r : Answer) (s : State) : State :=
  if r = .ok then afterOk site s else finishWith (transportFailure site r) s

/-! ### Running a command to its finish -/

/-- One atomic step of a command whose first segment has run: an answer, the next segment, or the completion. -/
def continueStep (s : State) : State :=
  match s.engine with
  | .idle => s
  | .accepted _ => s
  | .waiting _ _ => transportStep s
  | .answered site r => resume site r s
  | .finishing c => complete c s

/-- n such steps. -/
def continueFor : Nat → State → State
  | 0, s => s
  | n + 1, s => continueFor n (continueStep s)

/-- Enough steps for any command: two for each transaction of INIT, the longest, and one for the completion (R166). -/
def stepBound (p : Params) : Nat := 2 * (p.initSeq.length + 32) + 1

/-- A whole command with no other agent's step in between: acceptance, its first segment, then every answer and segment up
to the finish (R19, R56, R138). -/
def runCommand (i : Instr) (segment : State → State) (s : State) : Host.Outcome State Fault Refusal :=
  .next (continueFor (stepBound s.cfg) (segment (accept i s)))

end Sys2Proof.Machine
end

