-- ==== Sys2Proof/Machine/Lifecycle.lean ====
section
/-! DEFINITION. INIT, CLEAR, ALLON and FLUSH (40_framebuffer_lifecycle.md): the first engine segment of each, and the whole
command. -/

namespace Sys2Proof.Machine

/-- INIT's first segment (R88): INITIALIZED off, then the first configuration byte. -/
def segInit (s : State) : State := configFrom 0 { s with initialized := false }

/-- CLEAR's first segment (R90). -/
def segClear (s : State) : State := flushTail 0 { s with fb := Memory.filled 0x00 }

/-- ALLON's first segment (R92). -/
def segAllon (s : State) : State := flushTail 0 { s with fb := Memory.filled 0xFF }

/-- FLUSH's first segment (R94). -/
def segFlush (s : State) : State := flushTail 0 s

/-- INIT (R88). -/
def execInit (c : Bool) (f : BitVec 4) (s : State) : Host.Outcome State Fault Refusal :=
  runCommand (.init c f) segInit s

/-- CLEAR (R90). -/
def execClear (c : Bool) (f : BitVec 4) (s : State) : Host.Outcome State Fault Refusal :=
  runCommand (.clear c f) segClear s

/-- ALLON (R92). -/
def execAllon (c : Bool) (f : BitVec 4) (s : State) : Host.Outcome State Fault Refusal :=
  runCommand (.allon c f) segAllon s

/-- FLUSH (R94). -/
def execFlush (c : Bool) (f : BitVec 4) (s : State) : Host.Outcome State Fault Refusal :=
  runCommand (.flush c f) segFlush s

end Sys2Proof.Machine
end

