-- ==== Sys2Proof/Machine/Pixel.lean ====
section
/-! DEFINITION. SETPIXEL and LINE (41_pixel_line.md), and the line rasterizer the shapes are built from. -/

namespace Sys2Proof.Machine

/-- The general-case loop of Line (R99): plot, test for the end point, then the two error tests on the same `e2`. The fuel
bounds the number of pixels; 128 always suffices (R100, R167). -/
def lineLoop (dx dy sx sy x1 y1 : Int) : Nat → Int → Int → Int → List Point
  | 0, _, _, _ => []
  | n + 1, x0, y0, err =>
    (mod16 x0, mod16 y0) ::
      if x0 = x1 ∧ y0 = y1 then []
      else
        lineLoop dx dy sx sy x1 y1 n
          (if err > -dx then x0 + sx else x0)
          (if err < dy then y0 + sy else y0)
          ((if err > -dx then err - dy else err) + (if err < dy then dx else 0))

/-- Line between clamped end points (R99): vertical and horizontal runs from the lower coordinate up (R106), else the
Bresenham loop with initial error `trunc_div((dx > dy) ? dx : -dy, 2)`. -/
def clampedLine (x0 y0 x1 y1 : Int) : List Point :=
  let dx := absInt (x1 - x0)
  let dy := absInt (y1 - y0)
  if dx = 0 then (span (min y0 y1) (max y0 y1)).map fun y => (mod16 x0, mod16 y)
  else if dy = 0 then (span (min x0 x1) (max x0 x1)).map fun x => (mod16 x, mod16 y0)
  else
    lineLoop dx dy (if x0 < x1 then 1 else -1) (if y0 < y1 then 1 else -1) x1 y1 128 x0 y0
      (Int.tdiv (if dx > dy then dx else -dy) 2)

/-- The positions `Line(x0, y0, x1, y1, c)` gives to PutPixel, in order (R99): each end point is clamped independently. -/
def linePoints (x0 y0 x1 y1 : Half) : List Point := clampedLine (clampX x0) (clampY y0) (clampX x1) (clampY y1)

/-- SETPIXEL's segment (R98): no flush. -/
def segSetpixel (s : State) : State := finishWith { code := .ok } (s.draw [(s.opd 0, s.opd 1)])

/-- LINE's first segment (R101): flushes unless batch mode is on. -/
def segLine (s : State) : State :=
  let s' := s.draw (linePoints (s.opd 0) (s.opd 1) (s.opd 2) (s.opd 3))
  if s'.batch then finishWith { code := .ok } s' else flushTail 0 s'

/-- SETPIXEL (R98). -/
def execSetpixel (c : Bool) (f : BitVec 4) (s : State) : Host.Outcome State Fault Refusal :=
  runCommand (.setpixel c f) segSetpixel s

/-- LINE (R101). -/
def execLine (c : Bool) (f : BitVec 4) (s : State) : Host.Outcome State Fault Refusal :=
  runCommand (.line c f) segLine s

end Sys2Proof.Machine
end

