-- ==== Sys2Proof/Machine/Shapes.lean ====
section
/-! DEFINITION. RECT, FRECT, TRI, FTRI, CIRCLE and FCIRCLE (42_shapes.md). -/

namespace Sys2Proof.Machine

/-- The far column of a rectangle (R108): the exact sum, clamped to 127. -/
def rectXEnd (x w : Half) : Half := BitVec.ofNat 16 (min (x.toNat + w.toNat) 127)

/-- The far row of a rectangle (R108): the exact sum, clamped to 63. -/
def rectYEnd (y h : Half) : Half := BitVec.ofNat 16 (min (y.toNat + h.toNat) 63)

/-- A rectangle's origin lies in the panel; otherwise it draws nothing (R109). -/
def rectOriginIn (x y : Half) : Bool := decide (x.toNat < 128) && decide (y.toNat < 64)

/-- RECT's outline: top, bottom, left, right (R108). -/
def rectPoints (x y w h : Half) : List Point :=
  if rectOriginIn x y then
    let xe := rectXEnd x w
    let ye := rectYEnd y h
    linePoints x y xe y ++ linePoints x ye xe ye ++ linePoints x y x ye ++ linePoints xe y xe ye
  else []

/-- FRECT's horizontal lines, rows y to the clamped y + h (R110). -/
def frectPoints (x y w h : Half) : List Point :=
  if rectOriginIn x y then
    let xe := rectXEnd x w
    let ye := rectYEnd y h
    (List.range (ye.toNat - y.toNat + 1)).flatMap fun (i : Nat) =>
      linePoints x (mod16 ((y.toNat : Int) + (i : Int))) xe (mod16 ((y.toNat : Int) + (i : Int)))
  else []

/-- TRI's three lines, v1 to v2, v2 to v3, v3 to v1 (R112, R113). -/
def triPoints (x1 y1 x2 y2 x3 y3 : Half) : List Point :=
  linePoints x1 y1 x2 y2 ++ linePoints x2 y2 x3 y3 ++ linePoints x3 y3 x1 y1

/-- The loop of TriFill (R114): a line to vertex 3, then the two-term DDA step. -/
def triLoop (den numadd xinc1 yinc1 xinc2 yinc2 : Int) (x3 y3 : Half) : Nat → Int → Int → Int → List Point
  | 0, _, _, _ => []
  | n + 1, num, x, y =>
    linePoints (mod16 x) (mod16 y) x3 y3 ++
      if num + numadd ≥ den then
        triLoop den numadd xinc1 yinc1 xinc2 yinc2 x3 y3 n (num + numadd - den) (x + xinc1 + xinc2) (y + yinc1 + yinc2)
      else triLoop den numadd xinc1 yinc1 xinc2 yinc2 x3 y3 n (num + numadd) (x + xinc2) (y + yinc2)

/-- TriFill (R114): numpixels + 1 lines along the longer axis between v1 and v2. -/
def triFillPoints (x1 y1 x2 y2 x3 y3 : Half) : List Point :=
  let deltax := absInt ((x2.toNat : Int) - x1.toNat)
  let deltay := absInt ((y2.toNat : Int) - y1.toNat)
  let xinc : Int := if x2.toNat ≥ x1.toNat then 1 else -1
  let yinc : Int := if y2.toNat ≥ y1.toNat then 1 else -1
  if deltax ≥ deltay then
    triLoop deltax deltay 0 yinc xinc 0 x3 y3 (deltax.toNat + 1) (Int.fdiv deltax 2) x1.toNat y1.toNat
  else
    triLoop deltay deltax xinc 0 0 yinc x3 y3 (deltay.toNat + 1) (Int.fdiv deltay 2) x1.toNat y1.toNat

/-- The loop of CircleSteps (R117), giving the visited (x, y) in order. x grows by one and y never grows, so r rounds
suffice (R117, R167). -/
def circleLoop : Nat → Int → Int → Int → Int → Int → List (Int × Int)
  | 0, _, _, _, _, _ => []
  | n + 1, f, ddFx, ddFy, x, y =>
    if x < y then
      let y' := if f ≥ 0 then y - 1 else y
      let ddFy' := if f ≥ 0 then ddFy + 2 else ddFy
      let f' := if f ≥ 0 then f + ddFy' else f
      let x' := x + 1
      let ddFx' := ddFx + 2
      (x', y') :: circleLoop n (f' + ddFx') ddFx' ddFy' x' y'
    else []

/-- CircleSteps (R117) from `f = 1 - r, ddF_x = 1, ddF_y = -2r, x = 0, y = r`. -/
def circleSteps (r : Half) : List (Int × Int) := circleLoop r.toNat (1 - r.toNat) 1 (-2 * r.toNat) 0 r.toNat

/-- A position at an exact offset, each coordinate reduced mod 2^16 (R96). -/
def offsetPoint (x0 y0 : Half) (dx dy : Int) : Point := (mod16 (x0.toNat + dx), mod16 (y0.toNat + dy))

/-- The four axis points (R118, R120). -/
def axisPoints (x0 y0 r : Half) : List Point :=
  [offsetPoint x0 y0 0 r.toNat, offsetPoint x0 y0 0 (-r.toNat), offsetPoint x0 y0 r.toNat 0,
   offsetPoint x0 y0 (-r.toNat) 0]

/-- The eight reflections CIRCLE plots per step (R118). -/
def octantPoints (x0 y0 : Half) (x y : Int) : List Point :=
  [offsetPoint x0 y0 x y, offsetPoint x0 y0 (-x) y, offsetPoint x0 y0 x (-y), offsetPoint x0 y0 (-x) (-y),
   offsetPoint x0 y0 y x, offsetPoint x0 y0 (-y) x, offsetPoint x0 y0 y (-x), offsetPoint x0 y0 (-y) (-x)]

/-- CIRCLE's positions (R118). -/
def circlePoints (x0 y0 r : Half) : List Point :=
  axisPoints x0 y0 r ++ (circleSteps r).flatMap fun v => octantPoints x0 y0 v.1 v.2

/-- A chord between two positions (R120). -/
def chord (a b : Point) : List Point := linePoints a.1 a.2 b.1 b.2

/-- The four chords FCIRCLE draws per step, in order and direction (R120). -/
def chordPoints (x0 y0 : Half) (x y : Int) : List Point :=
  chord (offsetPoint x0 y0 (-x) y) (offsetPoint x0 y0 x y) ++
  chord (offsetPoint x0 y0 x (-y)) (offsetPoint x0 y0 (-x) (-y)) ++
  chord (offsetPoint x0 y0 y x) (offsetPoint x0 y0 (-y) x) ++
  chord (offsetPoint x0 y0 y (-x)) (offsetPoint x0 y0 (-y) (-x))

/-- FCIRCLE's positions: axis points, centre row, chords (R120). -/
def fcirclePoints (x0 y0 r : Half) : List Point :=
  axisPoints x0 y0 r ++ chord (offsetPoint x0 y0 (-r.toNat) 0) (offsetPoint x0 y0 r.toNat 0) ++
    (circleSteps r).flatMap fun v => chordPoints x0 y0 v.1 v.2

/-- The frame of every shape command (R107): batch mode on, the drawing, FlushTail. -/
def shapeSegment (points : List Point) (s : State) : State := flushTail 0 (State.draw points { s with batch := true })

/-- RECT's first segment (R108). -/
def segRect (s : State) : State := shapeSegment (rectPoints (s.opd 0) (s.opd 1) (s.opd 2) (s.opd 3)) s

/-- FRECT's first segment (R110). -/
def segFrect (s : State) : State := shapeSegment (frectPoints (s.opd 0) (s.opd 1) (s.opd 2) (s.opd 3)) s

/-- TRI's first segment (R112). -/
def segTri (s : State) : State :=
  shapeSegment (triPoints (s.opd 0) (s.opd 1) (s.opd 2) (s.opd 3) (s.opd 4) (s.opd 5)) s

/-- FTRI's first segment (R115). -/
def segFtri (s : State) : State :=
  shapeSegment (triFillPoints (s.opd 0) (s.opd 1) (s.opd 2) (s.opd 3) (s.opd 4) (s.opd 5)) s

/-- CIRCLE's first segment (R118). -/
def segCircle (s : State) : State := shapeSegment (circlePoints (s.opd 0) (s.opd 1) (s.opd 2)) s

/-- FCIRCLE's first segment (R120). -/
def segFcircle (s : State) : State := shapeSegment (fcirclePoints (s.opd 0) (s.opd 1) (s.opd 2)) s

/-- RECT (R108). -/
def execRect (c : Bool) (f : BitVec 4) (s : State) : Host.Outcome State Fault Refusal :=
  runCommand (.rect c f) segRect s

/-- FRECT (R110). -/
def execFrect (c : Bool) (f : BitVec 4) (s : State) : Host.Outcome State Fault Refusal :=
  runCommand (.frect c f) segFrect s

/-- TRI (R112). -/
def execTri (c : Bool) (f : BitVec 4) (s : State) : Host.Outcome State Fault Refusal :=
  runCommand (.tri c f) segTri s

/-- FTRI (R115). -/
def execFtri (c : Bool) (f : BitVec 4) (s : State) : Host.Outcome State Fault Refusal :=
  runCommand (.ftri c f) segFtri s

/-- CIRCLE (R118). -/
def execCircle (c : Bool) (f : BitVec 4) (s : State) : Host.Outcome State Fault Refusal :=
  runCommand (.circle c f) segCircle s

/-- FCIRCLE (R120). -/
def execFcircle (c : Bool) (f : BitVec 4) (s : State) : Host.Outcome State Fault Refusal :=
  runCommand (.fcircle c f) segFcircle s

end Sys2Proof.Machine
end

