-- ==== Sys2Proof/Machine/Text.lean ====
section
/-! DEFINITION. GOTOXY, CHAR and STR (43_text.md): the glyph renderer. -/

namespace Sys2Proof.Machine

/-- Moves the cursor. -/
def State.setCursor (x y : Half) (s : State) : State := { s with curX := x, curY := y }

/-- A character code the font has a glyph for: 32..126 (R125). -/
def glyphCode (ch : Byte) : Bool := decide (32 ≤ ch.toNat) && decide (ch.toNat ≤ 126)

/-- The glyph box at the cursor lies in the panel (R126): exact sums, and a box ending on column 127 or row 63 fits. -/
def glyphFits (font : Font) (s : State) : Bool :=
  decide (s.curX.toNat + font.fw ≤ 128) && decide (s.curY.toNat + font.fh ≤ 64)

/-- Row i of the glyph of ch (R123). -/
def glyphRow (font : Font) (ch : Byte) (i : Nat) : BitVec 16 := fontRow font ((ch.toNat - 32) * font.fh + i)

/-- Column j of row i of the glyph of ch is foreground (R123). -/
def glyphBit (font : Font) (ch : Byte) (i j : Nat) : Bool := decide (glyphRow font ch i &&& columnMask j ≠ 0)

/-- The glyph's pixels at a cursor, rows top to bottom, columns left to right, opaque: the background gets the negated
colour (R12, R127). -/
def glyphDots (font : Font) (ch : Byte) (curX curY : Half) (c : Bool) : List (Point × Bool) :=
  (List.range font.fh).flatMap fun (i : Nat) =>
    (List.range font.fw).map fun (j : Nat) =>
      ((mod16 (curX.toNat + j), mod16 (curY.toNat + i)), if glyphBit font ch i j then c else !c)

/-- Plots the glyph at the cursor and advances the cursor by FW (R127). -/
def plotGlyph (font : Font) (ch : Byte) (c : Bool) (s : State) : State :=
  { s with
    fb := putDots (glyphDots font ch s.curX s.curY c) s.fb
    curX := mod16 (s.curX.toNat + font.fw) }

/-- The glyph step's reposition: only while batch mode is off (R127). -/
def reposition (x y : Half) (s : State) : State := if s.batch then s else s.setCursor x y

/-- DrawCharOp(x, y, ch, f, c) (R127): a completion code and the state; it never flushes. -/
def drawCharOp (x y : Half) (ch : Byte) (f : BitVec 4) (c : Bool) (s : State) : Code × State :=
  let font := fontOf s.cfg f
  if !glyphCode ch then (.badGlyph, s)
  else
    match s.cfg.charCheck with
    | .beforeReposition =>
      if !glyphFits font s then (.glyphRejected, s) else (.ok, plotGlyph font ch c (reposition x y s))
    | .afterReposition =>
      if !glyphFits font (reposition x y s) then (.glyphRejected, reposition x y s)
      else (.ok, plotGlyph font ch c (reposition x y s))

/-- STR's loop over the text bytes from the start index on (R130): it ends at a byte 0x00 or with the buffer (R132), or at
the first character that fails, which it gives with its code. -/
def strLoop (x y : Half) (f : BitVec 4) (c : Bool) : List Byte → State → Option (Code × Byte) × State
  | [], s => (none, s)
  | ch :: rest, s =>
    if ch = 0 then (none, s)
    else
      match drawCharOp x y ch f c s with
      | (.ok, s') => strLoop x y f c rest s'
      | (code, s') => (some (code, ch), s')

/-- GOTOXY's segment (R124): any 16-bit value, no bounds check, no flush. -/
def segGotoxy (s : State) : State := finishWith { code := .ok } (s.setCursor (s.opd 0) (s.opd 1))

/-- CHAR's first segment (R128): a failed glyph step reports the sentinel 0x00 and does not flush. -/
def segChar (s : State) : State :=
  match drawCharOp (s.opd 0) (s.opd 1) s.opdByte s.latch.font s.latch.color s with
  | (.ok, s') =>
    if s'.batch then finishWith { code := .ok, char := s.opdByte } s' else flushTail s.opdByte s'
  | (code, s') => finishWith { code := code } s'

/-- STR's first segment (R130): batch mode on, reposition, the characters; a failed one ends it without a flush (R131). -/
def segStr (s : State) : State :=
  match strLoop (s.opd 0) (s.opd 1) s.latch.font s.latch.color (s.text.toList.drop s.opdByte.toNat)
      (State.setCursor (s.opd 0) (s.opd 1) { s with batch := true }) with
  | (none, s') => flushTail 0x00 s'
  | (some (code, ch), s') => finishWith { code := code, char := ch } { s' with batch := false }

/-- GOTOXY (R124). -/
def execGotoxy (c : Bool) (f : BitVec 4) (s : State) : Host.Outcome State Fault Refusal :=
  runCommand (.gotoxy c f) segGotoxy s

/-- CHAR (R128). -/
def execChar (c : Bool) (f : BitVec 4) (s : State) : Host.Outcome State Fault Refusal :=
  runCommand (.char c f) segChar s

/-- STR (R130). -/
def execStr (c : Bool) (f : BitVec 4) (s : State) : Host.Outcome State Fault Refusal :=
  runCommand (.str c f) segStr s

end Sys2Proof.Machine
end

