-- ==== Sys2Proof/Machine/Dispatch.lean ====
section
/-! DEFINITION. The dispatch: one meaning per command. -/

namespace Sys2Proof.Machine

def exec (i : Instr) (s : State) : Host.Outcome State Fault Refusal :=
  match i with
  | .init c f => Sys2Proof.Machine.execInit c f s
  | .clear c f => Sys2Proof.Machine.execClear c f s
  | .allon c f => Sys2Proof.Machine.execAllon c f s
  | .flush c f => Sys2Proof.Machine.execFlush c f s
  | .setpixel c f => Sys2Proof.Machine.execSetpixel c f s
  | .line c f => Sys2Proof.Machine.execLine c f s
  | .rect c f => Sys2Proof.Machine.execRect c f s
  | .frect c f => Sys2Proof.Machine.execFrect c f s
  | .tri c f => Sys2Proof.Machine.execTri c f s
  | .ftri c f => Sys2Proof.Machine.execFtri c f s
  | .circle c f => Sys2Proof.Machine.execCircle c f s
  | .fcircle c f => Sys2Proof.Machine.execFcircle c f s
  | .char c f => Sys2Proof.Machine.execChar c f s
  | .str c f => Sys2Proof.Machine.execStr c f s
  | .gotoxy c f => Sys2Proof.Machine.execGotoxy c f s

end Sys2Proof.Machine
end

