-- ==== Sys2Proof/Machine/Engine.lean ====
section
/-! DEFINITION. The engine's atomic steps, one at a time (R56), and the reset input (R153, R154). -/

namespace Sys2Proof.Machine

/-- The first segment of an accepted command. -/
def firstSegment (i : Instr) (s : State) : State :=
  match i with
  | .init _ _ => segInit s
  | .clear _ _ => segClear s
  | .allon _ _ => segAllon s
  | .flush _ _ => segFlush s
  | .setpixel _ _ => segSetpixel s
  | .line _ _ => segLine s
  | .rect _ _ => segRect s
  | .frect _ _ => segFrect s
  | .tri _ _ => segTri s
  | .ftri _ _ => segFtri s
  | .circle _ _ => segCircle s
  | .fcircle _ _ => segFcircle s
  | .char _ _ => segChar s
  | .str _ _ => segStr s
  | .gotoxy _ _ => segGotoxy s

/-- The engine's next atomic step: a segment, or the completion. It has none while idle or blocked on an answer (R83). -/
def engineStep (s : State) : State :=
  match s.engine with
  | .idle => s
  | .accepted i => firstSegment i s
  | .waiting _ _ => s
  | .answered site r => resume site r s
  | .finishing c => complete c s

/-- A running command goes on by one atomic step, the transport's or the engine's, whichever is enabled; an idle block waits
(R155). -/
def advance (s : State) : State :=
  match s.engine with
  | .idle => s
  | .accepted i => firstSegment i s
  | .waiting _ _ => transportStep s
  | .answered site r => resume site r s
  | .finishing c => complete c s

/-- The reset input (R153, R154): every piece of state takes its reset value, a running command is discarded, and an
unanswered transaction gets no log entry. The log entries already made stay (R60), and so do the environment's lists and the
draw counters, which are no state of the block. -/
def resetInput (s : State) : State :=
  { State.atReset s.cfg s.textDraws with
    log := s.log
    inbox := s.inbox
    answers := s.answers
    hostLog := s.hostLog
    answerDraws := s.answerDraws
    readDraws := s.readDraws }

end Sys2Proof.Machine
end

