-- ==== Sys2Proof/Machine/HostPort.lean ====
section
/-! DEFINITION. The host port: the register map (R39) and the host access primitives MemRead and MemWrite (R47 to R51), idle
and busy (R159, R160). -/

namespace Sys2Proof.Machine

/-- The registers of the map (R39). -/
inductive Reg
  | id
  | cmd
  | status
  | result
  | arg (n : Fin 6)
  | cursor
  | text (k : Fin 64)
  | fbwin (k : Fin 256)
deriving DecidableEq, Repr

/-- The register at an offset (R39); none at a misaligned or a reserved offset (R49, R50). -/
def regAt (addr : Offset) : Option Reg :=
  let a := addr.toNat
  if a % 4 ≠ 0 then none
  else if a = 0x000 then some .id
  else if a = 0x004 then some .cmd
  else if a = 0x008 then some .status
  else if a = 0x00C then some .result
  else if h : 0x010 ≤ a ∧ a < 0x028 then some (.arg ⟨(a - 0x010) / 4, by omega⟩)
  else if a = 0x028 then some .cursor
  else if h : 0x100 ≤ a ∧ a < 0x200 then some (.text ⟨(a - 0x100) / 4, by omega⟩)
  else if h : 0x400 ≤ a ∧ a < 0x800 then some (.fbwin ⟨(a - 0x400) / 4, by omega⟩)
  else none

/-- The register an access of a given width reaches: the only width is four bytes (R49). -/
def accessReg (width : Nat) (addr : Offset) : Option Reg := if width = 4 then regAt addr else none

/-- FBWIN word k (R51): FB[4k] in bits 7:0 up to FB[4k+3] in bits 31:24. -/
def fbWord (fb : Memory) (k : Nat) : Word := wordOfBytes (fb.read (4 * k)) (fb.read (4 * k + 1)) (fb.read (4 * k + 2)) (fb.read (4 * k + 3))

/-- TEXT word k (R34, R45). -/
def textWord (text : Vector Byte 256) (k : Fin 64) : Word :=
  wordOfBytes (text[4 * k.val]'(by omega)) (text[4 * k.val + 1]'(by omega)) (text[4 * k.val + 2]'(by omega))
    (text[4 * k.val + 3]'(by omega))

/-- A write of TEXT word k: its four bytes together (R48, R52). -/
def writeTextWord (text : Vector Byte 256) (k : Fin 64) (v : Word) : Vector Byte 256 :=
  (((text.set (4 * k.val) (v.extractLsb' 0 8) (by omega)).set (4 * k.val + 1) (v.extractLsb' 8 8) (by omega)).set
      (4 * k.val + 2) (v.extractLsb' 16 8) (by omega)).set (4 * k.val + 3) (v.extractLsb' 24 8) (by omega)

/-- The free value the next unsynchronised read gets (R160). -/
def State.anyRead (s : State) : Word := Config.anyRead s.readDraws

/-- What a read of a register returns while the block is idle: its current value (R39, R53). -/
def idleRead (s : State) : Reg → Word
  | .id => Config.idValue
  | .cmd => 0
  | .status => s.statusWord
  | .result => s.result.word
  | .arg n => (s.arg[n]).setWidth 32
  | .cursor => s.cursorWord
  | .text k => textWord s.text k
  | .fbwin k => fbWord s.fb k.val

/-- What a read returns while BUSY = 1 (R160): any value for RESULT, CURSOR, FBWIN and for STATUS.INITIALIZED and
STATUS.BATCH; the current value for the rest. -/
def busyRead (s : State) : Reg → Word
  | .id => Config.idValue
  | .cmd => 0
  | .status => statusBits s.busy (s.anyRead.getLsbD 1) (s.anyRead.getLsbD 3) s.ovr s.ill s.terr
  | .result => s.anyRead
  | .arg n => (s.arg[n]).setWidth 32
  | .cursor => s.anyRead
  | .text k => textWord s.text k
  | .fbwin _ => s.anyRead

/-- The data of a read (R47, R160). -/
def readData (s : State) (r : Reg) : Word := if s.busy then busyRead s r else idleRead s r

/-- A host write that is no error access, by register (R48, R159); none where the register takes no write (R50). A CMD write
while idle is decoded and then accepted or rejected (R18, R71); a CMD or TEXT write while busy is ignored and sets OVR. -/
def writeReg (r : Reg) (v : Word) (s : State) : Option State :=
  match r with
  | .id => none
  | .cmd =>
    if s.busy then some (setOvr s)
    else
      match decode s.cfg v with
      | .ok i => some (accept i s)
      | .error _ => some (rejectWord v s)
  | .status => some (clearSticky v s)
  | .result => none
  | .arg n => some { s with arg := s.arg.set n (v.extractLsb' 0 16) }
  | .cursor => none
  | .text k => if s.busy then some (setOvr s) else some { s with text := writeTextWord s.text k v }
  | .fbwin _ => none

/-- The host sees the response to its access (R145). -/
def State.respond (a : Access) (resp : Resp) (data : Word) (s : State) : State :=
  { s with hostLog := s.hostLog ++ [{ access := a, resp := resp, data := data }] }

/-- MemRead (R47): an error access answers ERR with data 0. A read has no side effect on the block; `readDraws` only counts the
free values drawn while BUSY = 1. -/
def hostRead (width : Nat) (addr : Offset) (s : State) : State :=
  match accessReg width addr with
  | none => s.respond (.read width addr) .err 0
  | some r => State.respond (.read width addr) .ok (readData s r) { s with readDraws := if s.busy then s.readDraws + 1 else s.readDraws }

/-- MemWrite (R48): an error access answers ERR and changes nothing. -/
def hostWrite (width : Nat) (addr : Offset) (v : Word) (s : State) : State :=
  match (accessReg width addr).bind fun r => writeReg r v s with
  | none => s.respond (.write width addr v) .err 0
  | some s' => s'.respond (.write width addr v) .ok 0

/-- One host access: one atomic step (R52, R56). -/
def hostAccess (a : Access) (s : State) : State :=
  match a with
  | .read width addr => hostRead width addr s
  | .write width addr v => hostWrite width addr v s

/-- The access of the assembler's `WR 0x004, w` (R75, R76). -/
def cmdWrite (w : Word) : Access := .write 4 0x004 w

/-- The access of the assembler's `RD 0x008` (R75). -/
def statusRead : Access := .read 4 0x008

end Sys2Proof.Machine
end

