-- ==== Sys2Proof/Machine/Step.lean ====
section
/-! DEFINITION. One step of the block: the environment's next event (R56). -/

namespace Sys2Proof.Machine

/-- The host writes `w` to CMD and then waits: while BUSY = 1 the write is ignored and sets OVR (R159); else an illegal word is
rejected (R71) and a legal one runs to its finish. -/
def runWord (w : Word) (s : State) : Host.Outcome State Fault Refusal :=
  if s.busy then .next (setOvr s)
  else
    match decode s.cfg w with
    | .ok i => exec i s
    | .error _ => .next (rejectWord w s)

/-- The host's poll (R75): it reads STATUS, and goes on polling while BUSY is 1; the running command advances between two
polls. -/
def pollStep (s : State) (rest : List Event) : State :=
  if s.busy then advance (hostAccess statusRead s) else hostAccess statusRead { s with inbox := rest }

/-- One step: the head of the inbox is carried out and dropped. With an empty inbox the running command goes on. -/
def step (s : State) : Host.Outcome State Fault Refusal :=
  match s.inbox with
  | [] => .next (advance s)
  | .host a :: rest => .next (hostAccess a { s with inbox := rest })
  | .waitIdle :: rest => .next (pollStep s rest)
  | .command w :: rest => runWord w (State.respond (cmdWrite w) .ok 0 { s with inbox := rest })
  | .engine :: rest => .next (engineStep { s with inbox := rest })
  | .transport :: rest => .next (transportStep { s with inbox := rest })
  | .reset :: rest => .next (resetInput { s with inbox := rest })

/-- `s` with a command word put where the step takes its next command from: as the host's next CMD write. The block fetches
nothing (R16), so this is how a command comes to run. -/
def State.withFetchWord (s : State) (nbits w : Nat) : State :=
  { s with inbox := .command (BitVec.ofNat 32 (w % 2 ^ nbits)) :: s.inbox }

end Sys2Proof.Machine
end

