-- ==== Sys2Proof/Machine/HostProgram.lean ====
section
/-! DEFINITION. The host's assembler (R75 to R77): host operations and the pseudo-instructions, as the events they stand for,
where the platform puts the register space (R54), and the end of a program's run (R168). -/

namespace Sys2Proof.Machine

/-- The system address of a register offset: BASE + off (R54, R75). -/
def busAddress (p : Params) (off : Offset) : Nat := p.base + off.toNat

/-- The port offset the platform presents for a system address; an address outside the 4 KiB window does not reach the port
(R49, R54). -/
def portOffset (p : Params) (a : Nat) : Option Offset :=
  if p.base ≤ a ∧ a < p.base + 4096 then some (BitVec.ofNat 12 (a - p.base)) else none

/-- MemWrite(a, 4, v) at a system address, as the port sees it. -/
def busWrite (p : Params) (a : Nat) (v : Word) : List Event :=
  match portOffset p a with
  | none => []
  | some off => [.host (.write 4 off v)]

/-- MemRead(a, 4) at a system address, as the port sees it. -/
def busRead (p : Params) (a : Nat) : List Event :=
  match portOffset p a with
  | none => []
  | some off => [.host (.read 4 off)]

/-- `WR off, v` (R75). DESIGN CHOICE (log entry 16): an offset has 12 bits and a value 32, and a line with a larger number has no
expansion. -/
def asmWR (p : Params) (off : Offset) (v : Word) : List Event := busWrite p (busAddress p off) v

/-- `RD off` (R75); the offset as for WR. -/
def asmRD (p : Params) (off : Offset) : List Event := busRead p (busAddress p off)

/-- The writes of the operand registers, ARG0 up (R76). DESIGN CHOICE (log entry 16): the whole 16-bit number is written, also where
it is a `ch` or `start` above 255, of which R76 places only bits 7:0 of ARG2; the command reads no more than those (R69). -/
def asmArgs (p : Params) : Nat → List Half → List Event
  | _, [] => []
  | n, v :: rest => asmWR p (BitVec.ofNat 12 (0x010 + 4 * n)) (v.setWidth 32) ++ asmArgs p (n + 1) rest

/-- How many numeric operands a mnemonic's line lists, its font and colour apart (R68, R75). -/
def operandCount : Instr → Nat
  | .init _ _ => 0
  | .clear _ _ => 0
  | .allon _ _ => 0
  | .flush _ _ => 0
  | .setpixel _ _ => 2
  | .line _ _ => 4
  | .rect _ _ => 4
  | .frect _ _ => 4
  | .tri _ _ => 6
  | .ftri _ _ => 6
  | .circle _ _ => 3
  | .fcircle _ _ => 3
  | .char _ _ => 3
  | .str _ _ => 3
  | .gotoxy _ _ => 2

/-- A mnemonic's line lists a font (R75). -/
def listsFont : Instr → Bool
  | .init _ _ => false
  | .clear _ _ => false
  | .allon _ _ => false
  | .flush _ _ => false
  | .setpixel _ _ => false
  | .line _ _ => false
  | .rect _ _ => false
  | .frect _ _ => false
  | .tri _ _ => false
  | .ftri _ _ => false
  | .circle _ _ => false
  | .fcircle _ _ => false
  | .char _ _ => true
  | .str _ _ => true
  | .gotoxy _ _ => false

/-- A mnemonic's line lists a colour (R75). -/
def listsColor : Instr → Bool
  | .init _ _ => false
  | .clear _ _ => false
  | .allon _ _ => false
  | .flush _ _ => false
  | .setpixel _ _ => true
  | .line _ _ => true
  | .rect _ _ => true
  | .frect _ _ => true
  | .tri _ _ => true
  | .ftri _ _ => true
  | .circle _ _ => true
  | .fcircle _ _ => true
  | .char _ _ => true
  | .str _ _ => true
  | .gotoxy _ _ => false

/-- A command line of one of the forms R75 lists: that many operands, and a font or a colour other than 0 only where the line
has a place for it (an omitted one encodes as 0, R76). -/
def listedLine (i : Instr) (operands : List Half) : Bool :=
  decide (operands.length = operandCount i) && (listsFont i || decide (i.font = 0)) && (listsColor i || !i.color)

/-- `M a0, …, ak [, font] [, color]` (R76): the named operand registers, the command word, WAITIDLE. DESIGN CHOICE (log entry 16):
R75 and R76 say nothing of a line in another form, and the model gives it no expansion; an operand is a 16-bit number and a font a
4-bit one, so that a line with a larger number has no expansion. -/
def asmCommand (p : Params) (i : Instr) (operands : List Half) : Option (List Event) :=
  if listedLine i operands then some (asmArgs p 0 operands ++ asmWR p 0x004 (encode i) ++ [.waitIdle]) else none

/-- Whole TEXT words from a byte list, lowest word first, padded with 0x00 (R77). -/
def asmTextWords (p : Params) : Nat → List Byte → List Event
  | _, [] => []
  | off, [b0] => asmWR p (BitVec.ofNat 12 off) (wordOfBytes b0 0 0 0)
  | off, [b0, b1] => asmWR p (BitVec.ofNat 12 off) (wordOfBytes b0 b1 0 0)
  | off, [b0, b1, b2] => asmWR p (BitVec.ofNat 12 off) (wordOfBytes b0 b1 b2 0)
  | off, b0 :: b1 :: b2 :: b3 :: rest =>
    asmWR p (BitVec.ofNat 12 off) (wordOfBytes b0 b1 b2 b3) ++ asmTextWords p (off + 4) rest

/-- `TEXT i, "s"` (R77): the bytes of s and a 0x00 terminator from TEXT index i on; it needs `i mod 4 = 0` and
`i + len(s) + 1 ≤ 256`. DESIGN CHOICE (log entry 15): a line without these has no expansion. -/
def asmText (p : Params) (i : Nat) (bytes : List Byte) : Option (List Event) :=
  if i % 4 = 0 ∧ i + bytes.length + 1 ≤ 256 then some (asmTextWords p (0x100 + i) (bytes ++ [0])) else none

/-! ### The end of a run (R168) -/

/-- An event in which the host program makes an access. Turns of the engine and the transport, and the platform's reset input, are
none of its accesses. -/
def Event.isAccess : Event → Bool
  | .host _ => true
  | .waitIdle => true
  | .command _ => true
  | .engine => false
  | .transport => false
  | .reset => false

/-- The program has no access left, BUSY = 0, and no transaction is outstanding (R168): the last two hold exactly when the
sequencer is idle (R36). What other agents still do does not delay it. -/
def State.ended (s : State) : Prop := (∀ e ∈ s.inbox, e.isAccess = false) ∧ s.engine = .idle

/-- The final state of a run (R168): FB, the cursor, STATUS, RESULT, ARG, TEXT and the transport log, and nothing else. -/
structure FinalState where
  fb : Memory
  curX : Half
  curY : Half
  status : Word
  result : Word
  arg : Vector Half 6
  text : Vector Byte 256
  log : List LogEntry
deriving DecidableEq, Repr

/-- The state as R168 observes it at the end of a run. -/
def State.final (s : State) : FinalState where
  fb := s.fb
  curX := s.curX
  curY := s.curY
  status := s.statusWord
  result := s.result.word
  arg := s.arg
  text := s.text
  log := s.log

end Sys2Proof.Machine
end

