-- ==== Sys2Proof/Safety.lean ====
section
/-! DEFINITION. The terms claims are stated in: what a command leaves alone, what it draws, what a flush sends and records, and
the invariant of a safe run. -/

namespace Sys2Proof.Machine

/-! ### What the transport will answer, and what a flush sends -/

/-- The n-th answer the transport will give from `s` on: the environment's, then free values (R83). -/
def State.answerAt (s : State) (n : Nat) : Answer :=
  match s.answers[n]? with
  | some r => r
  | none => Config.transportAnswer (s.answerDraws + (n - s.answers.length))

/-- The 32 transactions of a flush of `fb`, in order (R84). -/
def flushTxs (cfg : Params) (fb : Memory) : List Tx :=
  (List.finRange 8).flatMap fun (p : Fin 8) =>
    [.cmd ((cfg.pageCmds[p])[0]), .cmd ((cfg.pageCmds[p])[1]), .cmd ((cfg.pageCmds[p])[2]),
     .data ((List.range 128).map fun (j : Nat) => fb.read (128 * p.val + j))]

/-- The log entries of a list of transactions, the first of them getting the n-th answer: up to and including the first that
is not OK, and none after it (R86). -/
def transcript (s : State) : Nat → List Tx → List LogEntry
  | _, [] => []
  | n, tx :: rest =>
    { tx := tx, result := s.answerAt n } :: if s.answerAt n = .ok then transcript s (n + 1) rest else []

/-- The first of the answers n, n+1, …, n+k-1 that is not OK. -/
def firstFailure (s : State) : Nat → Nat → Option Nat
  | _, 0 => none
  | n, k + 1 => if s.answerAt n = .ok then firstFailure s (n + 1) k else some n

/-- From `s` to `t` a flush of t's framebuffer ran as the last step of the command `op`, with CHAR value `ch` (R84, R85, R138):
the log has grown by the flush's transactions up to the first failure; RESULT says OK, or TRANSPORT_FAIL with the failing
answer and its page, and then TERR is set; BUSY and BATCH are 0. -/
structure Flushed (op ch : Byte) (s t : State) : Prop where
  log : t.log = s.log ++ transcript s 0 (flushTxs s.cfg t.fb)
  recorded :
    match firstFailure s 0 32 with
    | none => t.result = { op := op, info := { code := .ok, char := ch } } ∧ t.terr = s.terr
    | some n =>
      t.result = { op := op, info := { code := .transportFail, tkind := s.answerAt n, char := ch, fpage := BitVec.ofNat 3 (n / 4) } }
        ∧ t.terr = true
  idle : t.busy = false
  batch : t.batch = false

/-- From `s` to `t` the command `op` ended without a transaction, with completion `c` (R138). -/
structure Unflushed (op : Byte) (c : Completion) (s t : State) : Prop where
  log : t.log = s.log
  result : t.result = { op := op, info := c }
  terr : t.terr = s.terr
  idle : t.busy = false
  batch : t.batch = false

/-! ### Frames -/

/-- What no command writes (R42, R138): the parameters, ARG, TEXT, OVR, ILL, and the environment's own lists. -/
structure KeepsRegisters (s t : State) : Prop where
  cfg : t.cfg = s.cfg
  text : t.text = s.text
  arg : t.arg = s.arg
  ovr : t.ovr = s.ovr
  ill : t.ill = s.ill
  inbox : t.inbox = s.inbox
  hostLog : t.hostLog = s.hostLog
  readDraws : t.readDraws = s.readDraws
  textDraws : t.textDraws = s.textDraws

/-- The frame of a command that is not INIT and does not move the cursor. -/
structure KeepsCursor (s t : State) : Prop where
  curX : t.curX = s.curX
  curY : t.curY = s.curY
  initialized : t.initialized = s.initialized

/-- The command latched its word's fields and the operand registers (R19). -/
def Latched (i : Instr) (s t : State) : Prop :=
  t.latch = { op := i.opcode, color := i.color, font := i.font, l := s.arg }

/-- Every framebuffer byte is as before. -/
def SameFb (s t : State) : Prop := ∀ a, t.fb.read a = s.fb.read a

/-! ### Drawing -/

/-- A position inside the panel (R2). -/
def onPanel (p : Point) : Prop := p.1.toNat < 128 ∧ p.2.toNat < 64

/-- The panel position (x, y) as coordinates. -/
def at16 (x y : Nat) : Point := (BitVec.ofNat 16 x, BitVec.ofNat 16 y)

/-- From `s` to `t` exactly the panel positions that satisfy `P` took the colour `c`, every other pixel is as before, and every
byte that holds no such position is as before (R32, R97). -/
structure Drew (P : Nat → Nat → Prop) (c : Bool) (s t : State) : Prop where
  set : ∀ x y, x < 128 → y < 64 → P x y → pixelAt t.fb x y = c
  kept : ∀ x y, x < 128 → y < 64 → ¬ P x y → pixelAt t.fb x y = pixelAt s.fb x y
  bytes : ∀ a, (∀ x y, x < 128 → y < 64 → P x y → pixelIndex x y ≠ a) → t.fb.read a = s.fb.read a

/-! ### The invariant of a safe run -/

/-- A completion's fields agree with its code (R30, R137): TKIND names a failure exactly for TRANSPORT_FAIL; FPAGE and FCFG
are zero for every other code, and FPAGE is zero beside FCFG. -/
def Completion.Consistent (c : Completion) : Prop :=
  (c.code = .transportFail ↔ c.tkind ≠ .ok) ∧
  (c.code ≠ .transportFail → c.fpage = 0 ∧ c.fcfg = false) ∧
  (c.fcfg = true → c.fpage = 0)

/-- What the sequencer holds agrees with the state (R19, R61, R88): an accepted command is the latched one and legal, an
outstanding transaction is the one its place in the command calls for (a data burst carries the framebuffer as it stands),
and a completion about to be recorded is consistent. -/
def EngineConsistent (s : State) : Prop :=
  match s.engine with
  | .idle => True
  | .accepted i => i.wf s.cfg = true ∧ s.latch.op = i.opcode ∧ s.latch.color = i.color ∧ s.latch.font = i.font
  | .waiting (.config k) tx => ∃ b, s.cfg.initSeq[k]? = some b ∧ tx = .cmd b
  | .waiting (.page p k _) tx => tx = pageTx s.cfg s.fb p k
  | .answered _ _ => True
  | .finishing c => c.Consistent

/-- The invariant: the framebuffer is in canonical form inside its 1024 bytes, batch mode is off between atomic steps (R24,
R134), RESULT is consistent, and so is the sequencer. -/
structure State.Inv (s : State) : Prop where
  fbWf : s.fb.wf = true
  fbIn : s.fb.inFb = true
  batch : s.batch = false
  result : s.result.info.Consistent
  engine : EngineConsistent s

/-- From `s`, with nothing interleaved but what its inbox says, the run ends after n steps in `t`: the first state in which it has
ended (R168). -/
structure EndsAt (s : State) (n : Nat) (t : State) : Prop where
  reached : Sys2Proof.core.run n s = .next t
  ended : t.ended
  first : ∀ (m : Nat) (u : State), m < n → Sys2Proof.core.run m s = .next u → ¬ u.ended

/-- n steps of the running command, with no other agent's step in between (R56). -/
def advanceFor : Nat → State → State
  | 0, s => s
  | n + 1, s => advanceFor n (advance s)

/-- The parts of the state a running command reads or writes, apart from the sticky bits: two states that agree on them run the
command alike (R56). -/
structure SameCommand (s t : State) : Prop where
  cfg : t.cfg = s.cfg
  fb : t.fb = s.fb
  text : t.text = s.text
  latch : t.latch = s.latch
  curX : t.curX = s.curX
  curY : t.curY = s.curY
  initialized : t.initialized = s.initialized
  batch : t.batch = s.batch
  result : t.result = s.result
  engine : t.engine = s.engine
  log : t.log = s.log
  answers : t.answers = s.answers
  answerDraws : t.answerDraws = s.answerDraws

/-! ### Encoding -/

/-- A legal command word (R71), by its bits. -/
def legalWord (p : Params) (w : Word) : Prop :=
  w.toNat / 2 ^ 16 = 0 ∧ w.toNat / 2 ^ 9 % 8 = 0 ∧ 1 ≤ w.toNat % 256 ∧ w.toNat % 256 ≤ 15 ∧
    ¬ ((w.toNat % 256 = 0x0D ∨ w.toNat % 256 = 0x0E) ∧ p.nfonts ≤ w.toNat / 2 ^ 12 % 16)

/-! ### Geometry -/

/-- How far the minor coordinate of a Bresenham line has moved after k steps along the major one, for a major length M and a
minor length N: the integer at or above (k·N - ⌊M/2⌋) / M. -/
def minorOffset (M N k : Nat) : Nat := (k * N + (M - 1 - M / 2)) / M

/-- Position k steps from `a` towards `b`. -/
def towards (a b k : Nat) : Int := if a < b then (a : Int) + k else (a : Int) - k

/-- The row of the midpoint circle of radius r in column k of its octant (R117): it falls by one where
(k+1)² + y² - y ≥ r². -/
def midpointRow (r : Nat) : Nat → Nat
  | 0 => r
  | k + 1 => if (k + 1) * (k + 1) + midpointRow r k * midpointRow r k ≥ r * r + midpointRow r k then midpointRow r k - 1 else midpointRow r k

/-- Two exact coordinates that a 16-bit datapath carries as (x, y) (R96). -/
def carriedAs (x' y' : Int) (x y : Nat) : Prop := x' % 65536 = x ∧ y' % 65536 = y

/-! ### Text -/

/-- Glyph pixel (column j, row i) of a character is foreground (R46, R123): bit 15 - j of its row word, never from column 16
on. -/
def glyphPixel (font : Font) (ch : Byte) (i j : Nat) : Bool :=
  decide (j < 16) && (font.rows.getD ((ch.toNat - 32) * font.fh + i) 0).getLsbD (15 - j)

/-- The colour a glyph pixel takes: the foreground colour, or its negation (R12, R127). -/
def glyphColour (font : Font) (ch : Byte) (i j : Nat) (c : Bool) : Bool := if glyphPixel font ch i j then c else !c

/-- n characters of `text` from index `start` on are drawable glyph codes (R125). -/
def drawableRun (text : Vector Byte 256) (start n : Nat) : Prop :=
  ∀ k, k < n → ∃ h : start + k < 256, glyphCode (text[start + k]'h) = true

/-- The string that starts at `start` ends after exactly n characters: a 0x00 there, or the end of the buffer (R132). -/
def stringEnds (text : Vector Byte 256) (start n : Nat) : Prop :=
  start + n = 256 ∨ ∃ h : start + n < 256, text[start + n]'h = 0

end Sys2Proof.Machine
end

