-- ==== Sys2Proof/Certificates/Slice0/Obligations.lean ====
section
/-! DEFINITION. The statements for the provers. Each docstring names the rule it formalises. -/

open Sys2Proof Sys2Proof.Machine

/-! ### Reset -/

/-- R153: power-on, or the reset input, puts every piece of state at its reset value. TEXT is some draw of the free values
(log entry 5). -/
def Obligations.ResetValues : Prop :=
  ∀ s : State, (s = State.reset ∨ ∃ u rest, u.inbox = .reset :: rest ∧ step u = .next s) →
    (∀ a, s.fb.read a = 0) ∧ s.curX = 0 ∧ s.curY = 0 ∧ s.statusWord = 0 ∧ s.result.word = 0 ∧ (∀ n : Fin 6, s.arg[n] = 0) ∧
    (∃ n, ∀ i : Fin 256, s.text[i] = Config.resetText n i.val) ∧ s.engine = .idle ∧ idleRead s .id = 0x46424331

/-- R154: a reset discards the running command; log entries already made stay (log entry 14) and the outstanding transaction gets
none. That the environment's coming events stay is the model's choice (log entry 2). -/
def Obligations.ResetAbortsTheCommand : Prop :=
  ∀ (s : State) (rest : List Event), s.inbox = .reset :: rest → s.busy = true →
    ∃ t, step s = .next t ∧ t.busy = false ∧ t.log = s.log ∧ t.result.word = 0 ∧ (∀ a, t.fb.read a = 0) ∧
      t.curX = 0 ∧ t.curY = 0 ∧ t.statusWord = 0 ∧ t.cfg = s.cfg ∧ t.inbox = rest

/-! ### Encoding -/

/-- R79: the decoder, by the bits of the word. -/
def Obligations.DecoderFollowsItsRule : Prop :=
  ∀ (p : Params) (w : Word),
    (legalWord p w → ∃ i, decode p w = .ok i ∧ i.opcode.toNat = w.toNat % 256 ∧ i.color = w.getLsbD 8 ∧
      i.font.toNat = w.toNat / 2 ^ 12 % 16) ∧
    (¬ legalWord p w → ∃ e, decode p w = .error e ∧
      (w.toNat / 2 ^ 16 ≠ 0 ∨ w.toNat / 2 ^ 9 % 8 ≠ 0 → e = .reservedBits) ∧
      (w.toNat / 2 ^ 16 = 0 → w.toNat / 2 ^ 9 % 8 = 0 → ¬ (1 ≤ w.toNat % 256 ∧ w.toNat % 256 ≤ 15) → e = .reservedOpcode) ∧
      (w.toNat / 2 ^ 16 = 0 → w.toNat / 2 ^ 9 % 8 = 0 → 1 ≤ w.toNat % 256 → w.toNat % 256 ≤ 15 → e = .noSuchFont))

/-- Decode and encode agree: every legal command, with any COLOR and any FONT its legality admits. -/
def Obligations.DecodeOfEncode : Prop :=
  ∀ (p : Params) (i : Instr), i.wf p = true → decode p (encode i) = .ok i

/-- A word that decodes is the encoding of what it decodes to, so every legal word has exactly one meaning and no bit of it is
dropped (R74). -/
def Obligations.EncodeOfDecode : Prop :=
  ∀ (p : Params) (w : Word) (i : Instr), decode p w = .ok i → encode i = w ∧ i.wf p = true

/-- The rows of the opcode table do not overlap, and a word decodes to an instruction only if it matches that instruction's
row. -/
def Obligations.TableRowsAreDisjoint : Prop :=
  (∀ (w : Word) (i j : Instr), w &&& formatMask = i.tableMatch → w &&& formatMask = j.tableMatch → i.opcode = j.opcode) ∧
  (∀ (p : Params) (w : Word) (i : Instr), decode p w = .ok i → w &&& formatMask = i.tableMatch)

/-- Sample words written out from R64 and R65, and the illegal words of R80. -/
def Obligations.SampleWordsDecode : Prop :=
  ∀ p : Params,
    decode p 0x00000001 = .ok (.init false 0) ∧ decode p 0x0000F102 = .ok (.clear true 15) ∧
    decode p 0x00000105 = .ok (.setpixel true 0) ∧ decode p 0x00000106 = .ok (.line true 0) ∧
    decode p 0x0000010A = .ok (.ftri true 0) ∧ decode p 0x0000010D = .ok (.char true 0) ∧
    (1 < p.nfonts → decode p 0x0000100D = .ok (.char false 1)) ∧ decode p 0x0000000F = .ok (.gotoxy false 0) ∧
    decode p 0x0000020D = .error .reservedBits ∧ decode p 0x00000010 = .error .reservedOpcode ∧
    (p.nfonts ≤ 15 → decode p 0x0000F10E = .error .noSuchFont)

/-! ### Steps -/

/-- The host's next CMD write, while idle, runs the decoded command: the step is exec of it, at the state that has recorded the
access's response. A word put in by withFetchWord is that CMD write. The event that writes a command and waits for it is the model's
form of R76 (log entry 2). -/
def Obligations.StepRunsTheDecodedCommand : Prop :=
  (∀ (s : State) (w : Word) (i : Instr) (rest : List Event),
    s.inbox = .command w :: rest → s.busy = false → decode s.cfg w = .ok i →
      step s = exec i (State.respond (cmdWrite w) .ok 0 { s with inbox := rest })) ∧
  (∀ (s : State) (w : Nat) (i : Instr),
    w < 2 ^ 32 → s.busy = false → decode s.cfg (BitVec.ofNat 32 w) = .ok i →
      step (s.withFetchWord 32 w) = exec i (State.respond (cmdWrite (BitVec.ofNat 32 w)) .ok 0 s))

/-- R71: a CMD write while BUSY = 0. An illegal word records RESULT and ILL and changes nothing else; a legal one is accepted. -/
def Obligations.CmdWriteDecodesTheWord : Prop :=
  ∀ (s : State) (w : Word) (rest : List Event), s.inbox = .host (cmdWrite w) :: rest → s.busy = false →
    let s' := State.respond (cmdWrite w) .ok 0 { s with inbox := rest }
    (legalWord s.cfg w → ∃ i, i.opcode.toNat = w.toNat % 256 ∧ i.color = w.getLsbD 8 ∧ i.font.toNat = w.toNat / 2 ^ 12 % 16 ∧
      step s = .next (accept i s')) ∧
    (¬ legalWord s.cfg w → ∃ r : Result,
      r.word.toNat = 2 ^ 24 * (w.toNat % 256) + 3 ∧ step s = .next { s' with result := r, ill := true })

/-- R71 for the CMD write that waits for its command: an illegal word has the same effect there. -/
def Obligations.IllegalCommandOnlyFlagsIll : Prop :=
  ∀ (s : State) (w : Word) (rest : List Event), s.inbox = .command w :: rest → s.busy = false → ¬ legalWord s.cfg w →
    ∃ t, step s = .next t ∧ t.result.word.toNat = 2 ^ 24 * (w.toNat % 256) + 3 ∧ t.ill = true ∧ t.busy = false ∧
      t.log = s.log ∧ t.fb = s.fb ∧ t.curX = s.curX ∧ t.curY = s.curY ∧ t.initialized = s.initialized ∧ t.batch = s.batch ∧
      t.ovr = s.ovr ∧ t.terr = s.terr ∧ t.arg = s.arg ∧ t.text = s.text ∧ t.latch = s.latch ∧ t.cfg = s.cfg ∧ t.inbox = rest

/-- R19: acceptance latches the word's fields and the six operand registers and sets BUSY, leaves the framebuffer, the cursor,
INITIALIZED, BATCH, RESULT, the log, ARG, TEXT and the parameters as they are, and from then on the command reads
only the latched copy: what ARG holds makes no difference to it. -/
def Obligations.AcceptanceLatchesOperands : Prop :=
  ∀ (s : State) (w : Word) (rest : List Event), s.inbox = .host (cmdWrite w) :: rest → s.busy = false → legalWord s.cfg w →
    ∃ t, step s = .next t ∧ t.latch.op.toNat = w.toNat % 256 ∧ t.latch.color = w.getLsbD 8 ∧
      t.latch.font.toNat = w.toNat / 2 ^ 12 % 16 ∧ (∀ n : Fin 6, t.latch.l[n] = s.arg[n]) ∧ t.busy = true ∧
      t.fb = s.fb ∧ t.curX = s.curX ∧ t.curY = s.curY ∧ t.initialized = s.initialized ∧ t.result = s.result ∧ t.log = s.log ∧
      t.arg = s.arg ∧ t.text = s.text ∧ t.batch = s.batch ∧ t.cfg = s.cfg ∧
      (∀ (n : Nat) (a : Vector Half 6), SameCommand (advanceFor n t) (advanceFor n { t with arg := a }))

/-- The interleaved machine, with nothing interleaved (log entries 2 and 8), reaches exactly exec's result: from the host's CMD write, acceptance,
segments, answers and finish are steps of their own (R56), BUSY is 1 before the last of them, and the last gives exec's state. -/
def Obligations.AtomicStepsReachExec : Prop :=
  ∀ (s : State) (w : Word) (i : Instr), s.inbox = [.host (cmdWrite w)] → s.busy = false → decode s.cfg w = .ok i →
    ∃ n, Sys2Proof.core.run n s = exec i (State.respond (cmdWrite w) .ok 0 { s with inbox := [] }) ∧
      ∀ m, 0 < m → m < n → ∃ u : State, Sys2Proof.core.run m s = .next u ∧ u.busy = true

/-- No step stops: the block has no trap and no failure stops it (R141). -/
def Obligations.NoStepStops : Prop := ∀ s : State, ∃ t, step s = .next t

/-- R167: with no event left (the transport then always answers: log entry 2), a running command finishes within the bound that INIT, the longest, sets. -/
def Obligations.RunningCommandFinishes : Prop :=
  ∀ s : State, s.inbox = [] →
    ∃ n t, n ≤ 2 * (s.cfg.initSeq.length + 32) + 2 ∧ Sys2Proof.core.run n s = .next t ∧ t.busy = false

/-- R168, R155: once a run has ended it stays ended, and its final state stays too, whatever turns the engine and the transport
still take; only the platform's reset input starts over. With no event left the model's step does nothing (log entry 2). -/
def Obligations.EndedRunStays : Prop :=
  ∀ s : State, s.ended →
    (s.inbox = [] → step s = .next s) ∧
    (∀ e rest, s.inbox = e :: rest → e ≠ .reset → step s = .next { s with inbox := rest }) ∧
    (∀ rest, s.inbox = .reset :: rest → step s = .next (resetInput { s with inbox := rest })) ∧
    (∀ t, step s = .next t → t.ended ∧ ((∀ rest, s.inbox ≠ .reset :: rest) → t.final = s.final))

/-- R168, R75: a program whose last access is WAITIDLE reaches the end of its run at the STATUS read that returns BUSY = 0, within
the bound that INIT sets, whether or not a command is running; what other agents have still to do does not delay it. That the running
command goes on between two polls is the model's form of WAITIDLE (log entry 11). -/
def Obligations.WaitIdleReachesTheEndOfTheRun : Prop :=
  ∀ (s : State) (rest : List Event), s.inbox = .waitIdle :: rest → (∀ e ∈ rest, e.isAccess = false) →
    ∃ n t entries, n ≤ 2 * (s.cfg.initSeq.length + 32) + 3 ∧ EndsAt s n t ∧ t.inbox = rest ∧
      t.hostLog = entries ++ [{ access := statusRead, resp := .ok, data := t.statusWord }] ∧ t.statusWord.getLsbD 0 = false

/-! ### Invariants and whole-machine rules -/

/-- The invariant holds at reset. -/
def Obligations.InvariantAtReset : Prop := State.reset.Inv

/-- Every step keeps the invariant: the framebuffer stays canonical and inside its 1024 bytes, batch mode is off between steps
(R24, R134), an outstanding data burst carries the framebuffer as it stands (R61), and RESULT's fields agree with its code. -/
def Obligations.InvariantKeptByStep : Prop := ∀ s t : State, s.Inv → step s = .next t → t.Inv

/-- R56: a host access made while a command runs, of any kind, does not change what the command computes. -/
def Obligations.HostAccessLeavesRunningCommand : Prop :=
  ∀ (s : State) (a : Access) (n : Nat), s.busy = true → SameCommand (advanceFor n s) (advanceFor n (hostAccess a s))

/-- R139, R140: what a command draws and where it leaves the cursor do not depend on the transport's answers, the environment's or
free ones (log entry 3), for every command but INIT. -/
def Obligations.DrawingIgnoresTheTransport : Prop :=
  ∀ (i : Instr) (s : State) (answers : List Answer) (draws : Nat), i.opcode ≠ 0x01 →
    ∃ t u, exec i s = .next t ∧ exec i { s with answers := answers, answerDraws := draws } = .next u ∧
      u.fb = t.fb ∧ u.curX = t.curX ∧ u.curY = t.curY ∧ u.initialized = t.initialized

/-- R60: the transport log only grows, whatever the step, a reset input included (log entry 14). -/
def Obligations.LogOnlyGrows : Prop := ∀ s t : State, step s = .next t → ∃ entries, t.log = s.log ++ entries

/-- R35: no step changes the parameters. -/
def Obligations.ParametersAreConstant : Prop := ∀ s t : State, step s = .next t → t.cfg = s.cfg

/-- R23: no command but INIT writes INITIALIZED, and none is refused while it is 0: every command answers a next state. -/
def Obligations.OnlyInitWritesInitialized : Prop :=
  ∀ (i : Instr) (s : State), ∃ t, exec i s = .next t ∧ (i.opcode ≠ 0x01 → t.initialized = s.initialized)

/-- R15, R34: ARG changes only by a host write of an operand register, TEXT only by a host write of a TEXT word while idle; a
reset sets both. -/
def Obligations.OnlyHostWritesArgAndText : Prop :=
  ∀ s t : State, step s = .next t →
    (t.arg ≠ s.arg → (∃ addr v rest, s.inbox = .host (.write 4 addr v) :: rest ∧ 0x010 ≤ addr.toNat ∧ addr.toNat < 0x028) ∨
      ∃ rest, s.inbox = .reset :: rest) ∧
    (t.text ≠ s.text → (s.busy = false ∧ ∃ addr v rest, s.inbox = .host (.write 4 addr v) :: rest ∧ 0x100 ≤ addr.toNat ∧
      addr.toNat < 0x200) ∨ ∃ rest, s.inbox = .reset :: rest)

/-- R33, R51: no host access changes the framebuffer, the cursor or the log; only the engine and a reset do. -/
def Obligations.HostAccessNeverDraws : Prop :=
  ∀ (s : State) (a : Access), (hostAccess a s).fb = s.fb ∧ (hostAccess a s).curX = s.curX ∧ (hostAccess a s).curY = s.curY ∧
    (hostAccess a s).initialized = s.initialized ∧ (hostAccess a s).batch = s.batch ∧ (hostAccess a s).log = s.log

/-- R26, R27, R28: a sticky bit once set stays 1 over every step but a host write to STATUS and a reset. -/
def Obligations.StickyBitsStay : Prop :=
  ∀ s t : State, step s = .next t → (∀ v rest, s.inbox ≠ .host (.write 4 0x008 v) :: rest) →
    (∀ rest, s.inbox ≠ .reset :: rest) →
    (s.ovr = true → t.ovr = true) ∧ (s.ill = true → t.ill = true) ∧ (s.terr = true → t.terr = true)

/-! ### Lifecycle commands -/

/-- R84, R94: FLUSH sends the 32 transactions of the whole framebuffer up to the first failure, and changes neither it nor the
cursor nor INITIALIZED. -/
def Obligations.FlushSendsEveryPage : Prop :=
  ∀ (s : State) (c : Bool) (f : BitVec 4), ∃ t, exec (.flush c f) s = .next t ∧ Flushed 0x04 0 s t ∧ SameFb s t ∧
    KeepsRegisters s t ∧ KeepsCursor s t ∧ Latched (.flush c f) s t ∧
    (firstFailure s 0 32 = none → t.log.length = s.log.length + 32)

/-- R88: INIT. A failed configuration byte ends it with the framebuffer and the cursor as they were; otherwise both are cleared
and flushed, and only a flush without failure sets INITIALIZED. -/
def Obligations.InitConfiguresAndClears : Prop :=
  ∀ (s : State) (c : Bool) (f : BitVec 4), ∃ t, exec (.init c f) s = .next t ∧ KeepsRegisters s t ∧ Latched (.init c f) s t ∧
    t.busy = false ∧ t.batch = false ∧
    match firstFailure s 0 s.cfg.initSeq.length with
    | some j =>
      SameFb s t ∧ t.curX = s.curX ∧ t.curY = s.curY ∧ t.initialized = false ∧ t.terr = true ∧
      t.result = { op := 0x01, info := { code := .transportFail, tkind := s.answerAt j, fcfg := true } } ∧
      t.log = s.log ++ transcript s 0 (s.cfg.initSeq.map Tx.cmd)
    | none =>
      (∀ a, a < 1024 → t.fb.read a = 0) ∧ t.curX = 0 ∧ t.curY = 0 ∧
      t.log = s.log ++ transcript s 0 (s.cfg.initSeq.map Tx.cmd ++ flushTxs s.cfg t.fb) ∧
      match firstFailure s s.cfg.initSeq.length 32 with
      | some j =>
        t.initialized = false ∧ t.terr = true ∧
        t.result = Result.mk 0x01
          { code := .transportFail, tkind := s.answerAt j, fpage := BitVec.ofNat 3 ((j - s.cfg.initSeq.length) / 4) }
      | none => t.initialized = true ∧ t.terr = s.terr ∧ t.result = { op := 0x01, info := { code := .ok } }

/-- R90: CLEAR. -/
def Obligations.ClearBlanksAndFlushes : Prop :=
  ∀ (s : State) (c : Bool) (f : BitVec 4), ∃ t, exec (.clear c f) s = .next t ∧ (∀ a, a < 1024 → t.fb.read a = 0x00) ∧
    Flushed 0x02 0 s t ∧ KeepsRegisters s t ∧ KeepsCursor s t ∧ Latched (.clear c f) s t

/-- R92: ALLON. -/
def Obligations.AllonFillsAndFlushes : Prop :=
  ∀ (s : State) (c : Bool) (f : BitVec 4), ∃ t, exec (.allon c f) s = .next t ∧ (∀ a, a < 1024 → t.fb.read a = 0xFF) ∧
    Flushed 0x03 0 s t ∧ KeepsRegisters s t ∧ KeepsCursor s t ∧ Latched (.allon c f) s t

/-- R91: CLEAR then ALLON ends all ones, ALLON then CLEAR all zero, whatever the transport answers. -/
def Obligations.ClearAndAllonAreTerminal : Prop :=
  ∀ (s : State) (c c' : Bool) (f f' : BitVec 4),
    (∃ t u, exec (.clear c f) s = .next t ∧ exec (.allon c' f') t = .next u ∧ ∀ a, a < 1024 → u.fb.read a = 0xFF) ∧
    (∃ t u, exec (.allon c f) s = .next t ∧ exec (.clear c' f') t = .next u ∧ ∀ a, a < 1024 → u.fb.read a = 0x00)

/-! ### Pixel and line -/

/-- R97, R98: SETPIXEL changes exactly the pixel at its operands, or nothing outside the panel; it does not flush. -/
def Obligations.SetpixelDrawsOnePixel : Prop :=
  ∀ (s : State) (c : Bool) (f : BitVec 4), ∃ t, exec (.setpixel c f) s = .next t ∧
    Drew (fun x y => x = (s.arg[0]).toNat ∧ y = (s.arg[1]).toNat) c s t ∧ Unflushed 0x05 { code := .ok } s t ∧
    KeepsRegisters s t ∧ KeepsCursor s t ∧ Latched (.setpixel c f) s t

/-- R103, R104: a pixel that starts BLACK, set WHITE and then BLACK, leaves every byte as it was; outside the panel SETPIXEL
leaves every byte as it was. -/
def Obligations.SetpixelRoundTrip : Prop :=
  ∀ (s : State) (f f' : BitVec 4),
    ((s.arg[0]).toNat < 128 → (s.arg[1]).toNat < 64 → pixelAt s.fb (s.arg[0]).toNat (s.arg[1]).toNat = false →
      ∃ t u, exec (.setpixel true f) s = .next t ∧ exec (.setpixel false f') t = .next u ∧ SameFb s u) ∧
    (∀ c, (128 ≤ (s.arg[0]).toNat ∨ 64 ≤ (s.arg[1]).toNat) → ∃ t, exec (.setpixel c f) s = .next t ∧ SameFb s t)

/-- R101: LINE draws the positions of Line between its operands, and flushes unless batch mode is on. -/
def Obligations.LineDrawsAndFlushes : Prop :=
  ∀ (s : State) (c : Bool) (f : BitVec 4), ∃ t, exec (.line c f) s = .next t ∧
    Drew (fun x y => at16 x y ∈ linePoints s.arg[0] s.arg[1] s.arg[2] s.arg[3]) c s t ∧
    (s.batch = false → Flushed 0x06 0 s t) ∧ (s.batch = true → Unflushed 0x06 { code := .ok } s t) ∧
    KeepsRegisters s t ∧ KeepsCursor s t ∧ Latched (.line c f) s t

/-- Line in closed form (R99, R100): with both end points clamped, step k along the longer axis moves the other coordinate by the
integer at or above (k·N - ⌊M/2⌋) / M, and k runs from one end point to the other. So the loop ends, plots both end points and
plots max(dx, dy) + 1 pixels. -/
def Obligations.LineClosedForm : Prop :=
  ∀ (x0 y0 x1 y1 : Half) (x y : Nat), x < 128 → y < 64 →
    let X0 := min x0.toNat 127; let X1 := min x1.toNat 127; let Y0 := min y0.toNat 63; let Y1 := min y1.toNat 63
    let dx := max X0 X1 - min X0 X1; let dy := max Y0 Y1 - min Y0 Y1
    (at16 x y ∈ linePoints x0 y0 x1 y1 ↔
      ∃ k, k ≤ max dx dy ∧
        if dx > dy then (x : Int) = towards X0 X1 k ∧ (y : Int) = towards Y0 Y1 (minorOffset dx dy k)
        else (y : Int) = towards Y0 Y1 k ∧ (x : Int) = towards X0 X1 (minorOffset dy dx k)) ∧
    (linePoints x0 y0 x1 y1).length = max dx dy + 1 ∧ ∀ p ∈ linePoints x0 y0 x1 y1, onPanel p

/-- R105: the vertical and the horizontal special case. -/
def Obligations.LineSpecialCases : Prop :=
  ∀ (s : State) (f : BitVec 4), s.arg[0] = 0 → s.arg[1] = 0 →
    (s.arg[2] = 0 → s.arg[3] = 10 → ∃ t, exec (.line true f) s = .next t ∧ Drew (fun x y => x = 0 ∧ y ≤ 10) true s t ∧
      (SameFb State.reset s → t.fb.read 0 = 0xFF ∧ t.fb.read 128 = 0x07)) ∧
    (s.arg[2] = 10 → s.arg[3] = 0 → ∃ t, exec (.line true f) s = .next t ∧ Drew (fun x y => x ≤ 10 ∧ y = 0) true s t ∧
      (SameFb State.reset s → ∀ a, a ≤ 10 → t.fb.read a = 0x01))

/-! ### Shapes -/

/-- R108, R109: RECT draws the outline of columns x to min(x + w, 127) and rows y to min(y + h, 63), and nothing if its origin
is outside the panel. -/
def Obligations.RectDrawsItsOutline : Prop :=
  ∀ (s : State) (c : Bool) (f : BitVec 4),
    let X := (s.arg[0]).toNat; let Y := (s.arg[1]).toNat
    let xe := min (X + (s.arg[2]).toNat) 127; let ye := min (Y + (s.arg[3]).toNat) 63
    ∃ t, exec (.rect c f) s = .next t ∧
      Drew (fun x y => X < 128 ∧ Y < 64 ∧ X ≤ x ∧ x ≤ xe ∧ Y ≤ y ∧ y ≤ ye ∧ (x = X ∨ x = xe ∨ y = Y ∨ y = ye)) c s t ∧
      Flushed 0x07 0 s t ∧ KeepsRegisters s t ∧ KeepsCursor s t ∧ Latched (.rect c f) s t

/-- R110, R109: FRECT fills the same box. -/
def Obligations.FrectFillsItsBox : Prop :=
  ∀ (s : State) (c : Bool) (f : BitVec 4),
    let X := (s.arg[0]).toNat; let Y := (s.arg[1]).toNat
    let xe := min (X + (s.arg[2]).toNat) 127; let ye := min (Y + (s.arg[3]).toNat) 63
    ∃ t, exec (.frect c f) s = .next t ∧
      Drew (fun x y => X < 128 ∧ Y < 64 ∧ X ≤ x ∧ x ≤ xe ∧ Y ≤ y ∧ y ≤ ye) c s t ∧
      Flushed 0x08 0 s t ∧ KeepsRegisters s t ∧ KeepsCursor s t ∧ Latched (.frect c f) s t

/-- R112: TRI draws the lines v1 to v2, v2 to v3 and v3 to v1. -/
def Obligations.TriDrawsThreeLines : Prop :=
  ∀ (s : State) (c : Bool) (f : BitVec 4), ∃ t, exec (.tri c f) s = .next t ∧
    Drew (fun x y => at16 x y ∈ linePoints s.arg[0] s.arg[1] s.arg[2] s.arg[3] ∨
      at16 x y ∈ linePoints s.arg[2] s.arg[3] s.arg[4] s.arg[5] ∨
      at16 x y ∈ linePoints s.arg[4] s.arg[5] s.arg[0] s.arg[1]) c s t ∧
    Flushed 0x09 0 s t ∧ KeepsRegisters s t ∧ KeepsCursor s t ∧ Latched (.tri c f) s t

/-- FTRI in closed form (R114, R115): for k from 0 to the longer length M between v1 and v2, a line to v3 from the point k steps
along the longer axis and ⌊(⌊M/2⌋ + k·N) / M⌋ along the other. -/
def Obligations.FtriSweepsLinesToV3 : Prop :=
  ∀ (s : State) (c : Bool) (f : BitVec 4),
    let x1 := (s.arg[0]).toNat; let y1 := (s.arg[1]).toNat; let x2 := (s.arg[2]).toNat; let y2 := (s.arg[3]).toNat
    let dx := max x1 x2 - min x1 x2; let dy := max y1 y2 - min y1 y2
    ∃ t, exec (.ftri c f) s = .next t ∧
      Drew (fun x y => ∃ k, k ≤ max dx dy ∧
        if dx ≥ dy then
          at16 x y ∈ linePoints (BitVec.ofInt 16 (towards x1 x2 k)) (BitVec.ofInt 16 (towards y1 y2 ((dx / 2 + k * dy) / dx)))
            s.arg[4] s.arg[5]
        else
          at16 x y ∈ linePoints (BitVec.ofInt 16 (towards x1 x2 ((dy / 2 + k * dx) / dy))) (BitVec.ofInt 16 (towards y1 y2 k))
            s.arg[4] s.arg[5]) c s t ∧
      Flushed 0x0A 0 s t ∧ KeepsRegisters s t ∧ KeepsCursor s t ∧ Latched (.ftri c f) s t

/-- The midpoint iteration (R117): the visited positions are the columns 1, 2, … of the octant with their rows, as long as the
column before lies left of its row. -/
def Obligations.CircleStepsAreMidpoints : Prop :=
  ∀ (r : Half) (x y : Int), (x, y) ∈ circleSteps r ↔
    ∃ k : Nat, x = k + 1 ∧ y = midpointRow r.toNat (k + 1) ∧ ∀ j, j ≤ k → j < midpointRow r.toNat j

/-- R118, R119: CIRCLE plots the four axis points and the eight reflections of every visited position, coordinates mod 2^16. -/
def Obligations.CirclePlotsItsReflections : Prop :=
  ∀ (s : State) (c : Bool) (f : BitVec 4),
    let x0 : Int := (s.arg[0]).toNat; let y0 : Int := (s.arg[1]).toNat; let r : Int := (s.arg[2]).toNat
    ∃ t, exec (.circle c f) s = .next t ∧
      Drew (fun x y =>
        carriedAs x0 (y0 + r) x y ∨ carriedAs x0 (y0 - r) x y ∨ carriedAs (x0 + r) y0 x y ∨ carriedAs (x0 - r) y0 x y ∨
        ∃ v ∈ circleSteps s.arg[2],
          carriedAs (x0 + v.1) (y0 + v.2) x y ∨ carriedAs (x0 - v.1) (y0 + v.2) x y ∨
          carriedAs (x0 + v.1) (y0 - v.2) x y ∨ carriedAs (x0 - v.1) (y0 - v.2) x y ∨
          carriedAs (x0 + v.2) (y0 + v.1) x y ∨ carriedAs (x0 - v.2) (y0 + v.1) x y ∨
          carriedAs (x0 + v.2) (y0 - v.1) x y ∨ carriedAs (x0 - v.2) (y0 - v.1) x y) c s t ∧
      Flushed 0x0B 0 s t ∧ KeepsRegisters s t ∧ KeepsCursor s t ∧ Latched (.circle c f) s t

/-- R119: a circle inside the panel, drawn WHITE on a blank framebuffer, is its own mirror image about column x0. -/
def Obligations.CircleInsideIsSymmetric : Prop :=
  ∀ (s : State) (f : BitVec 4),
    let x0 := (s.arg[0]).toNat; let y0 := (s.arg[1]).toNat; let r := (s.arg[2]).toNat
    (∀ a, s.fb.read a = 0) → r ≤ x0 → x0 + r ≤ 127 → r ≤ y0 → y0 + r ≤ 63 →
    ∃ t, exec (.circle true f) s = .next t ∧
      ∀ x y, x < 128 → y < 64 → pixelAt t.fb x y = true → x ≤ 2 * x0 ∧ 2 * x0 - x < 128 ∧ pixelAt t.fb (2 * x0 - x) y = true

/-- R120: FCIRCLE plots the four axis points, the centre row, and four chords per visited position, end points mod 2^16. -/
def Obligations.FcircleDrawsItsChords : Prop :=
  ∀ (s : State) (c : Bool) (f : BitVec 4),
    let x0 : Int := (s.arg[0]).toNat; let y0 : Int := (s.arg[1]).toNat; let r : Int := (s.arg[2]).toNat
    let line (a b a' b' : Int) (x y : Nat) :=
      at16 x y ∈ linePoints (BitVec.ofInt 16 a) (BitVec.ofInt 16 b) (BitVec.ofInt 16 a') (BitVec.ofInt 16 b')
    ∃ t, exec (.fcircle c f) s = .next t ∧
      Drew (fun x y =>
        carriedAs x0 (y0 + r) x y ∨ carriedAs x0 (y0 - r) x y ∨ carriedAs (x0 + r) y0 x y ∨ carriedAs (x0 - r) y0 x y ∨
        line (x0 - r) y0 (x0 + r) y0 x y ∨
        ∃ v ∈ circleSteps s.arg[2],
          line (x0 - v.1) (y0 + v.2) (x0 + v.1) (y0 + v.2) x y ∨ line (x0 + v.1) (y0 - v.2) (x0 - v.1) (y0 - v.2) x y ∨
          line (x0 + v.2) (y0 + v.1) (x0 - v.2) (y0 + v.1) x y ∨ line (x0 + v.2) (y0 - v.1) (x0 - v.2) (y0 - v.1) x y) c s t ∧
      Flushed 0x0C 0 s t ∧ KeepsRegisters s t ∧ KeepsCursor s t ∧ Latched (.fcircle c f) s t

/-! ### Text -/

/-- R124: GOTOXY stores any 16-bit cursor and draws nothing. -/
def Obligations.GotoxyMovesTheCursor : Prop :=
  ∀ (s : State) (c : Bool) (f : BitVec 4), ∃ t, exec (.gotoxy c f) s = .next t ∧ t.curX = s.arg[0] ∧ t.curY = s.arg[1] ∧
    t.initialized = s.initialized ∧ SameFb s t ∧ Unflushed 0x0F { code := .ok } s t ∧ KeepsRegisters s t ∧
    Latched (.gotoxy c f) s t

/-- R127, R128: CHAR of a drawable code whose box fits at the checked cursor draws the opaque glyph at its place, advances the
cursor and flushes (unless batch mode is on). -/
def Obligations.CharDrawsItsGlyph : Prop :=
  ∀ (s : State) (c : Bool) (f : BitVec 4),
    let ch : Byte := BitVec.ofNat 8 (s.arg[2]).toNat
    let font := fontOf s.cfg f
    let X := if s.batch then s.curX.toNat else (s.arg[0]).toNat
    let Y := if s.batch then s.curY.toNat else (s.arg[1]).toNat
    32 ≤ ch.toNat → ch.toNat ≤ 126 →
    (s.cfg.charCheck = .beforeReposition → s.curX.toNat + font.fw ≤ 128 ∧ s.curY.toNat + font.fh ≤ 64) →
    (s.cfg.charCheck = .afterReposition → X + font.fw ≤ 128 ∧ Y + font.fh ≤ 64) →
    ∃ t, exec (.char c f) s = .next t ∧
      (∀ i j, i < font.fh → j < font.fw → (X + j) % 65536 < 128 → (Y + i) % 65536 < 64 →
        pixelAt t.fb ((X + j) % 65536) ((Y + i) % 65536) = glyphColour font ch i j c) ∧
      (∀ x y, x < 128 → y < 64 → (∀ i j, i < font.fh → j < font.fw → ¬ (x = (X + j) % 65536 ∧ y = (Y + i) % 65536)) →
        pixelAt t.fb x y = pixelAt s.fb x y) ∧
      (∀ a, (∀ i j, i < font.fh → j < font.fw → (X + j) % 65536 < 128 → (Y + i) % 65536 < 64 →
        pixelIndex ((X + j) % 65536) ((Y + i) % 65536) ≠ a) → t.fb.read a = s.fb.read a) ∧
      t.curX.toNat = (X + font.fw) % 65536 ∧ t.curY.toNat = Y ∧ t.initialized = s.initialized ∧
      (s.batch = false → Flushed 0x0D ch s t) ∧ (s.batch = true → Unflushed 0x0D { code := .ok, char := ch } s t) ∧
      KeepsRegisters s t ∧ Latched (.char c f) s t

/-- R125, R126, R128: CHAR of a code outside 32..126, or whose box does not fit at the checked cursor, draws nothing, does not
flush, and reports the sentinel 0x00; BAD_GLYPH comes before GLYPH_REJECTED. Only under AFTER_REPOSITION has a rejected glyph moved
the cursor. -/
def Obligations.CharRejectsItsGlyph : Prop :=
  ∀ (s : State) (c : Bool) (f : BitVec 4),
    let ch : Byte := BitVec.ofNat 8 (s.arg[2]).toNat
    let font := fontOf s.cfg f
    let X := if s.batch then s.curX else s.arg[0]
    let Y := if s.batch then s.curY else s.arg[1]
    (¬ (32 ≤ ch.toNat ∧ ch.toNat ≤ 126) → ∃ t, exec (.char c f) s = .next t ∧ SameFb s t ∧ KeepsCursor s t ∧
      Unflushed 0x0D { code := .badGlyph } s t ∧ KeepsRegisters s t ∧ Latched (.char c f) s t) ∧
    (32 ≤ ch.toNat → ch.toNat ≤ 126 → s.cfg.charCheck = .beforeReposition →
      ¬ (s.curX.toNat + font.fw ≤ 128 ∧ s.curY.toNat + font.fh ≤ 64) → ∃ t, exec (.char c f) s = .next t ∧ SameFb s t ∧
      KeepsCursor s t ∧ Unflushed 0x0D { code := .glyphRejected } s t ∧ KeepsRegisters s t ∧ Latched (.char c f) s t) ∧
    (32 ≤ ch.toNat → ch.toNat ≤ 126 → s.cfg.charCheck = .afterReposition →
      ¬ (X.toNat + font.fw ≤ 128 ∧ Y.toNat + font.fh ≤ 64) → ∃ t, exec (.char c f) s = .next t ∧ SameFb s t ∧
      t.curX = X ∧ t.curY = Y ∧ t.initialized = s.initialized ∧ Unflushed 0x0D { code := .glyphRejected } s t ∧
      KeepsRegisters s t ∧ Latched (.char c f) s t)

/-- R130, R132: STR of n drawable characters that all fit draws their glyphs side by side, leaves the cursor after the last, and
flushes once; every other pixel and byte is as before. -/
def Obligations.StrDrawsTheWholeString : Prop :=
  ∀ (s : State) (c : Bool) (f : BitVec 4) (n : Nat),
    let start := (s.arg[2]).toNat % 256
    let font := fontOf s.cfg f
    let X := (s.arg[0]).toNat; let Y := (s.arg[1]).toNat
    drawableRun s.text start n → stringEnds s.text start n → (n = 0 ∨ X + n * font.fw ≤ 128 ∧ Y + font.fh ≤ 64) →
    ∃ t, exec (.str c f) s = .next t ∧
      (∀ k i j, k < n → i < font.fh → j < font.fw → ∃ h : start + k < 256,
        pixelAt t.fb (X + k * font.fw + j) (Y + i) = glyphColour font (s.text[start + k]'h) i j c) ∧
      (∀ x y, x < 128 → y < 64 → ¬ (X ≤ x ∧ x < X + n * font.fw ∧ Y ≤ y ∧ y < Y + font.fh) →
        pixelAt t.fb x y = pixelAt s.fb x y) ∧
      (∀ a, (∀ x y, X ≤ x → x < X + n * font.fw → Y ≤ y → y < Y + font.fh → pixelIndex x y ≠ a) →
        t.fb.read a = s.fb.read a) ∧
      t.curX.toNat = X + n * font.fw ∧ t.curY.toNat = Y ∧ t.initialized = s.initialized ∧ Flushed 0x0E 0 s t ∧
      KeepsRegisters s t ∧ Latched (.str c f) s t

/-- R130, R131: STR stops at the first character that fails: it reports that character and its code, keeps the glyphs before it
and the cursor after them, turns batch mode off and does not flush. -/
def Obligations.StrStopsAtTheFirstFailure : Prop :=
  ∀ (s : State) (c : Bool) (f : BitVec 4) (n : Nat),
    let start := (s.arg[2]).toNat % 256
    let font := fontOf s.cfg f
    let X := (s.arg[0]).toNat; let Y := (s.arg[1]).toNat
    drawableRun s.text start n → (n = 0 ∨ X + n * font.fw ≤ 128 ∧ Y + font.fh ≤ 64) →
    ∀ h : start + n < 256, s.text[start + n]'h ≠ 0 →
      (glyphCode (s.text[start + n]'h) = false ∨ ¬ (X + (n + 1) * font.fw ≤ 128 ∧ Y + font.fh ≤ 64)) →
    ∃ t, exec (.str c f) s = .next t ∧
      (∀ k i j, k < n → i < font.fh → j < font.fw → ∃ hk : start + k < 256,
        pixelAt t.fb (X + k * font.fw + j) (Y + i) = glyphColour font (s.text[start + k]'hk) i j c) ∧
      (∀ x y, x < 128 → y < 64 → ¬ (X ≤ x ∧ x < X + n * font.fw ∧ Y ≤ y ∧ y < Y + font.fh) →
        pixelAt t.fb x y = pixelAt s.fb x y) ∧
      (∀ a, (∀ x y, X ≤ x → x < X + n * font.fw → Y ≤ y → y < Y + font.fh → pixelIndex x y ≠ a) →
        t.fb.read a = s.fb.read a) ∧
      t.curX.toNat = X + n * font.fw ∧ t.curY.toNat = Y ∧ t.initialized = s.initialized ∧
      Unflushed 0x0E { code := if glyphCode (s.text[start + n]'h) then .glyphRejected else .badGlyph, char := s.text[start + n]'h } s t ∧
      KeepsRegisters s t ∧ Latched (.str c f) s t

/-! ### The host port -/

/-- R22, R21: the bits of STATUS and CURSOR. -/
def Obligations.StatusAndCursorBits : Prop :=
  ∀ s : State, s.statusWord.toNat =
      s.busy.toNat + 2 * s.initialized.toNat + 8 * s.batch.toNat + 256 * s.ovr.toNat + 512 * s.ill.toNat + 1024 * s.terr.toNat ∧
    s.cursorWord.toNat = s.curX.toNat + 65536 * s.curY.toNat

/-- R30, R31: the fields of RESULT. -/
def Obligations.ResultBits : Prop :=
  ∀ r : Result, r.word.toNat =
    (match r.info.code with | .ok => 0 | .transportFail => 1 | .glyphRejected => 2 | .illegalCmd => 3 | .badGlyph => 4) +
    16 * (match r.info.tkind with | .ok => 0 | .nack => 1 | .timeout => 2 | .busBusy => 3) +
    256 * r.info.char.toNat + 65536 * r.info.fpage.toNat + 2 ^ 20 * r.info.fcfg.toNat + 2 ^ 24 * r.op.toNat

/-- R47, R39, R45, R51, R53: a read of each register while idle answers OK with the register's value, and changes nothing but the
host's own record. -/
def Obligations.IdleReadReturnsTheRegister : Prop :=
  ∀ (s : State) (addr : Offset) (rest : List Event), s.inbox = .host (.read 4 addr) :: rest → s.busy = false →
    addr.toNat % 4 = 0 →
    (addr.toNat < 0x02C ∨ (0x100 ≤ addr.toNat ∧ addr.toNat < 0x200) ∨ (0x400 ≤ addr.toNat ∧ addr.toNat < 0x800)) →
    ∃ d : Word, step s = .next (State.respond (.read 4 addr) .ok d { s with inbox := rest }) ∧
      (addr.toNat = 0x000 → d = 0x46424331) ∧ (addr.toNat = 0x004 → d = 0) ∧ (addr.toNat = 0x008 → d = s.statusWord) ∧
      (addr.toNat = 0x00C → d = s.result.word) ∧
      (∀ n : Fin 6, addr.toNat = 0x010 + 4 * n.val → d.toNat = (s.arg[n]).toNat) ∧
      (addr.toNat = 0x028 → d = s.cursorWord) ∧
      (∀ (i : Nat) (h : i < 256), addr.toNat = 0x100 + 4 * (i / 4) → d.toNat / 256 ^ (i % 4) % 256 = (s.text[i]'h).toNat) ∧
      (∀ i, i < 1024 → addr.toNat = 0x400 + 4 * (i / 4) → d.toNat / 256 ^ (i % 4) % 256 = (s.fb.read i).toNat)

/-- R160: a read while BUSY = 1. RESULT, CURSOR and FBWIN return any value, and so do STATUS bits 1 and 3; STATUS reads BUSY = 1 and
its sticky bits as they stand, and ID, CMD, ARG and TEXT return the current value. Only the model's draw counter and its record of
the host's accesses change (log entries 2 and 4). -/
def Obligations.BusyReadReturnsCurrentOrAnyValue : Prop :=
  ∀ (s : State) (addr : Offset) (rest : List Event), s.inbox = .host (.read 4 addr) :: rest → s.busy = true →
    addr.toNat % 4 = 0 →
    (addr.toNat < 0x02C ∨ (0x100 ≤ addr.toNat ∧ addr.toNat < 0x200) ∨ (0x400 ≤ addr.toNat ∧ addr.toNat < 0x800)) →
    ∃ d : Word, step s = .next (State.respond (.read 4 addr) .ok d { s with inbox := rest, readDraws := s.readDraws + 1 }) ∧
      (addr.toNat = 0x000 → d = 0x46424331) ∧ (addr.toNat = 0x004 → d = 0) ∧
      (addr.toNat = 0x008 → ∃ v w : Bool, d.toNat =
        1 + 2 * v.toNat + 8 * w.toNat + 256 * s.ovr.toNat + 512 * s.ill.toNat + 1024 * s.terr.toNat) ∧
      (∀ n : Fin 6, addr.toNat = 0x010 + 4 * n.val → d.toNat = (s.arg[n]).toNat) ∧
      (∀ (i : Nat) (h : i < 256), addr.toNat = 0x100 + 4 * (i / 4) → d.toNat / 256 ^ (i % 4) % 256 = (s.text[i]'h).toNat)

/-- R49, R50, R145: an access of another width, a misaligned one, one at a reserved offset, and a write to a read-only register get
ERR with data 0 and change nothing, idle or busy. -/
def Obligations.ErrorAccessChangesNothing : Prop :=
  ∀ (s : State) (width : Nat) (addr : Offset) (v : Word) (rest : List Event),
    let a := addr.toNat
    let reserved := width ≠ 4 ∨ a % 4 ≠ 0 ∨ (0x02C ≤ a ∧ a < 0x100) ∨ (0x200 ≤ a ∧ a < 0x400) ∨ 0x800 ≤ a
    let readOnly := a = 0x000 ∨ a = 0x00C ∨ a = 0x028 ∨ (0x400 ≤ a ∧ a < 0x800)
    (s.inbox = .host (.read width addr) :: rest → reserved →
      step s = .next (State.respond (.read width addr) .err 0 { s with inbox := rest })) ∧
    (s.inbox = .host (.write width addr v) :: rest → (reserved ∨ readOnly) →
      step s = .next (State.respond (.write width addr v) .err 0 { s with inbox := rest }))

/-- R15, R159: a host write to ARGn stores the low 16 bits, idle or busy, and changes nothing else. -/
def Obligations.ArgWriteStoresLowHalf : Prop :=
  ∀ (s : State) (n : Fin 6) (v : Word) (rest : List Event),
    let a : Access := .write 4 (BitVec.ofNat 12 (0x010 + 4 * n.val)) v
    s.inbox = .host a :: rest →
    ∃ args : Vector Half 6, step s = .next (State.respond a .ok 0 { s with inbox := rest, arg := args }) ∧
      (args[n]).toNat = v.toNat % 65536 ∧ ∀ m : Fin 6, m ≠ n → args[m] = s.arg[m]

/-- R48, R34, R52: a host write to a TEXT word while idle stores its four bytes together, lowest byte first, and changes nothing
else. -/
def Obligations.TextWriteStoresFourBytes : Prop :=
  ∀ (s : State) (k : Fin 64) (v : Word) (rest : List Event),
    let a : Access := .write 4 (BitVec.ofNat 12 (0x100 + 4 * k.val)) v
    s.inbox = .host a :: rest → s.busy = false →
    ∃ text : Vector Byte 256, step s = .next (State.respond a .ok 0 { s with inbox := rest, text := text }) ∧
      ∀ i : Fin 256, if i.val / 4 = k.val then (text[i]).toNat = v.toNat / 256 ^ (i.val % 4) % 256 else text[i] = s.text[i]

/-- R29: a host write to STATUS clears the sticky bits where it has a 1, idle or busy, and changes nothing else. -/
def Obligations.StatusWriteClearsSticky : Prop :=
  ∀ (s : State) (v : Word) (rest : List Event), s.inbox = .host (.write 4 0x008 v) :: rest →
    step s = .next (State.respond (.write 4 0x008 v) .ok 0
      { s with
        inbox := rest
        ovr := if v.getLsbD 8 then false else s.ovr
        ill := if v.getLsbD 9 then false else s.ill
        terr := if v.getLsbD 10 then false else s.terr })

/-- R159: while BUSY = 1 a CMD write and a TEXT write are ignored and set OVR, nothing else. -/
def Obligations.BusyCmdAndTextWritesSetOvr : Prop :=
  ∀ (s : State) (addr : Offset) (v : Word) (rest : List Event), s.inbox = .host (.write 4 addr v) :: rest → s.busy = true →
    (addr.toNat = 0x004 ∨ (0x100 ≤ addr.toNat ∧ addr.toNat < 0x200 ∧ addr.toNat % 4 = 0)) →
    step s = .next (State.respond (.write 4 addr v) .ok 0 { s with inbox := rest, ovr := true })

/-- R76, R54: the assembler's `LINE x0, y0, x1, y1, color` writes ARG0 to ARG3 and the command word at the block's own offsets,
wherever the platform puts it, and waits. -/
def Obligations.AssembledLineWritesItsRegisters : Prop :=
  ∀ (p : Params) (c : Bool) (x0 y0 x1 y1 : Half),
    asmCommand p (.line c 0) [x0, y0, x1, y1] =
      some [.host (.write 4 0x010 (x0.setWidth 32)), .host (.write 4 0x014 (y0.setWidth 32)),
       .host (.write 4 0x018 (x1.setWidth 32)), .host (.write 4 0x01C (y1.setWidth 32)),
       .host (.write 4 0x004 (if c then 0x00000106 else 0x00000006)), .waitIdle]
end

