-- ==== Sys2Proof/Laws/Memory.lean ====
section
/-! SUPPORT. Byte memory: read after write, the canonical form, and that canonical memories with equal reads are equal. -/

namespace Sys2Proof.Machine

theorem Memory.read_erase (m : Memory) (a a' : Nat) :
    Memory.read (Memory.erase a m) a' = if a' = a then 0 else m.read a' := by
  induction m with
  | nil => simp [Memory.erase, Memory.read]
  | cons c rest ih =>
    obtain ⟨k, b⟩ := c
    simp only [Memory.erase, List.filter_cons] at ih ⊢
    by_cases hk : k = a
    · subst hk
      by_cases h : a' = k
      · subst h; simpa using ih
      · simp [ih, h, Memory.read, Ne.symm h]
    · by_cases h : a' = a
      · subst h; simp [hk, Memory.read, ih]
      · simp [hk, Memory.read, ih, h]

theorem Memory.read_insert (m : Memory) (a a' : Nat) (b : Byte) (h : m.read a = 0 → ∀ c ∈ m, c.1 ≠ a) (h0 : m.read a = 0) :
    Memory.read (Memory.insert a b m) a' = if a' = a then b else m.read a' := by
  have hne := h h0
  clear h h0
  induction m with
  | nil => simp [Memory.insert, Memory.read, eq_comm]
  | cons c rest ih =>
    obtain ⟨k, d⟩ := c
    have hk : k ≠ a := hne (k, d) (by simp)
    have ih := ih fun c hc => hne c (by simp [hc])
    simp only [Memory.insert]
    split
    · by_cases h : a' = a
      · simp [Memory.read, h]
      · simp [Memory.read, h, Ne.symm h]
    · by_cases h : a' = a
      · subst h; simp [Memory.read, hk, ih]
      · simp [Memory.read, ih, h]

theorem Memory.erase_no_cell (m : Memory) (a : Nat) : ∀ c ∈ Memory.erase a m, c.1 ≠ a := by
  intro c hc
  simpa using (List.mem_filter.mp hc).2

/-- Read after write, for every memory. -/
theorem Memory.read_write (m : Memory) (a a' : Nat) (b : Byte) :
    (m.write a b).read a' = if a' = a then b else m.read a' := by
  unfold Memory.write
  split
  · rename_i hb
    rw [Memory.read_erase, hb]
  · rw [Memory.read_insert _ _ _ _ (fun _ => Memory.erase_no_cell m a) (by simp [Memory.read_erase])]
    by_cases h : a' = a
    · simp [h]
    · simp [h, Memory.read_erase]

@[simp] theorem Memory.read_write_same (m : Memory) (a : Nat) (b : Byte) : (m.write a b).read a = b := by
  simp [Memory.read_write]

theorem Memory.read_write_ne (m : Memory) {a a' : Nat} (b : Byte) (h : a' ≠ a) : (m.write a b).read a' = m.read a' := by
  simp [Memory.read_write, h]

theorem Memory.wfFrom_mono {m : Memory} {lo lo' : Nat} (h : lo' ≤ lo) (hm : m.wfFrom lo = true) : m.wfFrom lo' = true := by
  cases m with
  | nil => rfl
  | cons c rest =>
    obtain ⟨k, b⟩ := c
    simp only [Memory.wfFrom, Bool.and_eq_true, decide_eq_true_eq] at hm ⊢
    exact ⟨⟨by omega, hm.1.2⟩, hm.2⟩

theorem Memory.wfFrom_erase {m : Memory} {lo : Nat} (a : Nat) (hm : m.wfFrom lo = true) :
    Memory.wfFrom lo (Memory.erase a m) = true := by
  induction m generalizing lo with
  | nil => rfl
  | cons c rest ih =>
    obtain ⟨k, b⟩ := c
    simp only [Memory.wfFrom, Bool.and_eq_true, decide_eq_true_eq] at hm
    have ih := ih hm.2
    simp only [Memory.erase, List.filter_cons] at ih ⊢
    split
    · simp only [Memory.wfFrom, Bool.and_eq_true, decide_eq_true_eq]
      exact ⟨hm.1, ih⟩
    · exact Memory.wfFrom_mono (by omega) ih

theorem Memory.wfFrom_insert {m : Memory} {lo a : Nat} {b : Byte} (hm : m.wfFrom lo = true) (hlo : lo ≤ a) (hb : b ≠ 0)
    (hne : ∀ c ∈ m, c.1 ≠ a) : Memory.wfFrom lo (Memory.insert a b m) = true := by
  induction m generalizing lo with
  | nil => simpa [Memory.insert, Memory.wfFrom, hlo] using hb
  | cons c rest ih =>
    obtain ⟨k, d⟩ := c
    have hk : k ≠ a := hne (k, d) (by simp)
    simp only [Memory.wfFrom, Bool.and_eq_true, decide_eq_true_eq] at hm
    simp only [Memory.insert]
    split
    · simp only [Memory.wfFrom, Bool.and_eq_true, decide_eq_true_eq]
      exact ⟨⟨hlo, hb⟩, ⟨by omega, hm.1.2⟩, hm.2⟩
    · simp only [Memory.wfFrom, Bool.and_eq_true, decide_eq_true_eq]
      exact ⟨hm.1, ih hm.2 (by omega) fun c hc => hne c (by simp [hc])⟩

/-- A write keeps the canonical form. -/
theorem Memory.wf_write {m : Memory} (a : Nat) (b : Byte) (hm : m.wf = true) : (m.write a b).wf = true := by
  unfold Memory.write
  split
  · exact Memory.wfFrom_erase a hm
  · exact Memory.wfFrom_insert (Memory.wfFrom_erase a hm) (Nat.zero_le _) ‹_› (Memory.erase_no_cell m a)

theorem Memory.inFb_erase {m : Memory} (a : Nat) (hm : m.inFb = true) : Memory.inFb (Memory.erase a m) = true := by
  simp only [Memory.inFb, Memory.erase, List.all_eq_true, List.mem_filter] at hm ⊢
  exact fun c hc => hm c hc.1

theorem Memory.inFb_insert {m : Memory} {a : Nat} {b : Byte} (ha : a < 1024) (hm : m.inFb = true) :
    Memory.inFb (Memory.insert a b m) = true := by
  induction m with
  | nil => simp [Memory.insert, Memory.inFb, ha]
  | cons c rest ih =>
    obtain ⟨k, d⟩ := c
    simp only [Memory.inFb, List.all_cons, Bool.and_eq_true, decide_eq_true_eq] at hm ih
    simp only [Memory.insert]
    split
    · simpa [Memory.inFb, ha] using hm
    · simpa [Memory.inFb, hm.1] using ih hm.2

/-- A write inside the framebuffer keeps every address inside it. -/
theorem Memory.inFb_write {m : Memory} {a : Nat} (b : Byte) (ha : a < 1024) (hm : m.inFb = true) :
    (m.write a b).inFb = true := by
  unfold Memory.write
  split
  · exact Memory.inFb_erase a hm
  · exact Memory.inFb_insert ha (Memory.inFb_erase a hm)

theorem Memory.read_map_const (b : Byte) (lo n a : Nat) :
    Memory.read ((List.range' lo n).map fun i => (i, b)) a = if lo ≤ a ∧ a < lo + n then b else 0 := by
  induction n generalizing lo with
  | zero => simp [Memory.read]
  | succ n ih =>
    simp only [List.range'_succ, List.map_cons, Memory.read, ih]
    by_cases h : lo = a
    · simp [h]
    · by_cases h' : lo + 1 ≤ a ∧ a < lo + 1 + n
      · rw [if_neg h, if_pos h', if_pos (by omega)]
      · rw [if_neg h, if_neg h', if_neg (by omega)]

/-- The filled framebuffer: every byte of FB is `b` (R88, R90, R92). -/
theorem Memory.read_filled (b : Byte) (a : Nat) : (Memory.filled b).read a = if a < 1024 then b else 0 := by
  unfold Memory.filled
  split
  · simp [Memory.read, *]
  · have h := Memory.read_map_const b 0 1024 a
    rw [List.range_eq_range', h]
    simp

theorem Memory.wfFrom_map_const {b : Byte} (hb : b ≠ 0) (lo n : Nat) :
    Memory.wfFrom lo ((List.range' lo n).map fun i => (i, b)) = true := by
  induction n generalizing lo with
  | zero => rfl
  | succ n ih => simpa [List.range'_succ, Memory.wfFrom, ih] using hb

theorem Memory.wf_filled (b : Byte) : (Memory.filled b).wf = true := by
  unfold Memory.filled
  split
  · rfl
  · rw [List.range_eq_range']
    exact Memory.wfFrom_map_const ‹_› 0 1024

theorem Memory.inFb_filled (b : Byte) : (Memory.filled b).inFb = true := by
  unfold Memory.filled
  split
  · rfl
  · simp [Memory.inFb]

theorem Memory.read_below {m : Memory} {lo a : Nat} (hm : m.wfFrom lo = true) (h : a < lo) : m.read a = 0 := by
  induction m generalizing lo with
  | nil => rfl
  | cons c rest ih =>
    obtain ⟨k, b⟩ := c
    simp only [Memory.wfFrom, Bool.and_eq_true, decide_eq_true_eq] at hm
    simp only [Memory.read]
    rw [if_neg (by omega)]
    exact ih hm.2 (by omega)

theorem Memory.ext_from {m n : Memory} {lo lo' : Nat} (hm : m.wfFrom lo = true) (hn : n.wfFrom lo' = true)
    (h : ∀ a, m.read a = n.read a) : m = n := by
  induction m generalizing n lo lo' with
  | nil =>
    cases n with
    | nil => rfl
    | cons c rest =>
      obtain ⟨k, b⟩ := c
      simp only [Memory.wfFrom, Bool.and_eq_true, decide_eq_true_eq] at hn
      have := h k
      simp only [Memory.read, if_true] at this
      exact absurd this.symm hn.1.2
  | cons c rest ih =>
    obtain ⟨k, b⟩ := c
    simp only [Memory.wfFrom, Bool.and_eq_true, decide_eq_true_eq] at hm
    cases n with
    | nil =>
      have := h k
      simp only [Memory.read, if_true] at this
      exact absurd this hm.1.2
    | cons c' rest' =>
      obtain ⟨k', b'⟩ := c'
      simp only [Memory.wfFrom, Bool.and_eq_true, decide_eq_true_eq] at hn
      have hkk : k = k' := by
        rcases Nat.lt_trichotomy k k' with hlt | heq | hgt
        · have := h k
          simp only [Memory.read, if_true, if_neg (Nat.ne_of_gt hlt)] at this
          rw [Memory.read_below hn.2 (by omega)] at this
          exact absurd this hm.1.2
        · exact heq
        · have := h k'
          simp only [Memory.read, if_true, if_neg (Nat.ne_of_gt hgt)] at this
          rw [Memory.read_below hm.2 (by omega)] at this
          exact absurd this.symm hn.1.2
      subst hkk
      have hb : b = b' := by simpa [Memory.read] using h k
      subst hb
      congr 1
      refine ih hm.2 hn.2 fun a => ?_
      by_cases ha : k = a
      · subst ha
        rw [Memory.read_below hm.2 (by omega), Memory.read_below hn.2 (by omega)]
      · simpa [Memory.read, ha] using h a

/-- Canonical memories with equal bytes are the same data. -/
theorem Memory.ext_of_wf {m n : Memory} (hm : m.wf = true) (hn : n.wf = true) (h : ∀ a, m.read a = n.read a) : m = n :=
  Memory.ext_from hm hn h

end Sys2Proof.Machine
end

