-- ==== Sys2Proof/Laws/Draw.lean ====
section
/-! SUPPORT. PutPixel and lists of PutPixel: what a pixel and a byte hold afterwards. -/

namespace Sys2Proof.Machine

theorem pixelIndex_lt {x y : Nat} (hx : x < 128) (hy : y < 64) : pixelIndex x y < 1024 := by
  simp only [pixelIndex, Nat.shiftRight_eq_div_pow]
  omega

theorem pixelIndex_inj {x y x' y' : Nat} (hx : x < 128) (hx' : x' < 128) (h : pixelIndex x y = pixelIndex x' y') :
    x = x' ∧ y / 8 = y' / 8 := by
  simp only [pixelIndex, Nat.shiftRight_eq_div_pow] at h
  omega

theorem and_seven (y : Nat) : y &&& 7 = y % 8 := Nat.and_two_pow_sub_one_eq_mod y 3

/-- A byte after PutPixel: only the pixel's byte can differ. -/
theorem read_putPixel_ne (p : Point) (c : Bool) (fb : Memory) (a : Nat)
    (h : p.1.toNat < 128 → p.2.toNat < 64 → pixelIndex p.1.toNat p.2.toNat ≠ a) : (putPixel p c fb).read a = fb.read a := by
  unfold putPixel
  split
  · rfl
  · have h := h (by omega) (by omega)
    split <;> exact Memory.read_write_ne _ _ (Ne.symm h)

theorem oneBit_getLsbD (i j : Nat) (hi : i < 8) : ((1#8 <<< i).getLsbD j) = decide (i = j) := by
  rw [Bool.eq_iff_iff]
  simp only [BitVec.getLsbD_shiftLeft, BitVec.getLsbD_one, Bool.and_eq_true, Bool.not_eq_true', decide_eq_true_eq,
    decide_eq_false_iff_not]
  omega

/-- A pixel of the panel after PutPixel (R97). -/
theorem pixelAt_putPixel (p : Point) (c : Bool) (fb : Memory) {x y : Nat} (hx : x < 128) (hy : y < 64) :
    pixelAt (putPixel p c fb) x y = if p.1.toNat = x ∧ p.2.toNat = y then c else pixelAt fb x y := by
  unfold putPixel
  split
  · rw [if_neg (by omega)]
  · rename_i hin
    by_cases hb : pixelIndex p.1.toNat p.2.toNat = pixelIndex x y
    · have hxy := pixelIndex_inj (by omega) hx hb
      have hbit : (p.2.toNat % 8 = y % 8) ↔ (p.1.toNat = x ∧ p.2.toNat = y) := by omega
      cases c
      · simp only [Bool.false_eq_true, if_false, pixelAt, hb, Memory.read_write_same, BitVec.getLsbD_and,
          BitVec.getLsbD_not, and_seven, oneBit_getLsbD _ _ (Nat.mod_lt p.2.toNat (by omega : 8 > 0)), hbit]
        by_cases hq : p.1.toNat = x ∧ p.2.toNat = y
        · simp [hq]
        · simp [hq, Nat.mod_lt]
      · simp only [if_true, pixelAt, hb, Memory.read_write_same, BitVec.getLsbD_or, and_seven,
          oneBit_getLsbD _ _ (Nat.mod_lt p.2.toNat (by omega : 8 > 0)), hbit]
        by_cases hq : p.1.toNat = x ∧ p.2.toNat = y
        · simp [hq]
        · simp [hq]
    · have hne : ¬ (p.1.toNat = x ∧ p.2.toNat = y) := fun h => hb (by rw [h.1, h.2])
      rw [if_neg hne]
      cases c <;> simp [pixelAt, Memory.read_write_ne _ _ (Ne.symm hb)]

theorem wf_putPixel (p : Point) (c : Bool) {fb : Memory} (h : fb.wf = true) : (putPixel p c fb).wf = true := by
  unfold putPixel
  split
  · exact h
  · split <;> exact Memory.wf_write _ _ h

theorem inFb_putPixel (p : Point) (c : Bool) {fb : Memory} (h : fb.inFb = true) : (putPixel p c fb).inFb = true := by
  unfold putPixel
  split
  · exact h
  · split <;> exact Memory.inFb_write _ (pixelIndex_lt (by omega) (by omega)) h

@[simp] theorem putDots_nil (fb : Memory) : putDots [] fb = fb := rfl

@[simp] theorem putDots_cons (d : Point × Bool) (ds : List (Point × Bool)) (fb : Memory) :
    putDots (d :: ds) fb = putDots ds (putPixel d.1 d.2 fb) := rfl

theorem putDots_append (ds es : List (Point × Bool)) (fb : Memory) : putDots (ds ++ es) fb = putDots es (putDots ds fb) :=
  List.foldl_append

theorem wf_putDots (ds : List (Point × Bool)) {fb : Memory} (h : fb.wf = true) : (putDots ds fb).wf = true := by
  induction ds generalizing fb with
  | nil => exact h
  | cons d ds ih => exact ih (wf_putPixel d.1 d.2 h)

theorem inFb_putDots (ds : List (Point × Bool)) {fb : Memory} (h : fb.inFb = true) : (putDots ds fb).inFb = true := by
  induction ds generalizing fb with
  | nil => exact h
  | cons d ds ih => exact ih (inFb_putPixel d.1 d.2 h)

theorem read_putDots_ne (ds : List (Point × Bool)) (fb : Memory) (a : Nat)
    (h : ∀ d ∈ ds, d.1.1.toNat < 128 → d.1.2.toNat < 64 → pixelIndex d.1.1.toNat d.1.2.toNat ≠ a) :
    (putDots ds fb).read a = fb.read a := by
  induction ds generalizing fb with
  | nil => rfl
  | cons d ds ih =>
    rw [putDots_cons, ih _ fun e he => h e (by simp [he]), read_putPixel_ne _ _ _ _ (h d (by simp))]

/-- A pixel no dot lies on is as before. -/
theorem pixelAt_putDots_of_notMem (ds : List (Point × Bool)) (fb : Memory) {x y : Nat} (hx : x < 128) (hy : y < 64)
    (h : ∀ d ∈ ds, ¬ (d.1.1.toNat = x ∧ d.1.2.toNat = y)) : pixelAt (putDots ds fb) x y = pixelAt fb x y := by
  induction ds generalizing fb with
  | nil => rfl
  | cons d ds ih =>
    rw [putDots_cons, ih _ fun e he => h e (by simp [he]), pixelAt_putPixel _ _ _ hx hy, if_neg (h d (by simp))]

/-- A pixel some dot lies on, all such dots having one colour, takes that colour. -/
theorem pixelAt_putDots_of_mem (ds : List (Point × Bool)) (fb : Memory) {x y : Nat} (hx : x < 128) (hy : y < 64) (c : Bool)
    (hc : ∀ d ∈ ds, d.1.1.toNat = x ∧ d.1.2.toNat = y → d.2 = c) (h : ∃ d ∈ ds, d.1.1.toNat = x ∧ d.1.2.toNat = y) :
    pixelAt (putDots ds fb) x y = c := by
  induction ds generalizing fb with
  | nil => obtain ⟨d, hd, _⟩ := h; cases hd
  | cons d ds ih =>
    rw [putDots_cons]
    by_cases hds : ∃ e ∈ ds, e.1.1.toNat = x ∧ e.1.2.toNat = y
    · exact ih _ (fun e he => hc e (by simp [he])) hds
    · have hn : ∀ e ∈ ds, ¬ (e.1.1.toNat = x ∧ e.1.2.toNat = y) := fun e he hxy => hds ⟨e, he, hxy⟩
      rw [pixelAt_putDots_of_notMem _ _ hx hy hn, pixelAt_putPixel _ _ _ hx hy]
      obtain ⟨e, he, hxy⟩ := h
      rcases List.mem_cons.mp he with rfl | he
      · rw [if_pos hxy, hc e (by simp) hxy]
      · exact absurd hxy (hn e he)

/-- A pixel after drawing positions in one colour. -/
theorem pixelAt_putPoints (ps : List Point) (c : Bool) (fb : Memory) {x y : Nat} (hx : x < 128) (hy : y < 64) :
    ((∃ p ∈ ps, p.1.toNat = x ∧ p.2.toNat = y) → pixelAt (putPoints ps c fb) x y = c) ∧
    (¬ (∃ p ∈ ps, p.1.toNat = x ∧ p.2.toNat = y) → pixelAt (putPoints ps c fb) x y = pixelAt fb x y) := by
  refine ⟨fun h => ?_, fun h => ?_⟩
  · obtain ⟨p, hp, hxy⟩ := h
    refine pixelAt_putDots_of_mem _ _ hx hy c ?_ ⟨(p, c), List.mem_map.mpr ⟨p, hp, rfl⟩, hxy⟩
    intro d hd _
    obtain ⟨q, _, rfl⟩ := List.mem_map.mp hd
    rfl
  · refine pixelAt_putDots_of_notMem _ _ hx hy fun d hd hxy => h ?_
    obtain ⟨q, hq, rfl⟩ := List.mem_map.mp hd
    exact ⟨q, hq, hxy⟩

/-- A byte no drawn position lies in is as before. -/
theorem read_putPoints_ne (ps : List Point) (c : Bool) (fb : Memory) (a : Nat)
    (h : ∀ p ∈ ps, p.1.toNat < 128 → p.2.toNat < 64 → pixelIndex p.1.toNat p.2.toNat ≠ a) :
    (putPoints ps c fb).read a = fb.read a := by
  refine read_putDots_ne _ _ _ fun d hd => ?_
  obtain ⟨p, hp, rfl⟩ := List.mem_map.mp hd
  exact h p hp

theorem wf_putPoints (ps : List Point) (c : Bool) {fb : Memory} (h : fb.wf = true) : (putPoints ps c fb).wf = true :=
  wf_putDots _ h

theorem inFb_putPoints (ps : List Point) (c : Bool) {fb : Memory} (h : fb.inFb = true) : (putPoints ps c fb).inFb = true :=
  inFb_putDots _ h

end Sys2Proof.Machine
end

