-- ==== Sys2Proof/Laws/State.lean ====
section
/-! SUPPORT. One lemma per field per named update of State, so that no later proof unfolds a record update. -/

namespace Sys2Proof.Machine

/-! accept -/

@[simp] theorem accept_cfg (i : Instr) (s : State) : (accept i s).cfg = s.cfg := rfl
@[simp] theorem accept_fb (i : Instr) (s : State) : (accept i s).fb = s.fb := rfl
@[simp] theorem accept_text (i : Instr) (s : State) : (accept i s).text = s.text := rfl
@[simp] theorem accept_arg (i : Instr) (s : State) : (accept i s).arg = s.arg := rfl
@[simp] theorem accept_latch (i : Instr) (s : State) : (accept i s).latch = { op := i.opcode, color := i.color, font := i.font, l := s.arg } := rfl
@[simp] theorem accept_curX (i : Instr) (s : State) : (accept i s).curX = s.curX := rfl
@[simp] theorem accept_curY (i : Instr) (s : State) : (accept i s).curY = s.curY := rfl
@[simp] theorem accept_initialized (i : Instr) (s : State) : (accept i s).initialized = s.initialized := rfl
@[simp] theorem accept_batch (i : Instr) (s : State) : (accept i s).batch = s.batch := rfl
@[simp] theorem accept_ovr (i : Instr) (s : State) : (accept i s).ovr = s.ovr := rfl
@[simp] theorem accept_ill (i : Instr) (s : State) : (accept i s).ill = s.ill := rfl
@[simp] theorem accept_terr (i : Instr) (s : State) : (accept i s).terr = s.terr := rfl
@[simp] theorem accept_result (i : Instr) (s : State) : (accept i s).result = s.result := rfl
@[simp] theorem accept_engine (i : Instr) (s : State) : (accept i s).engine = .accepted i := rfl
@[simp] theorem accept_log (i : Instr) (s : State) : (accept i s).log = s.log := rfl
@[simp] theorem accept_inbox (i : Instr) (s : State) : (accept i s).inbox = s.inbox := rfl
@[simp] theorem accept_answers (i : Instr) (s : State) : (accept i s).answers = s.answers := rfl
@[simp] theorem accept_hostLog (i : Instr) (s : State) : (accept i s).hostLog = s.hostLog := rfl
@[simp] theorem accept_answerDraws (i : Instr) (s : State) : (accept i s).answerDraws = s.answerDraws := rfl
@[simp] theorem accept_readDraws (i : Instr) (s : State) : (accept i s).readDraws = s.readDraws := rfl
@[simp] theorem accept_textDraws (i : Instr) (s : State) : (accept i s).textDraws = s.textDraws := rfl

/-! rejectWord -/

@[simp] theorem rejectWord_cfg (w : Word) (s : State) : (rejectWord w s).cfg = s.cfg := rfl
@[simp] theorem rejectWord_fb (w : Word) (s : State) : (rejectWord w s).fb = s.fb := rfl
@[simp] theorem rejectWord_text (w : Word) (s : State) : (rejectWord w s).text = s.text := rfl
@[simp] theorem rejectWord_arg (w : Word) (s : State) : (rejectWord w s).arg = s.arg := rfl
@[simp] theorem rejectWord_latch (w : Word) (s : State) : (rejectWord w s).latch = s.latch := rfl
@[simp] theorem rejectWord_curX (w : Word) (s : State) : (rejectWord w s).curX = s.curX := rfl
@[simp] theorem rejectWord_curY (w : Word) (s : State) : (rejectWord w s).curY = s.curY := rfl
@[simp] theorem rejectWord_initialized (w : Word) (s : State) : (rejectWord w s).initialized = s.initialized := rfl
@[simp] theorem rejectWord_batch (w : Word) (s : State) : (rejectWord w s).batch = s.batch := rfl
@[simp] theorem rejectWord_ovr (w : Word) (s : State) : (rejectWord w s).ovr = s.ovr := rfl
@[simp] theorem rejectWord_ill (w : Word) (s : State) : (rejectWord w s).ill = true := rfl
@[simp] theorem rejectWord_terr (w : Word) (s : State) : (rejectWord w s).terr = s.terr := rfl
@[simp] theorem rejectWord_result (w : Word) (s : State) : (rejectWord w s).result = { op := opField w, info := { code := .illegalCmd } } := rfl
@[simp] theorem rejectWord_engine (w : Word) (s : State) : (rejectWord w s).engine = s.engine := rfl
@[simp] theorem rejectWord_log (w : Word) (s : State) : (rejectWord w s).log = s.log := rfl
@[simp] theorem rejectWord_inbox (w : Word) (s : State) : (rejectWord w s).inbox = s.inbox := rfl
@[simp] theorem rejectWord_answers (w : Word) (s : State) : (rejectWord w s).answers = s.answers := rfl
@[simp] theorem rejectWord_hostLog (w : Word) (s : State) : (rejectWord w s).hostLog = s.hostLog := rfl
@[simp] theorem rejectWord_answerDraws (w : Word) (s : State) : (rejectWord w s).answerDraws = s.answerDraws := rfl
@[simp] theorem rejectWord_readDraws (w : Word) (s : State) : (rejectWord w s).readDraws = s.readDraws := rfl
@[simp] theorem rejectWord_textDraws (w : Word) (s : State) : (rejectWord w s).textDraws = s.textDraws := rfl

/-! finishWith -/

@[simp] theorem finishWith_cfg (c : Completion) (s : State) : (finishWith c s).cfg = s.cfg := rfl
@[simp] theorem finishWith_fb (c : Completion) (s : State) : (finishWith c s).fb = s.fb := rfl
@[simp] theorem finishWith_text (c : Completion) (s : State) : (finishWith c s).text = s.text := rfl
@[simp] theorem finishWith_arg (c : Completion) (s : State) : (finishWith c s).arg = s.arg := rfl
@[simp] theorem finishWith_latch (c : Completion) (s : State) : (finishWith c s).latch = s.latch := rfl
@[simp] theorem finishWith_curX (c : Completion) (s : State) : (finishWith c s).curX = s.curX := rfl
@[simp] theorem finishWith_curY (c : Completion) (s : State) : (finishWith c s).curY = s.curY := rfl
@[simp] theorem finishWith_initialized (c : Completion) (s : State) : (finishWith c s).initialized = s.initialized := rfl
@[simp] theorem finishWith_batch (c : Completion) (s : State) : (finishWith c s).batch = s.batch := rfl
@[simp] theorem finishWith_ovr (c : Completion) (s : State) : (finishWith c s).ovr = s.ovr := rfl
@[simp] theorem finishWith_ill (c : Completion) (s : State) : (finishWith c s).ill = s.ill := rfl
@[simp] theorem finishWith_terr (c : Completion) (s : State) : (finishWith c s).terr = s.terr := rfl
@[simp] theorem finishWith_result (c : Completion) (s : State) : (finishWith c s).result = s.result := rfl
@[simp] theorem finishWith_engine (c : Completion) (s : State) : (finishWith c s).engine = .finishing c := rfl
@[simp] theorem finishWith_log (c : Completion) (s : State) : (finishWith c s).log = s.log := rfl
@[simp] theorem finishWith_inbox (c : Completion) (s : State) : (finishWith c s).inbox = s.inbox := rfl
@[simp] theorem finishWith_answers (c : Completion) (s : State) : (finishWith c s).answers = s.answers := rfl
@[simp] theorem finishWith_hostLog (c : Completion) (s : State) : (finishWith c s).hostLog = s.hostLog := rfl
@[simp] theorem finishWith_answerDraws (c : Completion) (s : State) : (finishWith c s).answerDraws = s.answerDraws := rfl
@[simp] theorem finishWith_readDraws (c : Completion) (s : State) : (finishWith c s).readDraws = s.readDraws := rfl
@[simp] theorem finishWith_textDraws (c : Completion) (s : State) : (finishWith c s).textDraws = s.textDraws := rfl

/-! complete -/

@[simp] theorem complete_cfg (c : Completion) (s : State) : (complete c s).cfg = s.cfg := rfl
@[simp] theorem complete_fb (c : Completion) (s : State) : (complete c s).fb = s.fb := rfl
@[simp] theorem complete_text (c : Completion) (s : State) : (complete c s).text = s.text := rfl
@[simp] theorem complete_arg (c : Completion) (s : State) : (complete c s).arg = s.arg := rfl
@[simp] theorem complete_latch (c : Completion) (s : State) : (complete c s).latch = s.latch := rfl
@[simp] theorem complete_curX (c : Completion) (s : State) : (complete c s).curX = s.curX := rfl
@[simp] theorem complete_curY (c : Completion) (s : State) : (complete c s).curY = s.curY := rfl
@[simp] theorem complete_initialized (c : Completion) (s : State) : (complete c s).initialized = s.initialized := rfl
@[simp] theorem complete_batch (c : Completion) (s : State) : (complete c s).batch = false := rfl
@[simp] theorem complete_ovr (c : Completion) (s : State) : (complete c s).ovr = s.ovr := rfl
@[simp] theorem complete_ill (c : Completion) (s : State) : (complete c s).ill = s.ill := rfl
@[simp] theorem complete_terr (c : Completion) (s : State) : (complete c s).terr = terrAfter s.terr c.code := rfl
@[simp] theorem complete_result (c : Completion) (s : State) : (complete c s).result = { op := s.latch.op, info := c } := rfl
@[simp] theorem complete_engine (c : Completion) (s : State) : (complete c s).engine = .idle := rfl
@[simp] theorem complete_log (c : Completion) (s : State) : (complete c s).log = s.log := rfl
@[simp] theorem complete_inbox (c : Completion) (s : State) : (complete c s).inbox = s.inbox := rfl
@[simp] theorem complete_answers (c : Completion) (s : State) : (complete c s).answers = s.answers := rfl
@[simp] theorem complete_hostLog (c : Completion) (s : State) : (complete c s).hostLog = s.hostLog := rfl
@[simp] theorem complete_answerDraws (c : Completion) (s : State) : (complete c s).answerDraws = s.answerDraws := rfl
@[simp] theorem complete_readDraws (c : Completion) (s : State) : (complete c s).readDraws = s.readDraws := rfl
@[simp] theorem complete_textDraws (c : Completion) (s : State) : (complete c s).textDraws = s.textDraws := rfl

/-! issue -/

@[simp] theorem issue_cfg (site : Site) (tx : Tx) (s : State) : (issue site tx s).cfg = s.cfg := rfl
@[simp] theorem issue_fb (site : Site) (tx : Tx) (s : State) : (issue site tx s).fb = s.fb := rfl
@[simp] theorem issue_text (site : Site) (tx : Tx) (s : State) : (issue site tx s).text = s.text := rfl
@[simp] theorem issue_arg (site : Site) (tx : Tx) (s : State) : (issue site tx s).arg = s.arg := rfl
@[simp] theorem issue_latch (site : Site) (tx : Tx) (s : State) : (issue site tx s).latch = s.latch := rfl
@[simp] theorem issue_curX (site : Site) (tx : Tx) (s : State) : (issue site tx s).curX = s.curX := rfl
@[simp] theorem issue_curY (site : Site) (tx : Tx) (s : State) : (issue site tx s).curY = s.curY := rfl
@[simp] theorem issue_initialized (site : Site) (tx : Tx) (s : State) : (issue site tx s).initialized = s.initialized := rfl
@[simp] theorem issue_batch (site : Site) (tx : Tx) (s : State) : (issue site tx s).batch = s.batch := rfl
@[simp] theorem issue_ovr (site : Site) (tx : Tx) (s : State) : (issue site tx s).ovr = s.ovr := rfl
@[simp] theorem issue_ill (site : Site) (tx : Tx) (s : State) : (issue site tx s).ill = s.ill := rfl
@[simp] theorem issue_terr (site : Site) (tx : Tx) (s : State) : (issue site tx s).terr = s.terr := rfl
@[simp] theorem issue_result (site : Site) (tx : Tx) (s : State) : (issue site tx s).result = s.result := rfl
@[simp] theorem issue_engine (site : Site) (tx : Tx) (s : State) : (issue site tx s).engine = .waiting site tx := rfl
@[simp] theorem issue_log (site : Site) (tx : Tx) (s : State) : (issue site tx s).log = s.log := rfl
@[simp] theorem issue_inbox (site : Site) (tx : Tx) (s : State) : (issue site tx s).inbox = s.inbox := rfl
@[simp] theorem issue_answers (site : Site) (tx : Tx) (s : State) : (issue site tx s).answers = s.answers := rfl
@[simp] theorem issue_hostLog (site : Site) (tx : Tx) (s : State) : (issue site tx s).hostLog = s.hostLog := rfl
@[simp] theorem issue_answerDraws (site : Site) (tx : Tx) (s : State) : (issue site tx s).answerDraws = s.answerDraws := rfl
@[simp] theorem issue_readDraws (site : Site) (tx : Tx) (s : State) : (issue site tx s).readDraws = s.readDraws := rfl
@[simp] theorem issue_textDraws (site : Site) (tx : Tx) (s : State) : (issue site tx s).textDraws = s.textDraws := rfl

/-! draw -/

@[simp] theorem draw_cfg (ps : List Point) (s : State) : (s.draw ps).cfg = s.cfg := rfl
@[simp] theorem draw_fb (ps : List Point) (s : State) : (s.draw ps).fb = putPoints ps s.latch.color s.fb := rfl
@[simp] theorem draw_text (ps : List Point) (s : State) : (s.draw ps).text = s.text := rfl
@[simp] theorem draw_arg (ps : List Point) (s : State) : (s.draw ps).arg = s.arg := rfl
@[simp] theorem draw_latch (ps : List Point) (s : State) : (s.draw ps).latch = s.latch := rfl
@[simp] theorem draw_curX (ps : List Point) (s : State) : (s.draw ps).curX = s.curX := rfl
@[simp] theorem draw_curY (ps : List Point) (s : State) : (s.draw ps).curY = s.curY := rfl
@[simp] theorem draw_initialized (ps : List Point) (s : State) : (s.draw ps).initialized = s.initialized := rfl
@[simp] theorem draw_batch (ps : List Point) (s : State) : (s.draw ps).batch = s.batch := rfl
@[simp] theorem draw_ovr (ps : List Point) (s : State) : (s.draw ps).ovr = s.ovr := rfl
@[simp] theorem draw_ill (ps : List Point) (s : State) : (s.draw ps).ill = s.ill := rfl
@[simp] theorem draw_terr (ps : List Point) (s : State) : (s.draw ps).terr = s.terr := rfl
@[simp] theorem draw_result (ps : List Point) (s : State) : (s.draw ps).result = s.result := rfl
@[simp] theorem draw_engine (ps : List Point) (s : State) : (s.draw ps).engine = s.engine := rfl
@[simp] theorem draw_log (ps : List Point) (s : State) : (s.draw ps).log = s.log := rfl
@[simp] theorem draw_inbox (ps : List Point) (s : State) : (s.draw ps).inbox = s.inbox := rfl
@[simp] theorem draw_answers (ps : List Point) (s : State) : (s.draw ps).answers = s.answers := rfl
@[simp] theorem draw_hostLog (ps : List Point) (s : State) : (s.draw ps).hostLog = s.hostLog := rfl
@[simp] theorem draw_answerDraws (ps : List Point) (s : State) : (s.draw ps).answerDraws = s.answerDraws := rfl
@[simp] theorem draw_readDraws (ps : List Point) (s : State) : (s.draw ps).readDraws = s.readDraws := rfl
@[simp] theorem draw_textDraws (ps : List Point) (s : State) : (s.draw ps).textDraws = s.textDraws := rfl

/-! setCursor -/

@[simp] theorem setCursor_cfg (x y : Half) (s : State) : (s.setCursor x y).cfg = s.cfg := rfl
@[simp] theorem setCursor_fb (x y : Half) (s : State) : (s.setCursor x y).fb = s.fb := rfl
@[simp] theorem setCursor_text (x y : Half) (s : State) : (s.setCursor x y).text = s.text := rfl
@[simp] theorem setCursor_arg (x y : Half) (s : State) : (s.setCursor x y).arg = s.arg := rfl
@[simp] theorem setCursor_latch (x y : Half) (s : State) : (s.setCursor x y).latch = s.latch := rfl
@[simp] theorem setCursor_curX (x y : Half) (s : State) : (s.setCursor x y).curX = x := rfl
@[simp] theorem setCursor_curY (x y : Half) (s : State) : (s.setCursor x y).curY = y := rfl
@[simp] theorem setCursor_initialized (x y : Half) (s : State) : (s.setCursor x y).initialized = s.initialized := rfl
@[simp] theorem setCursor_batch (x y : Half) (s : State) : (s.setCursor x y).batch = s.batch := rfl
@[simp] theorem setCursor_ovr (x y : Half) (s : State) : (s.setCursor x y).ovr = s.ovr := rfl
@[simp] theorem setCursor_ill (x y : Half) (s : State) : (s.setCursor x y).ill = s.ill := rfl
@[simp] theorem setCursor_terr (x y : Half) (s : State) : (s.setCursor x y).terr = s.terr := rfl
@[simp] theorem setCursor_result (x y : Half) (s : State) : (s.setCursor x y).result = s.result := rfl
@[simp] theorem setCursor_engine (x y : Half) (s : State) : (s.setCursor x y).engine = s.engine := rfl
@[simp] theorem setCursor_log (x y : Half) (s : State) : (s.setCursor x y).log = s.log := rfl
@[simp] theorem setCursor_inbox (x y : Half) (s : State) : (s.setCursor x y).inbox = s.inbox := rfl
@[simp] theorem setCursor_answers (x y : Half) (s : State) : (s.setCursor x y).answers = s.answers := rfl
@[simp] theorem setCursor_hostLog (x y : Half) (s : State) : (s.setCursor x y).hostLog = s.hostLog := rfl
@[simp] theorem setCursor_answerDraws (x y : Half) (s : State) : (s.setCursor x y).answerDraws = s.answerDraws := rfl
@[simp] theorem setCursor_readDraws (x y : Half) (s : State) : (s.setCursor x y).readDraws = s.readDraws := rfl
@[simp] theorem setCursor_textDraws (x y : Half) (s : State) : (s.setCursor x y).textDraws = s.textDraws := rfl

/-! plotGlyph -/

@[simp] theorem plotGlyph_cfg (font : Font) (ch : Byte) (c : Bool) (s : State) : (plotGlyph font ch c s).cfg = s.cfg := rfl
@[simp] theorem plotGlyph_fb (font : Font) (ch : Byte) (c : Bool) (s : State) : (plotGlyph font ch c s).fb = putDots (glyphDots font ch s.curX s.curY c) s.fb := rfl
@[simp] theorem plotGlyph_text (font : Font) (ch : Byte) (c : Bool) (s : State) : (plotGlyph font ch c s).text = s.text := rfl
@[simp] theorem plotGlyph_arg (font : Font) (ch : Byte) (c : Bool) (s : State) : (plotGlyph font ch c s).arg = s.arg := rfl
@[simp] theorem plotGlyph_latch (font : Font) (ch : Byte) (c : Bool) (s : State) : (plotGlyph font ch c s).latch = s.latch := rfl
@[simp] theorem plotGlyph_curX (font : Font) (ch : Byte) (c : Bool) (s : State) : (plotGlyph font ch c s).curX = mod16 (s.curX.toNat + font.fw) := rfl
@[simp] theorem plotGlyph_curY (font : Font) (ch : Byte) (c : Bool) (s : State) : (plotGlyph font ch c s).curY = s.curY := rfl
@[simp] theorem plotGlyph_initialized (font : Font) (ch : Byte) (c : Bool) (s : State) : (plotGlyph font ch c s).initialized = s.initialized := rfl
@[simp] theorem plotGlyph_batch (font : Font) (ch : Byte) (c : Bool) (s : State) : (plotGlyph font ch c s).batch = s.batch := rfl
@[simp] theorem plotGlyph_ovr (font : Font) (ch : Byte) (c : Bool) (s : State) : (plotGlyph font ch c s).ovr = s.ovr := rfl
@[simp] theorem plotGlyph_ill (font : Font) (ch : Byte) (c : Bool) (s : State) : (plotGlyph font ch c s).ill = s.ill := rfl
@[simp] theorem plotGlyph_terr (font : Font) (ch : Byte) (c : Bool) (s : State) : (plotGlyph font ch c s).terr = s.terr := rfl
@[simp] theorem plotGlyph_result (font : Font) (ch : Byte) (c : Bool) (s : State) : (plotGlyph font ch c s).result = s.result := rfl
@[simp] theorem plotGlyph_engine (font : Font) (ch : Byte) (c : Bool) (s : State) : (plotGlyph font ch c s).engine = s.engine := rfl
@[simp] theorem plotGlyph_log (font : Font) (ch : Byte) (c : Bool) (s : State) : (plotGlyph font ch c s).log = s.log := rfl
@[simp] theorem plotGlyph_inbox (font : Font) (ch : Byte) (c : Bool) (s : State) : (plotGlyph font ch c s).inbox = s.inbox := rfl
@[simp] theorem plotGlyph_answers (font : Font) (ch : Byte) (c : Bool) (s : State) : (plotGlyph font ch c s).answers = s.answers := rfl
@[simp] theorem plotGlyph_hostLog (font : Font) (ch : Byte) (c : Bool) (s : State) : (plotGlyph font ch c s).hostLog = s.hostLog := rfl
@[simp] theorem plotGlyph_answerDraws (font : Font) (ch : Byte) (c : Bool) (s : State) : (plotGlyph font ch c s).answerDraws = s.answerDraws := rfl
@[simp] theorem plotGlyph_readDraws (font : Font) (ch : Byte) (c : Bool) (s : State) : (plotGlyph font ch c s).readDraws = s.readDraws := rfl
@[simp] theorem plotGlyph_textDraws (font : Font) (ch : Byte) (c : Bool) (s : State) : (plotGlyph font ch c s).textDraws = s.textDraws := rfl

/-! respond -/

@[simp] theorem respond_cfg (a : Access) (r : Resp) (d : Word) (s : State) : (s.respond a r d).cfg = s.cfg := rfl
@[simp] theorem respond_fb (a : Access) (r : Resp) (d : Word) (s : State) : (s.respond a r d).fb = s.fb := rfl
@[simp] theorem respond_text (a : Access) (r : Resp) (d : Word) (s : State) : (s.respond a r d).text = s.text := rfl
@[simp] theorem respond_arg (a : Access) (r : Resp) (d : Word) (s : State) : (s.respond a r d).arg = s.arg := rfl
@[simp] theorem respond_latch (a : Access) (r : Resp) (d : Word) (s : State) : (s.respond a r d).latch = s.latch := rfl
@[simp] theorem respond_curX (a : Access) (r : Resp) (d : Word) (s : State) : (s.respond a r d).curX = s.curX := rfl
@[simp] theorem respond_curY (a : Access) (r : Resp) (d : Word) (s : State) : (s.respond a r d).curY = s.curY := rfl
@[simp] theorem respond_initialized (a : Access) (r : Resp) (d : Word) (s : State) : (s.respond a r d).initialized = s.initialized := rfl
@[simp] theorem respond_batch (a : Access) (r : Resp) (d : Word) (s : State) : (s.respond a r d).batch = s.batch := rfl
@[simp] theorem respond_ovr (a : Access) (r : Resp) (d : Word) (s : State) : (s.respond a r d).ovr = s.ovr := rfl
@[simp] theorem respond_ill (a : Access) (r : Resp) (d : Word) (s : State) : (s.respond a r d).ill = s.ill := rfl
@[simp] theorem respond_terr (a : Access) (r : Resp) (d : Word) (s : State) : (s.respond a r d).terr = s.terr := rfl
@[simp] theorem respond_result (a : Access) (r : Resp) (d : Word) (s : State) : (s.respond a r d).result = s.result := rfl
@[simp] theorem respond_engine (a : Access) (r : Resp) (d : Word) (s : State) : (s.respond a r d).engine = s.engine := rfl
@[simp] theorem respond_log (a : Access) (r : Resp) (d : Word) (s : State) : (s.respond a r d).log = s.log := rfl
@[simp] theorem respond_inbox (a : Access) (r : Resp) (d : Word) (s : State) : (s.respond a r d).inbox = s.inbox := rfl
@[simp] theorem respond_answers (a : Access) (r : Resp) (d : Word) (s : State) : (s.respond a r d).answers = s.answers := rfl
@[simp] theorem respond_hostLog (a : Access) (r : Resp) (d : Word) (s : State) : (s.respond a r d).hostLog = s.hostLog ++ [{ access := a, resp := r, data := d }] := rfl
@[simp] theorem respond_answerDraws (a : Access) (r : Resp) (d : Word) (s : State) : (s.respond a r d).answerDraws = s.answerDraws := rfl
@[simp] theorem respond_readDraws (a : Access) (r : Resp) (d : Word) (s : State) : (s.respond a r d).readDraws = s.readDraws := rfl
@[simp] theorem respond_textDraws (a : Access) (r : Resp) (d : Word) (s : State) : (s.respond a r d).textDraws = s.textDraws := rfl

/-! setOvr -/

@[simp] theorem setOvr_cfg (s : State) : (setOvr s).cfg = s.cfg := rfl
@[simp] theorem setOvr_fb (s : State) : (setOvr s).fb = s.fb := rfl
@[simp] theorem setOvr_text (s : State) : (setOvr s).text = s.text := rfl
@[simp] theorem setOvr_arg (s : State) : (setOvr s).arg = s.arg := rfl
@[simp] theorem setOvr_latch (s : State) : (setOvr s).latch = s.latch := rfl
@[simp] theorem setOvr_curX (s : State) : (setOvr s).curX = s.curX := rfl
@[simp] theorem setOvr_curY (s : State) : (setOvr s).curY = s.curY := rfl
@[simp] theorem setOvr_initialized (s : State) : (setOvr s).initialized = s.initialized := rfl
@[simp] theorem setOvr_batch (s : State) : (setOvr s).batch = s.batch := rfl
@[simp] theorem setOvr_ovr (s : State) : (setOvr s).ovr = true := rfl
@[simp] theorem setOvr_ill (s : State) : (setOvr s).ill = s.ill := rfl
@[simp] theorem setOvr_terr (s : State) : (setOvr s).terr = s.terr := rfl
@[simp] theorem setOvr_result (s : State) : (setOvr s).result = s.result := rfl
@[simp] theorem setOvr_engine (s : State) : (setOvr s).engine = s.engine := rfl
@[simp] theorem setOvr_log (s : State) : (setOvr s).log = s.log := rfl
@[simp] theorem setOvr_inbox (s : State) : (setOvr s).inbox = s.inbox := rfl
@[simp] theorem setOvr_answers (s : State) : (setOvr s).answers = s.answers := rfl
@[simp] theorem setOvr_hostLog (s : State) : (setOvr s).hostLog = s.hostLog := rfl
@[simp] theorem setOvr_answerDraws (s : State) : (setOvr s).answerDraws = s.answerDraws := rfl
@[simp] theorem setOvr_readDraws (s : State) : (setOvr s).readDraws = s.readDraws := rfl
@[simp] theorem setOvr_textDraws (s : State) : (setOvr s).textDraws = s.textDraws := rfl

/-! clearSticky -/

@[simp] theorem clearSticky_cfg (v : Word) (s : State) : (clearSticky v s).cfg = s.cfg := rfl
@[simp] theorem clearSticky_fb (v : Word) (s : State) : (clearSticky v s).fb = s.fb := rfl
@[simp] theorem clearSticky_text (v : Word) (s : State) : (clearSticky v s).text = s.text := rfl
@[simp] theorem clearSticky_arg (v : Word) (s : State) : (clearSticky v s).arg = s.arg := rfl
@[simp] theorem clearSticky_latch (v : Word) (s : State) : (clearSticky v s).latch = s.latch := rfl
@[simp] theorem clearSticky_curX (v : Word) (s : State) : (clearSticky v s).curX = s.curX := rfl
@[simp] theorem clearSticky_curY (v : Word) (s : State) : (clearSticky v s).curY = s.curY := rfl
@[simp] theorem clearSticky_initialized (v : Word) (s : State) : (clearSticky v s).initialized = s.initialized := rfl
@[simp] theorem clearSticky_batch (v : Word) (s : State) : (clearSticky v s).batch = s.batch := rfl
@[simp] theorem clearSticky_ovr (v : Word) (s : State) : (clearSticky v s).ovr = (s.ovr && !v.getLsbD 8) := rfl
@[simp] theorem clearSticky_ill (v : Word) (s : State) : (clearSticky v s).ill = (s.ill && !v.getLsbD 9) := rfl
@[simp] theorem clearSticky_terr (v : Word) (s : State) : (clearSticky v s).terr = (s.terr && !v.getLsbD 10) := rfl
@[simp] theorem clearSticky_result (v : Word) (s : State) : (clearSticky v s).result = s.result := rfl
@[simp] theorem clearSticky_engine (v : Word) (s : State) : (clearSticky v s).engine = s.engine := rfl
@[simp] theorem clearSticky_log (v : Word) (s : State) : (clearSticky v s).log = s.log := rfl
@[simp] theorem clearSticky_inbox (v : Word) (s : State) : (clearSticky v s).inbox = s.inbox := rfl
@[simp] theorem clearSticky_answers (v : Word) (s : State) : (clearSticky v s).answers = s.answers := rfl
@[simp] theorem clearSticky_hostLog (v : Word) (s : State) : (clearSticky v s).hostLog = s.hostLog := rfl
@[simp] theorem clearSticky_answerDraws (v : Word) (s : State) : (clearSticky v s).answerDraws = s.answerDraws := rfl
@[simp] theorem clearSticky_readDraws (v : Word) (s : State) : (clearSticky v s).readDraws = s.readDraws := rfl
@[simp] theorem clearSticky_textDraws (v : Word) (s : State) : (clearSticky v s).textDraws = s.textDraws := rfl

/-! flushTail -/

@[simp] theorem flushTail_cfg (ch : Byte) (s : State) : (flushTail ch s).cfg = s.cfg := rfl
@[simp] theorem flushTail_fb (ch : Byte) (s : State) : (flushTail ch s).fb = s.fb := rfl
@[simp] theorem flushTail_text (ch : Byte) (s : State) : (flushTail ch s).text = s.text := rfl
@[simp] theorem flushTail_arg (ch : Byte) (s : State) : (flushTail ch s).arg = s.arg := rfl
@[simp] theorem flushTail_latch (ch : Byte) (s : State) : (flushTail ch s).latch = s.latch := rfl
@[simp] theorem flushTail_curX (ch : Byte) (s : State) : (flushTail ch s).curX = s.curX := rfl
@[simp] theorem flushTail_curY (ch : Byte) (s : State) : (flushTail ch s).curY = s.curY := rfl
@[simp] theorem flushTail_initialized (ch : Byte) (s : State) : (flushTail ch s).initialized = s.initialized := rfl
@[simp] theorem flushTail_batch (ch : Byte) (s : State) : (flushTail ch s).batch = false := rfl
@[simp] theorem flushTail_ovr (ch : Byte) (s : State) : (flushTail ch s).ovr = s.ovr := rfl
@[simp] theorem flushTail_ill (ch : Byte) (s : State) : (flushTail ch s).ill = s.ill := rfl
@[simp] theorem flushTail_terr (ch : Byte) (s : State) : (flushTail ch s).terr = s.terr := rfl
@[simp] theorem flushTail_result (ch : Byte) (s : State) : (flushTail ch s).result = s.result := rfl
@[simp] theorem flushTail_engine (ch : Byte) (s : State) : (flushTail ch s).engine = .waiting (.page 0 0 (.flushTail ch)) (pageTx s.cfg s.fb 0 0) := rfl
@[simp] theorem flushTail_log (ch : Byte) (s : State) : (flushTail ch s).log = s.log := rfl
@[simp] theorem flushTail_inbox (ch : Byte) (s : State) : (flushTail ch s).inbox = s.inbox := rfl
@[simp] theorem flushTail_answers (ch : Byte) (s : State) : (flushTail ch s).answers = s.answers := rfl
@[simp] theorem flushTail_hostLog (ch : Byte) (s : State) : (flushTail ch s).hostLog = s.hostLog := rfl
@[simp] theorem flushTail_answerDraws (ch : Byte) (s : State) : (flushTail ch s).answerDraws = s.answerDraws := rfl
@[simp] theorem flushTail_readDraws (ch : Byte) (s : State) : (flushTail ch s).readDraws = s.readDraws := rfl
@[simp] theorem flushTail_textDraws (ch : Byte) (s : State) : (flushTail ch s).textDraws = s.textDraws := rfl

/-! dropAnswer: only the model's own two fields of the answers change. -/

@[simp] theorem dropAnswer_cfg (s : State) : s.dropAnswer.cfg = s.cfg := by unfold State.dropAnswer; split <;> rfl
@[simp] theorem dropAnswer_fb (s : State) : s.dropAnswer.fb = s.fb := by unfold State.dropAnswer; split <;> rfl
@[simp] theorem dropAnswer_text (s : State) : s.dropAnswer.text = s.text := by unfold State.dropAnswer; split <;> rfl
@[simp] theorem dropAnswer_arg (s : State) : s.dropAnswer.arg = s.arg := by unfold State.dropAnswer; split <;> rfl
@[simp] theorem dropAnswer_latch (s : State) : s.dropAnswer.latch = s.latch := by unfold State.dropAnswer; split <;> rfl
@[simp] theorem dropAnswer_curX (s : State) : s.dropAnswer.curX = s.curX := by unfold State.dropAnswer; split <;> rfl
@[simp] theorem dropAnswer_curY (s : State) : s.dropAnswer.curY = s.curY := by unfold State.dropAnswer; split <;> rfl
@[simp] theorem dropAnswer_initialized (s : State) : s.dropAnswer.initialized = s.initialized := by unfold State.dropAnswer; split <;> rfl
@[simp] theorem dropAnswer_batch (s : State) : s.dropAnswer.batch = s.batch := by unfold State.dropAnswer; split <;> rfl
@[simp] theorem dropAnswer_ovr (s : State) : s.dropAnswer.ovr = s.ovr := by unfold State.dropAnswer; split <;> rfl
@[simp] theorem dropAnswer_ill (s : State) : s.dropAnswer.ill = s.ill := by unfold State.dropAnswer; split <;> rfl
@[simp] theorem dropAnswer_terr (s : State) : s.dropAnswer.terr = s.terr := by unfold State.dropAnswer; split <;> rfl
@[simp] theorem dropAnswer_result (s : State) : s.dropAnswer.result = s.result := by unfold State.dropAnswer; split <;> rfl
@[simp] theorem dropAnswer_engine (s : State) : s.dropAnswer.engine = s.engine := by unfold State.dropAnswer; split <;> rfl
@[simp] theorem dropAnswer_log (s : State) : s.dropAnswer.log = s.log := by unfold State.dropAnswer; split <;> rfl
@[simp] theorem dropAnswer_inbox (s : State) : s.dropAnswer.inbox = s.inbox := by unfold State.dropAnswer; split <;> rfl
@[simp] theorem dropAnswer_hostLog (s : State) : s.dropAnswer.hostLog = s.hostLog := by unfold State.dropAnswer; split <;> rfl
@[simp] theorem dropAnswer_readDraws (s : State) : s.dropAnswer.readDraws = s.readDraws := by unfold State.dropAnswer; split <;> rfl
@[simp] theorem dropAnswer_textDraws (s : State) : s.dropAnswer.textDraws = s.textDraws := by unfold State.dropAnswer; split <;> rfl

/-! Bit 0 of STATUS is BUSY. -/

@[simp] theorem statusBits_bit0 : ∀ busy initialized batch ovr ill terr : Bool,
    (statusBits busy initialized batch ovr ill terr).getLsbD 0 = busy := by decide

@[simp] theorem statusWord_bit0 (s : State) : s.statusWord.getLsbD 0 = s.busy := statusBits_bit0 _ _ _ _ _ _

/-! BUSY, read from the sequencer. -/

theorem busy_eq_false_iff (s : State) : s.busy = false ↔ s.engine = .idle := by unfold State.busy; split <;> simp_all

theorem busy_eq_true_iff (s : State) : s.busy = true ↔ s.engine ≠ .idle := by unfold State.busy; split <;> simp_all

@[simp] theorem busy_accept (i : Instr) (s : State) : (accept i s).busy = true := rfl
@[simp] theorem busy_complete (c : Completion) (s : State) : (complete c s).busy = false := rfl
@[simp] theorem busy_respond (a : Access) (r : Resp) (d : Word) (s : State) : (s.respond a r d).busy = s.busy := rfl

end Sys2Proof.Machine
end

