-- ==== Sys2Proof/Laws/Run.lean ====
section
/-! SUPPORT. Running a command to its finish: the transport's answers, the page serializer, the completion. Each lemma says once
what a run of atomic steps can do; the commands' laws cite these. -/

namespace Sys2Proof.Machine

/-! ### Answers -/

theorem answerAt_congr {s t : State} (h : t.answers = s.answers) (hd : t.answerDraws = s.answerDraws) (n : Nat) :
    t.answerAt n = s.answerAt n := by
  unfold State.answerAt
  rw [h, hd]

theorem nextAnswer_eq_answerAt (s : State) : s.nextAnswer = s.answerAt 0 := by
  unfold State.nextAnswer State.answerAt
  cases s.answers <;> simp

theorem answerAt_dropAnswer (s : State) (n : Nat) : s.dropAnswer.answerAt n = s.answerAt (n + 1) := by
  unfold State.dropAnswer State.answerAt
  cases h : s.answers with
  | nil => simp; congr 1; omega
  | cons r rest => simp [List.getElem?_cons_succ]

theorem transcript_congr {s t : State} (h : ∀ n, t.answerAt n = s.answerAt n) (n : Nat) (txs : List Tx) :
    transcript t n txs = transcript s n txs := by
  induction txs generalizing n with
  | nil => rfl
  | cons tx rest ih => simp only [transcript, h, ih]

theorem transcript_shift {s t : State} (h : ∀ n, t.answerAt n = s.answerAt (n + 1)) (n : Nat) (txs : List Tx) :
    transcript t n txs = transcript s (n + 1) txs := by
  induction txs generalizing n with
  | nil => rfl
  | cons tx rest ih => simp only [transcript, h, ih]

theorem firstFailure_congr {s t : State} (h : ∀ n, t.answerAt n = s.answerAt n) (n k : Nat) :
    firstFailure t n k = firstFailure s n k := by
  induction k generalizing n with
  | zero => rfl
  | succ k ih => simp only [firstFailure, h, ih]

theorem firstFailure_shift {s t : State} (h : ∀ n, t.answerAt n = s.answerAt (n + 1)) (n k : Nat) :
    firstFailure t n k = (firstFailure s (n + 1) k).map (· - 1) := by
  induction k generalizing n with
  | zero => rfl
  | succ k ih =>
    simp only [firstFailure, h, ih]
    split <;> simp

theorem firstFailure_ge {s : State} {n k j : Nat} (h : firstFailure s n k = some j) :
    n ≤ j ∧ j < n + k ∧ s.answerAt j ≠ .ok ∧ ∀ i, n ≤ i → i < j → s.answerAt i = .ok := by
  induction k generalizing n with
  | zero => cases h
  | succ k ih =>
    simp only [firstFailure] at h
    split at h
    · obtain ⟨h1, h2, h3, h4⟩ := ih h
      refine ⟨by omega, by omega, h3, fun i hi hij => ?_⟩
      rcases Nat.eq_or_lt_of_le hi with rfl | hi
      · assumption
      · exact h4 i hi hij
    · cases h
      exact ⟨Nat.le_refl _, by omega, by assumption, fun i h1 h2 => by omega⟩

theorem firstFailure_none {s : State} {n k : Nat} : firstFailure s n k = none ↔ ∀ i, i < k → s.answerAt (n + i) = .ok := by
  induction k generalizing n with
  | zero => simp [firstFailure]
  | succ k ih =>
    simp only [firstFailure]
    split
    · rename_i h
      rw [ih]
      constructor
      · intro hk i hi
        cases i with
        | zero => exact h
        | succ i => have := hk i (by omega); rwa [Nat.add_right_comm] at this
      · intro hk i hi
        have := hk (i + 1) (by omega)
        rwa [Nat.add_right_comm, Nat.add_assoc]
    · rename_i h
      simp only [reduceCtorEq, false_iff]
      intro hk
      exact h (hk 0 (by omega))

/-! ### Frames of a run -/

/-- What no step of a running flush writes. -/
structure FlushFrame (s t : State) : Prop where
  cfg : t.cfg = s.cfg
  fb : t.fb = s.fb
  text : t.text = s.text
  arg : t.arg = s.arg
  latch : t.latch = s.latch
  curX : t.curX = s.curX
  curY : t.curY = s.curY
  ovr : t.ovr = s.ovr
  ill : t.ill = s.ill
  inbox : t.inbox = s.inbox
  hostLog : t.hostLog = s.hostLog
  readDraws : t.readDraws = s.readDraws
  textDraws : t.textDraws = s.textDraws

theorem FlushFrame.refl (s : State) : FlushFrame s s := ⟨rfl, rfl, rfl, rfl, rfl, rfl, rfl, rfl, rfl, rfl, rfl, rfl, rfl⟩

theorem FlushFrame.trans {s t u : State} (h : FlushFrame s t) (k : FlushFrame t u) : FlushFrame s u :=
  ⟨k.cfg.trans h.cfg, k.fb.trans h.fb, k.text.trans h.text, k.arg.trans h.arg, k.latch.trans h.latch, k.curX.trans h.curX,
   k.curY.trans h.curY, k.ovr.trans h.ovr, k.ill.trans h.ill, k.inbox.trans h.inbox, k.hostLog.trans h.hostLog,
   k.readDraws.trans h.readDraws, k.textDraws.trans h.textDraws⟩


/-- The state once the outstanding transaction has been answered. -/
def answeredState (site : Site) (tx : Tx) (s : State) : State :=
  { s.dropAnswer with
    log := s.log ++ [{ tx := tx, result := s.answerAt 0 }]
    engine := .answered site (s.answerAt 0) }

theorem transportStep_waiting {s : State} {site : Site} {tx : Tx} (h : s.engine = .waiting site tx) :
    transportStep s = answeredState site tx s := by
  simp only [transportStep, h, answeredState, nextAnswer_eq_answerAt]

theorem answeredState_frame (site : Site) (tx : Tx) (s : State) : FlushFrame s (answeredState site tx s) := by
  constructor <;> simp [answeredState]

theorem answerAt_answeredState (site : Site) (tx : Tx) (s : State) (n : Nat) :
    (answeredState site tx s).answerAt n = s.answerAt (n + 1) := by
  rw [← answerAt_dropAnswer]
  exact answerAt_congr rfl rfl n

theorem continueFor_idle {s : State} (h : s.engine = .idle) (n : Nat) : continueFor n s = s := by
  induction n with
  | zero => rfl
  | succ n ih => simpa [continueFor, continueStep, h] using ih

theorem continueFor_finishing {s : State} {c : Completion} (h : s.engine = .finishing c) (n : Nat) :
    continueFor (n + 1) s = complete c s := by
  simp only [continueFor, continueStep, h]
  exact continueFor_idle rfl n

theorem continueFor_waiting {s : State} {site : Site} {tx : Tx} (h : s.engine = .waiting site tx) (n : Nat) :
    continueFor (n + 2) s = continueFor n (resume site (s.answerAt 0) (answeredState site tx s)) := by
  simp only [continueFor, continueStep, h, transportStep_waiting h]
  rfl

/-- A completion about to be recorded is recorded, and nothing else changes. -/
theorem complete_frame (c : Completion) (s : State) : FlushFrame s (complete c s) := by constructor <;> rfl

/-! ### The flush -/

theorem flushTxs_getElem (cfg : Params) (fb : Memory) (p : Fin 8) (k : Fin 4) :
    (flushTxs cfg fb)[4 * p.val + k.val]? = some (pageTx cfg fb p k) := by
  fin_cases p <;> fin_cases k <;> rfl

theorem flushTxs_length (cfg : Params) (fb : Memory) : (flushTxs cfg fb).length = 32 := rfl

theorem flushTxs_drop (cfg : Params) (fb : Memory) (p : Fin 8) (k : Fin 4) :
    (flushTxs cfg fb).drop (4 * p.val + k.val) =
      pageTx cfg fb p k :: (flushTxs cfg fb).drop (4 * p.val + k.val + 1) := by
  have h : 4 * p.val + k.val < (flushTxs cfg fb).length := by rw [flushTxs_length]; omega
  rw [List.drop_eq_getElem_cons h]
  congr 1
  have := flushTxs_getElem cfg fb p k
  rw [List.getElem?_eq_getElem h] at this
  exact Option.some.inj this

theorem nextPageSite_some {p p' : Fin 8} {k k' : Fin 4} (h : nextPageSite p k = some (p', k')) :
    4 * p'.val + k'.val = 4 * p.val + k.val + 1 := by
  unfold nextPageSite at h
  split at h
  · cases h; simp; omega
  · split at h
    · cases h; simp; omega
    · cases h

theorem nextPageSite_none {p : Fin 8} {k : Fin 4} (h : nextPageSite p k = none) : 4 * p.val + k.val = 31 := by
  unfold nextPageSite at h
  split at h
  · cases h
  · split at h
    · cases h
    · omega

/-- What a flush of the framebuffer records when it started at transaction `n`: `s` is the state it starts from. -/
def flushRecord (tail : Tail) (n : Nat) (s : State) : Completion :=
  match firstFailure s 0 (32 - n) with
  | none => { code := .ok, char := tail.char }
  | some j => { code := .transportFail, tkind := s.answerAt j, char := tail.char, fpage := BitVec.ofNat 3 ((n + j) / 4) }

/-- INIT's flush sets INITIALIZED when it succeeds (R88). -/
def flushInitialized (tail : Tail) (n : Nat) (s : State) : Bool :=
  match tail, firstFailure s 0 (32 - n) with
  | .init, none => true
  | _, _ => s.initialized

/-- The whole flush, from transaction `4p + k` on: the log grows by the transcript, the completion is recorded, and nothing
else changes. -/
theorem continueFor_flush (m : Nat) : ∀ (p : Fin 8) (k : Fin 4) (tail : Tail) (s : State) (N : Nat),
    m = 32 - (4 * p.val + k.val) → s.engine = .waiting (.page p k tail) (pageTx s.cfg s.fb p k) → 2 * m + 1 ≤ N →
    FlushFrame s (continueFor N s) ∧ (continueFor N s).engine = .idle ∧ (continueFor N s).batch = false ∧
    (continueFor N s).log = s.log ++ transcript s 0 ((flushTxs s.cfg s.fb).drop (4 * p.val + k.val)) ∧
    (continueFor N s).result = { op := s.latch.op, info := flushRecord tail (4 * p.val + k.val) s } ∧
    (continueFor N s).terr = terrAfter s.terr (flushRecord tail (4 * p.val + k.val) s).code ∧
    (continueFor N s).initialized = flushInitialized tail (4 * p.val + k.val) s := by
  induction m with
  | zero => intro p k tail s N hm; omega
  | succ m ih =>
    intro p k tail s N hm he hN
    obtain ⟨N, rfl⟩ : ∃ M, N = M + 2 := ⟨N - 2, by omega⟩
    rw [continueFor_waiting he]
    have hsub : 32 - (4 * p.val + k.val) = m + 1 := hm.symm
    have hfr := answeredState_frame (.page p k tail) (pageTx s.cfg s.fb p k) s
    have hans := answerAt_answeredState (.page p k tail) (pageTx s.cfg s.fb p k) s
    obtain ⟨N, rfl⟩ : ∃ M, N = M + 1 := ⟨N - 1, by omega⟩
    by_cases hr : s.answerAt 0 = .ok
    · -- the answer is OK: the next transaction, or the end
      rw [resume, if_pos hr]
      cases hn : nextPageSite p k with
      | none =>
        have h31 := nextPageSite_none hn
        have hff : firstFailure s 0 (32 - (4 * p.val + k.val)) = none := by simp [h31, firstFailure, hr]
        have htr : transcript s 0 ((flushTxs s.cfg s.fb).drop (4 * p.val + k.val)) =
            [{ tx := pageTx s.cfg s.fb p k, result := s.answerAt 0 }] := by
          rw [flushTxs_drop, h31]
          have hd : (flushTxs s.cfg s.fb).drop (31 + 1) = [] := List.drop_eq_nil_of_le (Nat.le_of_eq (flushTxs_length _ _))
          rw [hd]
          simp [transcript]
        cases tail with
        | init =>
          simp only [afterOk, hn, flushOk, continueFor_finishing (c := { code := .ok }) (s := finishWith _ _) rfl, htr,
            flushRecord, flushInitialized, hff]
          refine ⟨?_, rfl, rfl, rfl, ?_, ?_, rfl⟩
          · exact FlushFrame.trans hfr (by constructor <;> rfl)
          · simp [complete, finishWith, hfr.latch, Tail.char]
          · simp [complete, finishWith, answeredState]
        | flushTail ch =>
          simp only [afterOk, hn, flushOk, continueFor_finishing (c := { code := .ok, char := ch }) (s := finishWith _ _) rfl, htr,
            flushRecord, flushInitialized, hff]
          refine ⟨?_, rfl, rfl, rfl, ?_, ?_, ?_⟩
          · exact FlushFrame.trans hfr (by constructor <;> rfl)
          · simp [complete, finishWith, hfr.latch, Tail.char]
          · simp [complete, finishWith, answeredState]
          · simp [complete, finishWith, answeredState]
      | some pk =>
        obtain ⟨p', k'⟩ := pk
        have hnext := nextPageSite_some hn
        simp only [afterOk, hn]
        generalize hu : issuePage p' k' tail (answeredState (.page p k tail) (pageTx s.cfg s.fb p k) s) = u
        have hufr : FlushFrame s u := by rw [← hu]; exact FlushFrame.trans hfr (by constructor <;> rfl)
        have hueng : u.engine = .waiting (.page p' k' tail) (pageTx u.cfg u.fb p' k') := by rw [← hu]; rfl
        have huans : ∀ n, u.answerAt n = s.answerAt (n + 1) := by rw [← hu]; exact hans
        have hulog : u.log = s.log ++ [{ tx := pageTx s.cfg s.fb p k, result := s.answerAt 0 }] := by rw [← hu]; rfl
        have huterr : u.terr = s.terr := by rw [← hu]; simp [issuePage, issue, answeredState]
        have huinit : u.initialized = s.initialized := by rw [← hu]; simp [issuePage, issue, answeredState]
        obtain ⟨i1, i2, i3, i4, i5, i6, i7⟩ := ih p' k' tail u (N + 1) (by omega) hueng (by omega)
        have hm' : 32 - (4 * p'.val + k'.val) = m := by omega
        have hff : firstFailure s 0 (32 - (4 * p.val + k.val)) =
            (firstFailure u 0 (32 - (4 * p'.val + k'.val))).map (· + 1) := by
          rw [hsub, hm', firstFailure_shift huans]
          simp only [firstFailure, hr, if_true, Option.map_map]
          cases hc : firstFailure s (0 + 1) m with
          | none => rfl
          | some j => have := (firstFailure_ge hc).1; simp; omega
        have hrec : flushRecord tail (4 * p'.val + k'.val) u = flushRecord tail (4 * p.val + k.val) s := by
          unfold flushRecord
          rw [hff]
          cases firstFailure u 0 (32 - (4 * p'.val + k'.val)) with
          | none => rfl
          | some j =>
            simp only [Option.map_some, huans, hnext]
            congr 2
            omega
        refine ⟨hufr.trans i1, i2, i3, ?_, ?_, ?_, ?_⟩
        · rw [i4, hulog, hufr.cfg, hufr.fb, hnext, flushTxs_drop, transcript, if_pos hr,
            transcript_shift huans, List.append_assoc]
          rfl
        · rw [i5, hrec, hufr.latch]
        · rw [i6, hrec, huterr]
        · rw [i7]
          unfold flushInitialized
          rw [hff, huinit]
          cases firstFailure u 0 (32 - (4 * p'.val + k'.val)) <;> cases tail <;> rfl
    · -- the answer is a failure: the command ends at once
      rw [resume, if_neg hr, continueFor_finishing (c := transportFailure (.page p k tail) (s.answerAt 0)) rfl]
      have hff : firstFailure s 0 (32 - (4 * p.val + k.val)) = some 0 := by simp [hsub, firstFailure, hr]
      have hpage : BitVec.ofNat 3 p.val = BitVec.ofNat 3 ((4 * p.val + k.val + 0) / 4) := by congr 1; omega
      refine ⟨?_, rfl, rfl, ?_, ?_, ?_, ?_⟩
      · exact FlushFrame.trans hfr (by constructor <;> rfl)
      · rw [flushTxs_drop]
        simp [transcript, hr, complete, finishWith, answeredState]
      · simp only [complete, finishWith, flushRecord, hff, transportFailure, hpage, hfr.latch]
      · simp [complete, finishWith, flushRecord, hff, transportFailure, answeredState]
      · simp only [complete, finishWith, flushInitialized, hff, answeredState]
        cases tail <;> simp

end Sys2Proof.Machine
end

