-- ==== Sys2Proof/Laws/Commands.lean ====
section
/-! SUPPORT. How a command ends, once for all of them: by FlushTail or without a flush. Each meaning's result follows from one of
the two lemmas and from what its first segment draws. -/

namespace Sys2Proof.Machine

/-- `u` is `s` with command `i` accepted and, beside that, only the framebuffer, the cursor, INITIALIZED, BATCH and the sequencer
changed: what a first segment may do before its flush or its finish. -/
structure Prepared (i : Instr) (s u : State) : Prop where
  cfg : u.cfg = s.cfg
  text : u.text = s.text
  arg : u.arg = s.arg
  latch : u.latch = { op := i.opcode, color := i.color, font := i.font, l := s.arg }
  ovr : u.ovr = s.ovr
  ill : u.ill = s.ill
  terr : u.terr = s.terr
  log : u.log = s.log
  inbox : u.inbox = s.inbox
  answers : u.answers = s.answers
  answerDraws : u.answerDraws = s.answerDraws
  hostLog : u.hostLog = s.hostLog
  readDraws : u.readDraws = s.readDraws
  textDraws : u.textDraws = s.textDraws

theorem accept_prepared (i : Instr) (s : State) : Prepared i s (accept i s) := by constructor <;> rfl

/-- What drawing, cursor moves and flag writes keep of a prepared state. -/
theorem Prepared.update {i : Instr} {s u : State} (h : Prepared i s u) (fb : Memory) (x y : Half) (init batch : Bool)
    (e : Engine) :
    Prepared i s { u with fb := fb, curX := x, curY := y, initialized := init, batch := batch, engine := e } :=
  ⟨h.cfg, h.text, h.arg, h.latch, h.ovr, h.ill, h.terr, h.log, h.inbox, h.answers, h.answerDraws, h.hostLog, h.readDraws,
   h.textDraws⟩

theorem Prepared.answerAt {i : Instr} {s u : State} (h : Prepared i s u) (n : Nat) : u.answerAt n = s.answerAt n :=
  answerAt_congr h.answers h.answerDraws n

theorem Prepared.keeps {i : Instr} {s u t : State} (h : Prepared i s u) (k : FlushFrame u t) : KeepsRegisters s t :=
  ⟨k.cfg.trans h.cfg, k.text.trans h.text, k.arg.trans h.arg, k.ovr.trans h.ovr, k.ill.trans h.ill, k.inbox.trans h.inbox,
   k.hostLog.trans h.hostLog, k.readDraws.trans h.readDraws, k.textDraws.trans h.textDraws⟩

/-- A command that ends without a flush: one completion, and everything its segment left stays. -/
theorem run_finish {i : Instr} {segment : State → State} {s u : State} {c : Completion}
    (hseg : segment (accept i s) = finishWith c u) (hu : Prepared i s u) (hc : c.code ≠ .transportFail) :
    ∃ t, runCommand i segment s = .next t ∧ Unflushed i.opcode c s t ∧ KeepsRegisters s t ∧ Latched i s t ∧
      t.fb = u.fb ∧ t.curX = u.curX ∧ t.curY = u.curY ∧ t.initialized = u.initialized ∧ t.engine = .idle := by
  have hrun : continueFor (stepBound s.cfg) (finishWith c u) = complete c (finishWith c u) :=
    continueFor_finishing (c := c) rfl _
  refine ⟨complete c (finishWith c u), by rw [runCommand, hseg, hrun], ?_, ?_, hu.latch, rfl, rfl, rfl, rfl, rfl⟩
  · constructor
    · exact hu.log
    · simp only [complete, finishWith, hu.latch]
    · simp [complete, finishWith, terrAfter, hc, hu.terr]
    · rfl
    · rfl
  · exact hu.keeps (FlushFrame.trans (t := finishWith c u) (by constructor <;> rfl) (complete_frame c _))

theorem stepBound_flush (p : Params) : 2 * 32 + 1 ≤ stepBound p := by unfold stepBound; omega

/-- A command that ends with FlushTail(ch): the flush is the last thing it does. -/
theorem run_flushTail {i : Instr} {segment : State → State} {s u : State} {ch : Byte}
    (hseg : segment (accept i s) = flushTail ch u) (hu : Prepared i s u) :
    ∃ t, runCommand i segment s = .next t ∧ Flushed i.opcode ch s t ∧ KeepsRegisters s t ∧ Latched i s t ∧
      t.fb = u.fb ∧ t.curX = u.curX ∧ t.curY = u.curY ∧ t.initialized = u.initialized ∧ t.engine = .idle := by
  have hu' : Prepared i s (flushTail ch u) := hu.update u.fb u.curX u.curY u.initialized false _
  obtain ⟨hfr, hidle, hbatch, hlog, hres, hterr, hinit⟩ :=
    continueFor_flush 32 0 0 (.flushTail ch) (flushTail ch u) (stepBound s.cfg) rfl rfl (stepBound_flush s.cfg)
  refine ⟨continueFor (stepBound s.cfg) (flushTail ch u), by rw [runCommand, hseg], ?_, hu'.keeps hfr, ?_, hfr.fb, hfr.curX,
    hfr.curY, hinit, hidle⟩
  · constructor
    · rw [hlog, hu'.log, transcript_congr hu'.answerAt, hfr.fb, hu'.cfg]
      rfl
    · rw [hres, hterr, hu'.latch, hu'.terr]
      have hff : firstFailure (flushTail ch u) 0 32 = firstFailure s 0 32 := firstFailure_congr hu'.answerAt 0 32
      simp only [flushRecord, Fin.val_zero, Nat.mul_zero, Nat.add_zero, Nat.sub_zero, hff]
      cases hcase : firstFailure s 0 32 with
      | none => simp [terrAfter, Tail.char]
      | some n => simp [terrAfter, Tail.char, hu'.answerAt]
    · simp [State.busy, hidle]
    · exact hbatch
  · exact hfr.latch.trans hu'.latch

/-! ### Drawing in the command's own colour -/

theorem at16_eq {x y : Nat} (hx : x < 128) (hy : y < 64) (p : Point) :
    (p.1.toNat = x ∧ p.2.toNat = y) ↔ p = at16 x y := by
  obtain ⟨a, b⟩ := p
  constructor
  · rintro ⟨rfl, rfl⟩
    simp [at16]
  · intro h
    simp only [at16, Prod.mk.injEq] at h
    rw [h.1, h.2]
    simp only [BitVec.toNat_ofNat]
    omega

/-- Drawing a list of positions draws exactly its positions on the panel. -/
theorem drew_putPoints {s t : State} {ps : List Point} {c : Bool} {P : Nat → Nat → Prop}
    (hfb : t.fb = putPoints ps c s.fb) (hP : ∀ x y, x < 128 → y < 64 → (P x y ↔ at16 x y ∈ ps)) : Drew P c s t := by
  have hmem : ∀ x y, x < 128 → y < 64 → (P x y ↔ ∃ p ∈ ps, p.1.toNat = x ∧ p.2.toNat = y) := by
    intro x y hx hy
    rw [hP x y hx hy]
    constructor
    · exact fun h => ⟨at16 x y, h, (at16_eq hx hy _).mpr rfl⟩
    · rintro ⟨p, hp, hxy⟩
      rw [← (at16_eq hx hy p).mp hxy]
      exact hp
  refine ⟨fun x y hx hy h => ?_, fun x y hx hy h => ?_, fun a h => ?_⟩
  · rw [hfb]
    exact (pixelAt_putPoints ps c s.fb hx hy).1 ((hmem x y hx hy).mp h)
  · rw [hfb]
    exact (pixelAt_putPoints ps c s.fb hx hy).2 fun h' => h ((hmem x y hx hy).mpr h')
  · rw [hfb]
    exact read_putPoints_ne ps c s.fb a fun p hp h1 h2 =>
      h _ _ h1 h2 ((hmem _ _ h1 h2).mpr ⟨p, hp, rfl, rfl⟩)

/-- A shape command: its drawing and one flush (R107). -/
theorem run_shape {i : Instr} {segment : State → State} {s : State} {points : List Point} {P : Nat → Nat → Prop}
    (hseg : segment (accept i s) = shapeSegment points (accept i s))
    (hP : ∀ x y, x < 128 → y < 64 → (P x y ↔ at16 x y ∈ points)) :
    ∃ t, runCommand i segment s = .next t ∧ Drew P i.color s t ∧ Flushed i.opcode 0 s t ∧ KeepsRegisters s t ∧
      KeepsCursor s t ∧ Latched i s t := by
  have hu : Prepared i s (State.draw points { accept i s with batch := true }) :=
    (accept_prepared i s).update _ s.curX s.curY s.initialized true _
  obtain ⟨t, h1, h2, h3, h4, h5, h6, h7, h8, _⟩ := run_flushTail (hseg.trans rfl) hu
  exact ⟨t, h1, drew_putPoints h5 hP, h2, h3, ⟨h6, h7, h8⟩, h4⟩

end Sys2Proof.Machine
end

