-- ==== Sys2Proof/Laws/Line.lean ====
section
/-! SUPPORT. Horizontal and vertical lines, which the shapes are mostly made of (R99, R106). -/

namespace Sys2Proof.Machine

theorem mem_span {a b v : Int} : v ∈ span a b ↔ a ≤ v ∧ v ≤ b := by
  simp only [span, List.mem_map, List.mem_range]
  constructor
  · rintro ⟨k, hk, rfl⟩; omega
  · intro h; exact ⟨(v - a).toNat, by omega, by omega⟩

theorem toNat_mod16 (v : Int) : (mod16 v).toNat = (v % 65536).toNat := by
  simp [mod16, BitVec.toNat_ofInt]

/-- A panel position is the 16-bit form of exact panel coordinates only if it is those coordinates. -/
theorem at16_eq_mod16 {x y : Nat} {u v : Int} (hx : x < 128) (hy : y < 64) (hu : 0 ≤ u ∧ u < 65536) (hv : 0 ≤ v ∧ v < 65536) :
    at16 x y = (mod16 u, mod16 v) ↔ u = x ∧ v = y := by
  rw [eq_comm, ← at16_eq hx hy]
  simp only [toNat_mod16]
  omega

/-- A vertical line, a single point included. -/
theorem mem_clampedLine_vertical {X Y0 Y1 : Int} {x y : Nat} (hx : x < 128) (hy : y < 64) (hX : 0 ≤ X ∧ X < 128)
    (h0 : 0 ≤ Y0 ∧ Y0 < 64) (h1 : 0 ≤ Y1 ∧ Y1 < 64) :
    at16 x y ∈ clampedLine X Y0 X Y1 ↔ X = x ∧ min Y0 Y1 ≤ y ∧ y ≤ max Y0 Y1 := by
  simp only [clampedLine, Int.sub_self, show absInt 0 = 0 from rfl, if_true, List.mem_map, mem_span]
  constructor
  · rintro ⟨v, hv, heq⟩
    obtain ⟨h2, h3⟩ := (at16_eq_mod16 hx hy (by omega) (by omega)).mp heq.symm
    omega
  · rintro ⟨h2, h3⟩
    exact ⟨y, by omega, ((at16_eq_mod16 hx hy (by omega) (by omega)).mpr ⟨h2, rfl⟩).symm⟩

/-- A horizontal line, a single point included. -/
theorem mem_clampedLine_horizontal {X0 X1 Y : Int} {x y : Nat} (hx : x < 128) (hy : y < 64) (hY : 0 ≤ Y ∧ Y < 64)
    (h0 : 0 ≤ X0 ∧ X0 < 128) (h1 : 0 ≤ X1 ∧ X1 < 128) :
    at16 x y ∈ clampedLine X0 Y X1 Y ↔ Y = y ∧ min X0 X1 ≤ x ∧ x ≤ max X0 X1 := by
  by_cases hd : X0 = X1
  · subst hd
    rw [mem_clampedLine_vertical hx hy h0 hY hY]
    omega
  · have habs : absInt (X1 - X0) ≠ 0 := by unfold absInt; split <;> omega
    simp only [clampedLine, Int.sub_self, if_neg habs, show absInt 0 = 0 from rfl, if_true, List.mem_map, mem_span]
    constructor
    · rintro ⟨v, hv, heq⟩
      obtain ⟨h2, h3⟩ := (at16_eq_mod16 hx hy (by omega) (by omega)).mp heq.symm
      omega
    · rintro ⟨h2, h3⟩
      exact ⟨x, by omega, ((at16_eq_mod16 hx hy (by omega) (by omega)).mpr ⟨rfl, h2⟩).symm⟩

theorem clampX_eq (x : Half) : clampX x = (min x.toNat 127 : Nat) := by unfold clampX; split <;> omega

theorem clampY_eq (y : Half) : clampY y = (min y.toNat 63 : Nat) := by unfold clampY; split <;> omega

/-- Line between end points in one row. -/
theorem mem_linePoints_row {x0 y0 x1 y1 : Half} {x y : Nat} (hx : x < 128) (hy : y < 64)
    (hrow : min y0.toNat 63 = min y1.toNat 63) :
    at16 x y ∈ linePoints x0 y0 x1 y1 ↔ min y0.toNat 63 = y ∧ min (min x0.toNat 127) (min x1.toNat 127) ≤ x ∧
      x ≤ max (min x0.toNat 127) (min x1.toNat 127) := by
  rw [linePoints, clampX_eq, clampX_eq, clampY_eq, clampY_eq, ← hrow,
    mem_clampedLine_horizontal hx hy (by omega) (by omega) (by omega)]
  omega

/-- Line between end points in one column. -/
theorem mem_linePoints_column {x0 y0 x1 y1 : Half} {x y : Nat} (hx : x < 128) (hy : y < 64)
    (hcol : min x0.toNat 127 = min x1.toNat 127) :
    at16 x y ∈ linePoints x0 y0 x1 y1 ↔ min x0.toNat 127 = x ∧ min (min y0.toNat 63) (min y1.toNat 63) ≤ y ∧
      y ≤ max (min y0.toNat 63) (min y1.toNat 63) := by
  rw [linePoints, clampX_eq, clampX_eq, clampY_eq, clampY_eq, ← hcol,
    mem_clampedLine_vertical hx hy (by omega) (by omega) (by omega)]
  omega

/-- Line by its clamped end points. -/
theorem linePoints_eq_clampedLine (x0 y0 x1 y1 : Half) :
    linePoints x0 y0 x1 y1 =
      clampedLine (min x0.toNat 127 : Nat) (min y0.toNat 63 : Nat) (min x1.toNat 127 : Nat) (min y1.toNat 63 : Nat) := by
  rw [linePoints, clampX_eq, clampX_eq, clampY_eq, clampY_eq]

end Sys2Proof.Machine
end

