-- ==== Sys2Proof/Laws/PerInstr.lean ====
section
/-! SUPPORT. What holds of every instruction as syntax, one lemma per constructor. -/

namespace Sys2Proof

/-- The word of an instruction has format C's reserved bits 0, matches the instruction's row of the opcode table, and its fields
read back (R64, R65). -/
def Laws.TableRow.Statement (i : Instr) : Prop :=
  rsv1Field (encode i) = 0 ∧ rsv0Field (encode i) = 0 ∧ encode i &&& formatMask = i.tableMatch ∧ opField (encode i) = i.opcode ∧
    colorField (encode i) = i.color ∧ fontField (encode i) = i.font

/-- The same of a word given by its fields, for every COLOR and FONT. -/
theorem Laws.packFields_fields : ∀ (c : Bool) (f : BitVec 4) (n : Fin 16),
    rsv1Field (packFields (BitVec.ofNat 8 n.val) c f) = 0 ∧ rsv0Field (packFields (BitVec.ofNat 8 n.val) c f) = 0 ∧
      packFields (BitVec.ofNat 8 n.val) c f &&& formatMask = BitVec.ofNat 32 n.val ∧
      opField (packFields (BitVec.ofNat 8 n.val) c f) = BitVec.ofNat 8 n.val ∧
      colorField (packFields (BitVec.ofNat 8 n.val) c f) = c ∧ fontField (packFields (BitVec.ofNat 8 n.val) c f) = f := by
  decide

theorem Laws.TableRow.init (c : Bool) (f : BitVec 4) : Laws.TableRow.Statement (.init c f) := Laws.packFields_fields c f 1

theorem Laws.TableRow.clear (c : Bool) (f : BitVec 4) : Laws.TableRow.Statement (.clear c f) := Laws.packFields_fields c f 2

theorem Laws.TableRow.allon (c : Bool) (f : BitVec 4) : Laws.TableRow.Statement (.allon c f) := Laws.packFields_fields c f 3

theorem Laws.TableRow.flush (c : Bool) (f : BitVec 4) : Laws.TableRow.Statement (.flush c f) := Laws.packFields_fields c f 4

theorem Laws.TableRow.setpixel (c : Bool) (f : BitVec 4) : Laws.TableRow.Statement (.setpixel c f) := Laws.packFields_fields c f 5

theorem Laws.TableRow.line (c : Bool) (f : BitVec 4) : Laws.TableRow.Statement (.line c f) := Laws.packFields_fields c f 6

theorem Laws.TableRow.rect (c : Bool) (f : BitVec 4) : Laws.TableRow.Statement (.rect c f) := Laws.packFields_fields c f 7

theorem Laws.TableRow.frect (c : Bool) (f : BitVec 4) : Laws.TableRow.Statement (.frect c f) := Laws.packFields_fields c f 8

theorem Laws.TableRow.tri (c : Bool) (f : BitVec 4) : Laws.TableRow.Statement (.tri c f) := Laws.packFields_fields c f 9

theorem Laws.TableRow.ftri (c : Bool) (f : BitVec 4) : Laws.TableRow.Statement (.ftri c f) := Laws.packFields_fields c f 10

theorem Laws.TableRow.circle (c : Bool) (f : BitVec 4) : Laws.TableRow.Statement (.circle c f) := Laws.packFields_fields c f 11

theorem Laws.TableRow.fcircle (c : Bool) (f : BitVec 4) : Laws.TableRow.Statement (.fcircle c f) := Laws.packFields_fields c f 12

theorem Laws.TableRow.char (c : Bool) (f : BitVec 4) : Laws.TableRow.Statement (.char c f) := Laws.packFields_fields c f 13

theorem Laws.TableRow.str (c : Bool) (f : BitVec 4) : Laws.TableRow.Statement (.str c f) := Laws.packFields_fields c f 14

theorem Laws.TableRow.gotoxy (c : Bool) (f : BitVec 4) : Laws.TableRow.Statement (.gotoxy c f) := Laws.packFields_fields c f 15

end Sys2Proof
end

