-- ==== Sys2Proof/Laws/Port.lean ====
section
/-! SUPPORT. The host port: which offset reaches which register, and everything one host access can do. -/

namespace Sys2Proof.Machine

theorem ofNat_toNat_offset {addr : Offset} {n : Nat} (h : addr.toNat = n) : addr = BitVec.ofNat 12 n := by
  rw [← h, BitVec.ofNat_toNat, BitVec.setWidth_eq]

theorem regAt_status {addr : Offset} (h : regAt addr = some .status) : addr = 0x008 := by
  simp only [regAt] at h
  split at h
  · cases h
  repeat (first | (split at h; · first | (cases h; done) | exact ofNat_toNat_offset ‹_›) | cases h)

theorem regAt_arg {addr : Offset} {n : Fin 6} (h : regAt addr = some (.arg n)) :
    0x010 ≤ addr.toNat ∧ addr.toNat < 0x028 ∧ addr.toNat = 0x010 + 4 * n.val := by
  simp only [regAt] at h
  split at h
  · cases h
  repeat (split at h; · first | (cases h; done) | (injection h with h; injection h with h; subst h; simp only; omega))
  cases h

theorem regAt_text {addr : Offset} {k : Fin 64} (h : regAt addr = some (.text k)) :
    0x100 ≤ addr.toNat ∧ addr.toNat < 0x200 ∧ addr.toNat = 0x100 + 4 * k.val := by
  simp only [regAt] at h
  split at h
  · cases h
  repeat (split at h; · first | (cases h; done) | (injection h with h; injection h with h; subst h; simp only; omega))
  cases h

/-- What a host access does beside its response (R48, R53, R159). -/
inductive PortEffect (a : Access) (s : State) : State → Prop
  | none : PortEffect a s s
  | draw : s.busy = true → PortEffect a s { s with readDraws := s.readDraws + 1 }
  | accept (w : Word) (i : Instr) : a = .write 4 0x004 w → s.busy = false → decode s.cfg w = .ok i → PortEffect a s (accept i s)
  | reject (w : Word) (e : DecodeError) : a = .write 4 0x004 w → s.busy = false → decode s.cfg w = .error e →
      PortEffect a s (rejectWord w s)
  | overrun : s.busy = true → PortEffect a s (setOvr s)
  | clear (v : Word) : a = .write 4 0x008 v → PortEffect a s (clearSticky v s)
  | arg (addr : Offset) (n : Fin 6) (v : Word) : a = .write 4 addr v → addr.toNat = 0x010 + 4 * n.val →
      PortEffect a s { s with arg := s.arg.set n (v.extractLsb' 0 16) }
  | text (addr : Offset) (k : Fin 64) (v : Word) : a = .write 4 addr v → addr.toNat = 0x100 + 4 * k.val → s.busy = false →
      PortEffect a s { s with text := writeTextWord s.text k v }

theorem regAt_cmd {addr : Offset} (h : regAt addr = some .cmd) : addr = 0x004 := by
  simp only [regAt] at h
  split at h
  · cases h
  repeat (first | (split at h; · first | (cases h; done) | exact ofNat_toNat_offset ‹_›) | cases h)

theorem accessReg_some {width : Nat} {addr : Offset} {r : Reg} (h : accessReg width addr = some r) :
    width = 4 ∧ regAt addr = some r := by
  unfold accessReg at h
  split at h
  · exact ⟨‹_›, h⟩
  · cases h

/-- Every host access is one of these, and the host sees its response. -/
theorem hostAccess_cases (a : Access) (s : State) :
    ∃ u resp data, PortEffect a s u ∧ hostAccess a s = u.respond a resp data := by
  cases a with
  | read width addr =>
    simp only [hostAccess, hostRead]
    split
    · exact ⟨s, _, _, .none, rfl⟩
    · rename_i r h
      by_cases hb : s.busy = true
      · exact ⟨_, _, _, .draw hb, by simp only [hb, if_true]; rfl⟩
      · exact ⟨s, _, _, .none, by simp only [hb, Bool.false_eq_true, if_false]; rfl⟩
  | write width addr v =>
    simp only [hostAccess, hostWrite]
    cases hr : accessReg width addr with
    | none => exact ⟨s, _, _, .none, rfl⟩
    | some r =>
      obtain ⟨rfl, hreg⟩ := accessReg_some hr
      cases r with
      | id => exact ⟨s, _, _, .none, rfl⟩
      | result => exact ⟨s, _, _, .none, rfl⟩
      | cursor => exact ⟨s, _, _, .none, rfl⟩
      | fbwin k => exact ⟨s, _, _, .none, rfl⟩
      | cmd =>
        obtain rfl := regAt_cmd hreg
        simp only [Option.bind_some, writeReg]
        by_cases hb : s.busy = true
        · exact ⟨_, _, _, .overrun hb, by simp only [hb, if_true]; rfl⟩
        · have hb' : s.busy = false := by simpa using hb
          simp only [hb', Bool.false_eq_true, if_false]
          cases hd : decode s.cfg v with
          | ok i => exact ⟨_, _, _, .accept v i rfl hb' hd, rfl⟩
          | error e => exact ⟨_, _, _, .reject v e rfl hb' hd, rfl⟩
      | status =>
        obtain rfl := regAt_status hreg
        exact ⟨_, _, _, .clear v rfl, rfl⟩
      | arg n => exact ⟨_, _, _, .arg addr n v rfl (regAt_arg hreg).2.2, rfl⟩
      | text k =>
        simp only [Option.bind_some, writeReg]
        by_cases hb : s.busy = true
        · exact ⟨_, _, _, .overrun hb, by simp only [hb, if_true]; rfl⟩
        · have hb' : s.busy = false := by simpa using hb
          exact ⟨_, _, _, .text addr k v rfl (regAt_text hreg).2.2 hb', by simp only [hb', Bool.false_eq_true, if_false]; rfl⟩

/-- One poll of STATUS (R75, R160): only the host's record and the draw counter change, and bit 0 of the data is BUSY. -/
theorem hostAccess_statusRead (s : State) :
    ∃ d n, hostAccess statusRead s = State.respond statusRead .ok d { s with readDraws := n } ∧
      (s.busy = false → d = s.statusWord) := by
  refine ⟨readData s .status, if s.busy then s.readDraws + 1 else s.readDraws, rfl, fun h => ?_⟩
  simp only [readData, h, Bool.false_eq_true, if_false, idleRead]

end Sys2Proof.Machine
end

