-- ==== Sys2Proof/Laws/Segment.lean ====
section
/-! SUPPORT. What one engine segment can do, once for all commands: which fields it may write, that it keeps the framebuffer's
canonical form, and where it leaves the sequencer. -/

namespace Sys2Proof.Machine

/-! ### The glyph step and the string loop -/

/-- The glyph step ends in one of three ways (R127). -/
theorem drawCharOp_cases (x y : Half) (ch : Byte) (f : BitVec 4) (c : Bool) (s : State) :
    drawCharOp x y ch f c s = (.badGlyph, s) ∨
    (∃ u, (u = s ∨ u = reposition x y s) ∧ drawCharOp x y ch f c s = (.glyphRejected, u)) ∨
    drawCharOp x y ch f c s = (.ok, plotGlyph (fontOf s.cfg f) ch c (reposition x y s)) := by
  simp only [drawCharOp]
  split
  · exact .inl rfl
  · split
    · split
      · exact .inr (.inl ⟨s, .inl rfl, rfl⟩)
      · exact .inr (.inr rfl)
    · split
      · exact .inr (.inl ⟨_, .inr rfl, rfl⟩)
      · exact .inr (.inr rfl)

/-- `t` is `s` but for its framebuffer and its cursor, and it has a canonical framebuffer where `s` has one. -/
structure OnlyDrew (s t : State) : Prop where
  eq : t = { s with fb := t.fb, curX := t.curX, curY := t.curY }
  wf : s.fb.wf = true → t.fb.wf = true
  inFb : s.fb.inFb = true → t.fb.inFb = true

theorem OnlyDrew.refl (s : State) : OnlyDrew s s := ⟨rfl, id, id⟩

theorem OnlyDrew.trans {s t u : State} (h : OnlyDrew s t) (k : OnlyDrew t u) : OnlyDrew s u :=
  ⟨by rw [k.eq, h.eq], fun w => k.wf (h.wf w), fun w => k.inFb (h.inFb w)⟩

theorem reposition_onlyDrew (x y : Half) (s : State) : OnlyDrew s (reposition x y s) := by
  unfold reposition
  split
  · exact .refl s
  · exact ⟨rfl, id, id⟩

theorem plotGlyph_onlyDrew (font : Font) (ch : Byte) (c : Bool) (s : State) : OnlyDrew s (plotGlyph font ch c s) :=
  ⟨rfl, wf_putDots _, inFb_putDots _⟩

theorem drawCharOp_onlyDrew (x y : Half) (ch : Byte) (f : BitVec 4) (c : Bool) (s : State) :
    OnlyDrew s (drawCharOp x y ch f c s).2 := by
  obtain h | ⟨u, rfl | rfl, h⟩ | h := drawCharOp_cases x y ch f c s <;> rw [h]
  · exact .refl s
  · exact .refl _
  · exact reposition_onlyDrew x y s
  · exact (reposition_onlyDrew x y s).trans (plotGlyph_onlyDrew _ ch c _)

/-- A failed glyph step's code, as STR and CHAR report it (R137). -/
theorem drawCharOp_code (x y : Half) (ch : Byte) (f : BitVec 4) (c : Bool) (s : State) :
    (drawCharOp x y ch f c s).1 = .ok ∨ (drawCharOp x y ch f c s).1 = .badGlyph ∨ (drawCharOp x y ch f c s).1 = .glyphRejected := by
  obtain h | ⟨u, _, h⟩ | h := drawCharOp_cases x y ch f c s <;> simp [h]

theorem strLoop_onlyDrew (x y : Half) (f : BitVec 4) (c : Bool) (bytes : List Byte) (s : State) :
    OnlyDrew s (strLoop x y f c bytes s).2 := by
  induction bytes generalizing s with
  | nil => exact .refl s
  | cons ch rest ih =>
    simp only [strLoop]
    split
    · exact .refl s
    · have hd := drawCharOp_onlyDrew x y ch f c s
      split
      · rename_i s' heq
        rw [heq] at hd
        exact hd.trans (ih s')
      · rename_i code s' _ heq
        rw [heq] at hd
        exact hd

theorem strLoop_code (x y : Half) (f : BitVec 4) (c : Bool) (bytes : List Byte) (s : State) (code : Code) (ch : Byte)
    (h : (strLoop x y f c bytes s).1 = some (code, ch)) : code = .badGlyph ∨ code = .glyphRejected := by
  induction bytes generalizing s with
  | nil => cases h
  | cons b rest ih =>
    simp only [strLoop] at h
    split at h
    · cases h
    · have hd := drawCharOp_code x y b f c s
      split at h
      · exact ih _ h
      · rename_i code' s' hne heq
        rw [heq] at hd
        cases h
        rcases hd with hd | hd
        · exact absurd (show code = .ok from hd) (by simpa using hne)
        · exact hd

/-! ### The segments -/

/-- What a segment may write: the framebuffer, the cursor, INITIALIZED, BATCH and the sequencer (R42). -/
theorem firstSegment_frame (i : Instr) (s : State) :
    firstSegment i s =
      { s with
        fb := (firstSegment i s).fb
        curX := (firstSegment i s).curX
        curY := (firstSegment i s).curY
        initialized := (firstSegment i s).initialized
        batch := (firstSegment i s).batch
        engine := (firstSegment i s).engine } := by
  cases i with
  | char c f =>
    simp only [firstSegment, segChar]
    have hd := (drawCharOp_onlyDrew (s.opd 0) (s.opd 1) s.opdByte s.latch.font s.latch.color s).eq
    split
    · rename_i s' heq
      rw [heq] at hd
      simp only at hd
      split <;> (rw [hd]; rfl)
    · rename_i code s' _ heq
      rw [heq] at hd
      simp only at hd
      rw [hd]; rfl
  | str c f =>
    simp only [firstSegment, segStr]
    have hd := (strLoop_onlyDrew (s.opd 0) (s.opd 1) s.latch.font s.latch.color (s.text.toList.drop s.opdByte.toNat)
      (State.setCursor (s.opd 0) (s.opd 1) { s with batch := true })).eq
    split
    · rename_i s' heq
      rw [heq] at hd
      simp only at hd
      rw [hd]; rfl
    · rename_i code s' _ heq
      rw [heq] at hd
      simp only at hd
      rw [hd]; rfl
  | line c f => simp only [firstSegment, segLine]; split <;> rfl
  | init c f => simp only [firstSegment, segInit, configFrom]; generalize Memory.filled _ = m; split <;> rfl
  | clear c f => simp only [firstSegment, segClear]; generalize Memory.filled _ = m; rfl
  | allon c f => simp only [firstSegment, segAllon]; generalize Memory.filled _ = m; rfl
  | _ => rfl

theorem resume_frame (site : Site) (r : Answer) (s : State) :
    resume site r s =
      { s with
        fb := (resume site r s).fb
        curX := (resume site r s).curX
        curY := (resume site r s).curY
        initialized := (resume site r s).initialized
        batch := (resume site r s).batch
        engine := (resume site r s).engine } := by
  unfold resume
  split
  · cases site with
    | config k => simp only [afterOk, configFrom]; split <;> rfl
    | page p k tail =>
      simp only [afterOk]
      split
      · rfl
      · cases tail <;> rfl
  · rfl

/-! ### The invariant's parts over one segment -/

/-- A command between two segments: canonical framebuffer, batch mode off, and a sequencer that agrees with the state. -/
structure Settled (s : State) : Prop where
  fbWf : s.fb.wf = true
  fbIn : s.fb.inFb = true
  batch : s.batch = false
  engine : EngineConsistent s

theorem settled_finishWith {s : State} {c : Completion} (h1 : s.fb.wf = true) (h2 : s.fb.inFb = true) (h3 : s.batch = false)
    (hc : c.Consistent) : Settled (finishWith c s) := ⟨h1, h2, h3, hc⟩

theorem settled_issuePage {s : State} (p : Fin 8) (k : Fin 4) (tail : Tail) (h1 : s.fb.wf = true) (h2 : s.fb.inFb = true)
    (h3 : s.batch = false) : Settled (issuePage p k tail s) := ⟨h1, h2, h3, rfl⟩

theorem settled_flushTail {s : State} (ch : Byte) (h1 : s.fb.wf = true) (h2 : s.fb.inFb = true) : Settled (flushTail ch s) :=
  ⟨h1, h2, rfl, rfl⟩

theorem settled_configFrom {s : State} (k : Nat) (h1 : s.fb.wf = true) (h2 : s.fb.inFb = true) (h3 : s.batch = false) :
    Settled (configFrom k s) := by
  simp only [configFrom]
  split
  · rename_i b hb
    exact ⟨h1, h2, h3, b, hb, rfl⟩
  · exact ⟨Memory.wf_filled 0, Memory.inFb_filled 0, rfl, rfl⟩

/-- A completion without a transport failure. -/
theorem consistent_of_code {code : Code} (ch : Byte) (h : code ≠ .transportFail) :
    Completion.Consistent { code := code, char := ch } := ⟨by simp [h], fun _ => ⟨rfl, rfl⟩, fun _ => rfl⟩

theorem consistent_transportFailure (site : Site) {r : Answer} (h : r ≠ .ok) : (transportFailure site r).Consistent := by
  cases site with
  | config k => exact ⟨by simp [transportFailure, h], fun h' => absurd rfl h', fun _ => rfl⟩
  | page p k tail => exact ⟨by simp [transportFailure, h], fun h' => absurd rfl h', fun h' => by cases h'⟩

theorem settled_resume {s : State} (site : Site) (r : Answer) (h1 : s.fb.wf = true) (h2 : s.fb.inFb = true)
    (h3 : s.batch = false) : Settled (resume site r s) := by
  unfold resume
  split
  · cases site with
    | config k => exact settled_configFrom _ h1 h2 h3
    | page p k tail =>
      simp only [afterOk]
      split
      · exact settled_issuePage _ _ _ h1 h2 h3
      · cases tail with
        | init => exact settled_finishWith h1 h2 h3 (consistent_of_code 0 (by decide))
        | flushTail ch => exact settled_finishWith h1 h2 h3 (consistent_of_code ch (by decide))
  · exact settled_finishWith h1 h2 h3 (consistent_transportFailure site ‹_›)

theorem settled_firstSegment {s : State} (i : Instr) (h1 : s.fb.wf = true) (h2 : s.fb.inFb = true) (h3 : s.batch = false) :
    Settled (firstSegment i s) := by
  have draw : ∀ (ps : List Point) (c : Bool), (putPoints ps c s.fb).wf = true ∧ (putPoints ps c s.fb).inFb = true :=
    fun ps c => ⟨wf_putPoints ps c h1, inFb_putPoints ps c h2⟩
  cases i with
  | init c f =>
    simp only [firstSegment, segInit]
    exact settled_configFrom 0 h1 h2 h3
  | clear c f =>
    simp only [firstSegment, segClear]
    have hw := Memory.wf_filled 0x00
    have hi := Memory.inFb_filled 0x00
    generalize Memory.filled 0x00 = m at *
    exact settled_flushTail 0 hw hi
  | allon c f =>
    simp only [firstSegment, segAllon]
    have hw := Memory.wf_filled 0xFF
    have hi := Memory.inFb_filled 0xFF
    generalize Memory.filled 0xFF = m at *
    exact settled_flushTail 0 hw hi
  | flush c f => exact settled_flushTail 0 h1 h2
  | setpixel c f => exact settled_finishWith (draw _ _).1 (draw _ _).2 h3 (consistent_of_code 0 (by decide))
  | line c f =>
    simp only [firstSegment, segLine]
    split
    · exact settled_finishWith (draw _ _).1 (draw _ _).2 h3 (consistent_of_code 0 (by decide))
    · exact settled_flushTail 0 (draw _ _).1 (draw _ _).2
  | gotoxy c f => exact settled_finishWith h1 h2 h3 (consistent_of_code 0 (by decide))
  | char c f =>
    have hd := drawCharOp_onlyDrew (s.opd 0) (s.opd 1) s.opdByte s.latch.font s.latch.color s
    have hc := drawCharOp_code (s.opd 0) (s.opd 1) s.opdByte s.latch.font s.latch.color s
    simp only [firstSegment, segChar]
    split
    · rename_i s' heq
      rw [heq] at hd
      split
      · rename_i hb
        have : s'.batch = s.batch := by rw [show s' = _ from hd.eq]
        rw [this, h3] at hb
        cases hb
      · exact settled_flushTail _ (hd.wf h1) (hd.inFb h2)
    · rename_i code s' _ heq
      rw [heq] at hd hc
      refine settled_finishWith (hd.wf h1) (hd.inFb h2) ?_ (consistent_of_code 0 ?_)
      · rw [show s' = _ from hd.eq]; exact h3
      · rcases hc with hc | hc | hc <;> (rw [show code = _ from hc]; decide)
  | str c f =>
    have hd := strLoop_onlyDrew (s.opd 0) (s.opd 1) s.latch.font s.latch.color (s.text.toList.drop s.opdByte.toNat)
      (State.setCursor (s.opd 0) (s.opd 1) { s with batch := true })
    have hc := strLoop_code (s.opd 0) (s.opd 1) s.latch.font s.latch.color (s.text.toList.drop s.opdByte.toNat)
      (State.setCursor (s.opd 0) (s.opd 1) { s with batch := true })
    simp only [firstSegment, segStr]
    split
    · rename_i s' heq
      rw [heq] at hd
      exact settled_flushTail _ (hd.wf h1) (hd.inFb h2)
    · rename_i code ch s' heq
      rw [heq] at hd hc
      refine settled_finishWith (hd.wf h1) (hd.inFb h2) rfl (consistent_of_code ch ?_)
      rcases hc code ch rfl with hc | hc <;> (rw [hc]; decide)
  | rect c f => exact settled_flushTail 0 (draw _ _).1 (draw _ _).2
  | frect c f => exact settled_flushTail 0 (draw _ _).1 (draw _ _).2
  | tri c f => exact settled_flushTail 0 (draw _ _).1 (draw _ _).2
  | ftri c f => exact settled_flushTail 0 (draw _ _).1 (draw _ _).2
  | circle c f => exact settled_flushTail 0 (draw _ _).1 (draw _ _).2
  | fcircle c f => exact settled_flushTail 0 (draw _ _).1 (draw _ _).2

end Sys2Proof.Machine
end

