-- ==== Sys2Proof/Laws/Step.lean ====
section
/-! SUPPORT. The step: what it answers for each event, how a running command advances, and how many steps it still needs. -/

namespace Sys2Proof.Machine

/-! ### exec and runWord answer a next state -/

/-- A whole command is its acceptance, its first segment, and the steps after it (R19, R56, R138). -/
theorem exec_eq (i : Instr) (s : State) : exec i s = runCommand i (firstSegment i) s := by cases i <;> rfl

theorem exec_next (i : Instr) (s : State) :
    exec i s = .next (continueFor (stepBound s.cfg) (firstSegment i (accept i s))) := exec_eq i s

theorem runWord_cases (w : Word) (s : State) :
    (s.busy = true ∧ runWord w s = .next (setOvr s)) ∨
    (s.busy = false ∧ ∃ i, decode s.cfg w = .ok i ∧ runWord w s = exec i s) ∨
    (s.busy = false ∧ ∃ e, decode s.cfg w = .error e ∧ runWord w s = .next (rejectWord w s)) := by
  unfold runWord
  cases hb : s.busy with
  | true => exact .inl ⟨rfl, by simp⟩
  | false =>
    cases hd : decode s.cfg w with
    | ok i => exact .inr (.inl ⟨rfl, i, rfl, by simp⟩)
    | error e => exact .inr (.inr ⟨rfl, e, rfl, by simp⟩)

/-! ### Advancing a running command -/

theorem transportStep_eq (s : State) :
    transportStep s = s ∨ ∃ site tx, s.engine = .waiting site tx ∧ transportStep s = answeredState site tx s := by
  cases h : s.engine with
  | waiting site tx => exact .inr ⟨site, tx, rfl, transportStep_waiting h⟩
  | idle => exact .inl (by simp [transportStep, h])
  | accepted i => exact .inl (by simp [transportStep, h])
  | answered site r => exact .inl (by simp [transportStep, h])
  | finishing c => exact .inl (by simp [transportStep, h])

/-- Everything one step of a running command can be. -/
theorem advance_cases (s : State) :
    (s.engine = .idle ∧ advance s = s) ∨
    (∃ i, s.engine = .accepted i ∧ advance s = firstSegment i s) ∨
    (∃ site tx, s.engine = .waiting site tx ∧ advance s = answeredState site tx s) ∨
    (∃ site r, s.engine = .answered site r ∧ advance s = resume site r s) ∨
    (∃ c, s.engine = .finishing c ∧ advance s = complete c s) := by
  cases h : s.engine with
  | idle => exact .inl ⟨rfl, by simp [advance, h]⟩
  | accepted i => exact .inr (.inl ⟨i, rfl, by simp [advance, h]⟩)
  | waiting site tx => exact .inr (.inr (.inl ⟨site, tx, rfl, by simp [advance, h, transportStep_waiting h]⟩))
  | answered site r => exact .inr (.inr (.inr (.inl ⟨site, r, rfl, by simp [advance, h]⟩)))
  | finishing c => exact .inr (.inr (.inr (.inr ⟨c, rfl, by simp [advance, h]⟩)))

/-- The engine's own step is the running command's step, or nothing. -/
theorem engineStep_cases (s : State) : engineStep s = s ∨ engineStep s = advance s := by
  cases h : s.engine <;> simp [engineStep, advance, h]

/-- The transport's step is the running command's step, or nothing. -/
theorem transportStep_cases (s : State) : transportStep s = s ∨ transportStep s = advance s := by
  cases h : s.engine <;> simp [transportStep, advance, h]

theorem continueStep_eq_advance {s : State} (h : ∀ i, s.engine ≠ .accepted i) : continueStep s = advance s := by
  cases he : s.engine with
  | accepted i => exact absurd he (h i)
  | _ => simp [continueStep, advance, he]

/-- What a running command may write, over one step (R42, R138): never the parameters, TEXT, ARG, the latch, OVR, ILL or the
environment's lists of events and responses. -/
structure AdvanceFrame (s t : State) : Prop where
  cfg : t.cfg = s.cfg
  text : t.text = s.text
  arg : t.arg = s.arg
  latch : t.latch = s.latch
  ovr : t.ovr = s.ovr
  ill : t.ill = s.ill
  inbox : t.inbox = s.inbox
  hostLog : t.hostLog = s.hostLog
  readDraws : t.readDraws = s.readDraws
  textDraws : t.textDraws = s.textDraws

theorem AdvanceFrame.refl (s : State) : AdvanceFrame s s := ⟨rfl, rfl, rfl, rfl, rfl, rfl, rfl, rfl, rfl, rfl⟩

theorem AdvanceFrame.trans {s t u : State} (h : AdvanceFrame s t) (k : AdvanceFrame t u) : AdvanceFrame s u :=
  ⟨k.cfg.trans h.cfg, k.text.trans h.text, k.arg.trans h.arg, k.latch.trans h.latch, k.ovr.trans h.ovr, k.ill.trans h.ill,
   k.inbox.trans h.inbox, k.hostLog.trans h.hostLog, k.readDraws.trans h.readDraws, k.textDraws.trans h.textDraws⟩

theorem advance_frame (s : State) : AdvanceFrame s (advance s) := by
  obtain ⟨_, h⟩ | ⟨i, _, h⟩ | ⟨site, tx, _, h⟩ | ⟨site, r, _, h⟩ | ⟨c, _, h⟩ := advance_cases s <;> rw [h]
  · exact .refl s
  · rw [firstSegment_frame]; exact ⟨rfl, rfl, rfl, rfl, rfl, rfl, rfl, rfl, rfl, rfl⟩
  · constructor <;> simp [answeredState]
  · rw [resume_frame]; exact ⟨rfl, rfl, rfl, rfl, rfl, rfl, rfl, rfl, rfl, rfl⟩
  · exact ⟨rfl, rfl, rfl, rfl, rfl, rfl, rfl, rfl, rfl, rfl⟩

/-- After its first segment a command is at a transaction or at its completion. -/
theorem firstSegment_engine (i : Instr) (s : State) :
    (∃ c, (firstSegment i s).engine = .finishing c) ∨ ∃ site tx, (firstSegment i s).engine = .waiting site tx := by
  cases i with
  | init c f =>
    simp only [firstSegment, segInit, configFrom]
    generalize Memory.filled _ = m
    split <;> exact .inr ⟨_, _, rfl⟩
  | line c f =>
    simp only [firstSegment, segLine]
    split
    · exact .inl ⟨_, rfl⟩
    · exact .inr ⟨_, _, rfl⟩
  | char c f =>
    simp only [firstSegment, segChar]
    split
    · split
      · exact .inl ⟨_, rfl⟩
      · exact .inr ⟨_, _, rfl⟩
    · exact .inl ⟨_, rfl⟩
  | str c f =>
    simp only [firstSegment, segStr]
    split
    · exact .inr ⟨_, _, rfl⟩
    · exact .inl ⟨_, rfl⟩
  | setpixel c f => exact .inl ⟨_, rfl⟩
  | gotoxy c f => exact .inl ⟨_, rfl⟩
  | clear c f => simp only [firstSegment, segClear]; generalize Memory.filled _ = m; exact .inr ⟨_, _, rfl⟩
  | allon c f => simp only [firstSegment, segAllon]; generalize Memory.filled _ = m; exact .inr ⟨_, _, rfl⟩
  | _ => exact .inr ⟨_, _, rfl⟩

/-! ### How many steps a running command still needs (R166, R167) -/

/-- Steps left with no other agent's step in between. -/
def stepsLeft (s : State) : Nat :=
  match s.engine with
  | .idle => 0
  | .finishing _ => 1
  | .waiting (.page p k _) _ => 2 * (32 - (4 * p.val + k.val)) + 1
  | .answered (.page p k _) _ => 2 * (32 - (4 * p.val + k.val))
  | .waiting (.config k) _ => 2 * (max (s.cfg.initSeq.length - k) 1 + 32) + 1
  | .answered (.config k) _ => 2 * (max (s.cfg.initSeq.length - k) 1 + 32)
  | .accepted _ => 2 * (s.cfg.initSeq.length + 32) + 2

theorem stepsLeft_configFrom (k : Nat) (s : State) :
    stepsLeft (configFrom k s) = if k < s.cfg.initSeq.length then 2 * (s.cfg.initSeq.length - k + 32) + 1 else 65 := by
  simp only [configFrom]
  generalize Memory.filled _ = m
  split
  · rename_i b hb
    have hk : k < s.cfg.initSeq.length := by simpa using (List.getElem?_eq_some_iff.mp hb).1
    simp only [hk, if_true, stepsLeft, issue]
    omega
  · rename_i hb
    have hk : ¬ k < s.cfg.initSeq.length := by simpa using hb
    simp only [hk, if_false]
    rfl

theorem stepsLeft_advance {s : State} (h : s.engine ≠ .idle) : stepsLeft (advance s) < stepsLeft s := by
  have hpos : 1 ≤ s.cfg.initSeq.length := by simp [Params.initSeq]
  obtain ⟨h', _⟩ | ⟨i, hi, ha⟩ | ⟨site, tx, hi, ha⟩ | ⟨site, r, hi, ha⟩ | ⟨c, hi, ha⟩ := advance_cases s
  · exact absurd h' h
  · rw [ha]
    cases i with
    | init c f =>
      simp only [firstSegment, segInit, stepsLeft_configFrom]
      simp only [stepsLeft, hi]
      split <;> omega
    | line c f =>
      simp only [firstSegment, segLine]
      split <;> (simp [stepsLeft, hi, finishWith, flushTail, issuePage, issue]; try omega)
    | char c f =>
      simp only [firstSegment, segChar]
      split
      · split <;> (simp [stepsLeft, hi, finishWith, flushTail, issuePage, issue]; try omega)
      · simp [stepsLeft, hi, finishWith]
    | str c f =>
      simp only [firstSegment, segStr]
      split <;> (simp [stepsLeft, hi, finishWith, flushTail, issuePage, issue]; try omega)
    | setpixel c f => simp [firstSegment, segSetpixel, stepsLeft, hi, finishWith]
    | gotoxy c f => simp [firstSegment, segGotoxy, stepsLeft, hi, finishWith]
    | clear c f =>
      simp only [firstSegment, segClear]
      generalize Memory.filled _ = m
      simp [stepsLeft, hi, flushTail, issuePage, issue]
      omega
    | allon c f =>
      simp only [firstSegment, segAllon]
      generalize Memory.filled _ = m
      simp [stepsLeft, hi, flushTail, issuePage, issue]
      omega
    | _ =>
      simp only [firstSegment, segFlush, segRect, segFrect, segTri, segFtri, segCircle, segFcircle, shapeSegment]
      simp [stepsLeft, hi, flushTail, issuePage, issue]
      omega
  · rw [ha]
    cases site <;> simp [stepsLeft, hi, answeredState]
  · rw [ha]
    unfold resume
    split
    · cases site with
      | config k =>
        simp only [afterOk, stepsLeft_configFrom]
        simp only [stepsLeft, hi]
        split <;> omega
      | page p k tail =>
        simp only [afterOk]
        split
        · rename_i p' k' hn
          have := nextPageSite_some hn
          simp only [stepsLeft, hi, issuePage, issue]
          omega
        · have := p.isLt
          have := k.isLt
          cases tail <;> (simp only [stepsLeft, hi, flushOk, finishWith]; omega)
    · have : 1 < stepsLeft s := by
        cases site with
        | config k => simp only [stepsLeft, hi]; omega
        | page p k tail =>
          have := p.isLt
          have := k.isLt
          simp only [stepsLeft, hi]; omega
      simpa [stepsLeft, finishWith] using this
  · rw [ha]
    simp [stepsLeft, hi, complete]

theorem stepsLeft_le (s : State) : stepsLeft s ≤ 2 * (s.cfg.initSeq.length + 32) + 2 := by
  have hpos : 1 ≤ s.cfg.initSeq.length := by simp [Params.initSeq]
  unfold stepsLeft
  split <;> omega

theorem stepsLeft_eq_zero {s : State} (h : stepsLeft s = 0) : s.engine = .idle := by
  unfold stepsLeft at h
  split at h
  · assumption
  · cases h
  · omega
  · rename_i p k _ _ _
    have := p.isLt
    have := k.isLt
    omega
  all_goals omega

theorem advanceFor_add (m n : Nat) (s : State) : advanceFor (m + n) s = advanceFor n (advanceFor m s) := by
  induction m generalizing s with
  | zero => simp [advanceFor]
  | succ m ih => rw [Nat.add_right_comm]; exact ih (advance s)

theorem advanceFor_idle {s : State} (h : s.engine = .idle) (n : Nat) : advanceFor n s = s := by
  induction n with
  | zero => rfl
  | succ n ih => simpa [advanceFor, advance, h] using ih

theorem stepsLeft_advanceFor (n : Nat) (s : State) : stepsLeft (advanceFor n s) ≤ stepsLeft s - n := by
  induction n generalizing s with
  | zero => simp [advanceFor]
  | succ n ih =>
    by_cases h : s.engine = .idle
    · rw [advanceFor_idle h, show stepsLeft s = 0 by simp [stepsLeft, h]]
      omega
    · have := stepsLeft_advance h
      have := ih (advance s)
      simp only [advanceFor]
      omega

theorem advanceFor_frame (n : Nat) (s : State) : AdvanceFrame s (advanceFor n s) := by
  induction n generalizing s with
  | zero => exact .refl s
  | succ n ih => exact (advance_frame s).trans (ih (advance s))

/-- The remaining steps of a command whose first segment has run are steps of the machine. -/
theorem continueFor_eq_advanceFor (n : Nat) (s : State) (h : ∀ i, s.engine ≠ .accepted i) :
    continueFor n s = advanceFor n s := by
  induction n generalizing s with
  | zero => rfl
  | succ n ih =>
    rw [continueFor, advanceFor, continueStep_eq_advance h]
    apply ih
    intro i
    obtain ⟨h', ha⟩ | ⟨j, h', ha⟩ | ⟨site, tx, h', ha⟩ | ⟨site, r, h', ha⟩ | ⟨c, h', ha⟩ := advance_cases s <;> rw [ha]
    · exact h i
    · exact absurd h' (h j)
    · simp [answeredState]
    · unfold resume
      split
      · cases site with
        | config k =>
          simp only [afterOk, configFrom]
          generalize Memory.filled _ = m
          split <;> simp [issue, issuePage]
        | page p k tail =>
          simp only [afterOk]
          split
          · simp [issue, issuePage]
          · cases tail <;> simp [flushOk, finishWith]
      · simp [finishWith]
    · simp [complete]

theorem run_succ_of_next (M : Host.Core) (n : Nat) {s t : M.State} (h : M.step s = .next t) : M.run (n + 1) s = M.run n t := by
  simp only [Host.Core.run, h]

/-- With no event left, the machine's run is the running command's. -/
theorem run_of_inbox_nil (n : Nat) (s : State) (h : s.inbox = []) :
    Sys2Proof.core.run n s = .next (advanceFor n s) := by
  induction n generalizing s with
  | zero => rfl
  | succ n ih =>
    have hs : step s = .next (advance s) := by unfold step; rw [h]
    exact (run_succ_of_next Sys2Proof.core n hs).trans (ih (advance s) ((advance_frame s).inbox.trans h))

/-! ### Polling and the end of a run (R75, R168) -/

/-- While BUSY = 1 the poll stays the next event and the running command advances by one step. -/
theorem step_waitIdle_busy {s : State} {rest : List Event} (h : s.inbox = .waitIdle :: rest) (hb : s.busy = true) :
    step s = .next (advance (hostAccess statusRead s)) := by
  simp only [step, h, pollStep, hb, if_true]

theorem step_waitIdle_idle {s : State} {rest : List Event} (h : s.inbox = .waitIdle :: rest) (hb : s.busy = false) :
    step s = .next (hostAccess statusRead { s with inbox := rest }) := by
  simp only [step, h, pollStep, hb, Bool.false_eq_true, if_false]

theorem not_ended_of_access {s : State} {e : Event} {rest : List Event} (h : s.inbox = e :: rest) (he : e.isAccess = true) :
    ¬ s.ended := by
  rintro ⟨ha, _⟩
  have := ha e (by simp [h])
  rw [he] at this
  cases this

theorem not_ended_of_busy {s : State} (h : s.busy = true) : ¬ s.ended := fun he => (busy_eq_true_iff s).mp h he.2

/-- A run whose first step has not ended it ends one step later than the run from the next state. -/
theorem EndsAt.of_step {s s' t : State} {n : Nat} (hs : step s = .next s') (hne : ¬ s.ended) (h : EndsAt s' n t) :
    EndsAt s (n + 1) t := by
  have hrun (m : Nat) : Sys2Proof.core.run (m + 1) s = Sys2Proof.core.run m s' := run_succ_of_next Sys2Proof.core m hs
  refine ⟨(hrun n).trans h.reached, h.ended, fun m u hm hu => ?_⟩
  cases m with
  | zero =>
    cases hu
    exact hne
  | succ m => exact h.first m u (by omega) ((hrun m).symm.trans hu)

/-- A run that has ended ends where it stands. -/
theorem EndsAt.of_ended {s : State} (h : s.ended) : EndsAt s 0 s := ⟨rfl, h, fun m _ hm => absurd hm (Nat.not_lt_zero m)⟩

end Sys2Proof.Machine
end

