-- ==== Sys2Proof/Tests/Slice0.lean ====
section
/-! SUPPORT. Tests: well-formedness, decoding of words written out from 30_encoding.md, one step per command with results taken
from the rules' examples and 95_test_vectors.md, and a witness for the hypotheses of each statement. -/

namespace Sys2Proof.Tests

open Sys2Proof.Machine

set_option Elab.async false

/-! ### The block of 95_test_vectors.md section 0 -/

/-- Font TF: 'A' and 'B' drawn, every other row 0. -/
def fontTF : Font :=
  { widthPred := 2, heightPred := 1, rows := List.replicate 66 0 ++ [0xA000, 0x4000, 0xC000, 0xE000] }

/-- Font TW: 17 columns, one row, every row 0xFFFF. -/
def fontTW : Font := { widthPred := 16, heightPred := 0, rows := List.replicate 95 0xFFFF }

def params : Params :=
  { nfontsPred := 1, fonts := (Vector.replicate 16 fontTF).set 1 fontTW, initHead := 0xAE, initTail := [0xAF]
    pageCmds := Config.defaultPageCmds, charCheck := .beforeReposition, base := 0 }

/-- The block after reset with TEXT zero, the given operands, and these answers first, OK after them. -/
def start (args : Vector Half 6) (answers : List Answer := []) : State :=
  { State.atReset params 0 with
    text := Vector.replicate 256 0
    arg := args
    answers := answers ++ List.replicate 40 .ok }

/-- The string "AB" in TEXT. -/
def withAB (s : State) : State := { s with text := (s.text.set 0 0x41).set 1 0x42 }

/-- The block under AFTER_REPOSITION. -/
def afterReposition (s : State) : State := { s with cfg := { s.cfg with charCheck := .afterReposition } }

/-- The state a command leaves. -/
def after (i : Instr) (s : State) : State :=
  match exec i s with
  | .next t => t
  | .fault _ => s
  | .refused _ => s

/-- The state a step leaves. -/
def stepped (s : State) : State :=
  match step s with
  | .next t => t
  | .fault _ => s
  | .refused _ => s

/-- The block with LINE accepted and nothing of it run. -/
def busyLine : State := accept (.line true 0) (start #v[0, 0, 3, 0, 0, 0])

/-! ### WellFormed: a command with a font the block lacks is refused -/

theorem test_wf_char_font_missing : (Instr.char true 2).wf params = false := by decide
theorem test_wf_str_font_missing : (Instr.str false 15).wf params = false := by decide
theorem test_wf_char_font_present : (Instr.char true 1).wf params = true := by decide
theorem test_wf_others_ignore_font : (Instr.line true 15).wf params = true := by decide

/-! ### Decode: words of the opcode map (R65) and of R80 -/

theorem test_decode_init : decode params 0x00000001 = .ok (.init false 0) := by decide
theorem test_decode_clear : decode params 0x00000002 = .ok (.clear false 0) := by decide
theorem test_decode_allon : decode params 0x00000003 = .ok (.allon false 0) := by decide
theorem test_decode_flush : decode params 0x00000004 = .ok (.flush false 0) := by decide
theorem test_decode_setpixel : decode params 0x00000105 = .ok (.setpixel true 0) := by decide
theorem test_decode_line : decode params 0x00000106 = .ok (.line true 0) := by decide
theorem test_decode_rect : decode params 0x00000107 = .ok (.rect true 0) := by decide
theorem test_decode_frect : decode params 0x00000108 = .ok (.frect true 0) := by decide
theorem test_decode_tri : decode params 0x00000109 = .ok (.tri true 0) := by decide
theorem test_decode_ftri : decode params 0x0000010A = .ok (.ftri true 0) := by decide
theorem test_decode_circle : decode params 0x0000010B = .ok (.circle true 0) := by decide
theorem test_decode_fcircle : decode params 0x0000010C = .ok (.fcircle true 0) := by decide
theorem test_decode_char : decode params 0x0000010D = .ok (.char true 0) := by decide
theorem test_decode_char_font1 : decode params 0x0000100D = .ok (.char false 1) := by decide
theorem test_decode_str : decode params 0x0000010E = .ok (.str true 0) := by decide
theorem test_decode_gotoxy : decode params 0x0000000F = .ok (.gotoxy false 0) := by decide
theorem test_decode_unused_fields : decode params 0x0000F102 = .ok (.clear true 15) := by decide
theorem test_decode_rsv0 : decode params 0x0000020D = .error .reservedBits := by decide
theorem test_decode_rsv1 : decode params 0x80000001 = .error .reservedBits := by decide
theorem test_decode_op10 : decode params 0x00000010 = .error .reservedOpcode := by decide
theorem test_decode_op00 : decode params 0x00000000 = .error .reservedOpcode := by decide
theorem test_decode_font15 : decode params 0x0000F10E = .error .noSuchFont := by decide
theorem test_decode_bytes : decodeBytes params [0x06, 0x01, 0x00, 0x00] = .ok (.line true 0) := by decide
theorem test_decode_three_bytes : decodeBytes params [0x06, 0x01, 0x00] = .error .notOneWord := by decide
theorem test_decodeTableWord_char : decodeTableWord 32 0x0000010D = some (.char true 0) := by decide
theorem test_encode_char : encode (.char false 1) = 0x0000100D := by decide

/-! ### Commands: the rules' examples and the vectors -/

theorem test_init : (after (.init false 0) (start (Vector.replicate 6 7))).statusWord = 0x00000002 := by decide +kernel
theorem test_init_config_nack :
    (after (.init false 0) (start (Vector.replicate 6 7) [.ok, .nack])).result.word = 0x01100011 := by decide +kernel
theorem test_clear : (after (.clear false 0) { start (Vector.replicate 6 0) with fb := [(5, 3)] }).fb = [] := by decide
theorem test_allon : fbWord (after (.allon false 0) (start (Vector.replicate 6 0))).fb 0 = 0xFFFFFFFF := by decide +kernel
theorem test_flush_nack_log :
    (after (.flush false 0) (start (Vector.replicate 6 0) [.ok, .ok, .nack])).log =
      [⟨.cmd 0xB0, .ok⟩, ⟨.cmd 0x00, .ok⟩, ⟨.cmd 0x10, .nack⟩] := by decide
theorem test_flush_nack_result :
    (after (.flush false 0) (start (Vector.replicate 6 0) [.ok, .ok, .nack])).result.word = 0x04000011 := by decide +kernel
theorem test_setpixel : (after (.setpixel true 0) (start #v[3, 10, 0, 0, 0, 0])).fb = [(131, 0x04)] := by decide
theorem test_setpixel_outside : (after (.setpixel true 0) (start #v[128, 63, 0, 0, 0, 0])).fb = [] := by decide
theorem test_line :
    (after (.line true 0) (start #v[0, 0, 5, 2, 0, 0])).fb = [(0, 1), (1, 1), (2, 2), (3, 2), (4, 4), (5, 4)] := by decide
theorem test_line_reversed : (after (.line true 0) (start #v[1, 2, 0, 0, 0, 0])).fb = [(0, 1), (1, 6)] := by decide
theorem test_rect :
    (after (.rect true 0) (start #v[2, 1, 3, 2, 0, 0])).fb = [(2, 0x0E), (3, 0x0A), (4, 0x0A), (5, 0x0E)] := by decide +kernel
theorem test_rect_timeout :
    (after (.rect true 0) (start #v[2, 1, 3, 2, 0, 0] [.timeout])).result.word = 0x07000021 := by decide +kernel
theorem test_frect :
    (after (.frect true 0) (start #v[2, 1, 3, 2, 0, 0])).fb = [(2, 0x0E), (3, 0x0E), (4, 0x0E), (5, 0x0E)] := by decide
theorem test_tri :
    (after (.tri true 0) (start #v[0, 0, 4, 0, 0, 3])).fb = [(0, 0x0F), (1, 5), (2, 3), (3, 3), (4, 1)] := by decide +kernel
theorem test_ftri :
    (after (.ftri true 0) (start #v[0, 0, 4, 0, 0, 3])).fb = [(0, 0x0F), (1, 7), (2, 3), (3, 3), (4, 1)] := by decide +kernel
theorem test_ftri_one_line :
    (after (.ftri true 0) (start #v[0, 0, 0, 0, 3, 2])).fb = [(0, 1), (1, 2), (2, 2), (3, 4)] := by decide
theorem test_circle :
    (after (.circle true 0) (start #v[5, 5, 2, 0, 0, 0])).fb = [(3, 0x70), (4, 0x88), (5, 0x88), (6, 0x88), (7, 0x70)] := by
  decide +kernel
theorem test_fcircle :
    (after (.fcircle true 0) (start #v[5, 5, 2, 0, 0, 0])).fb = [(3, 0x70), (4, 0xF8), (5, 0xF8), (6, 0xF8), (7, 0x70)] := by
  decide +kernel
theorem test_char_fb :
    (after (.char true 0) (start #v[5, 7, 0x41, 0, 0, 0])).fb = [(5, 0x80), (7, 0x80), (134, 0x01)] := by decide
theorem test_char_result : (after (.char true 0) (start #v[5, 7, 0x41, 0, 0, 0])).result.word = 0x0D004100 := by decide +kernel
theorem test_str_cursor : (after (.str true 0) (withAB (start #v[0, 0, 0, 0, 0, 0]))).cursorWord = 0x00000006 := by decide +kernel
theorem test_str_rejected :
    (after (.str true 0) (withAB (start #v[124, 0, 0, 0, 0, 0]))).result.word = 0x0E004202 := by decide +kernel
theorem test_gotoxy : (after (.gotoxy false 0) (start #v[200, 3, 0, 0, 0, 0])).cursorWord = 0x000300C8 := by decide

/-! ### The host port and the assembler -/

theorem test_illegal_word : (stepped { busyLine with engine := .idle, inbox := [.command 0x10] }).result.word = 0x10000003 := by
  decide
theorem test_arg_write : (stepped { start (Vector.replicate 6 0) with inbox := [.host (.write 4 0x010 0x00012345)] }).arg[0] = 0x2345 := by
  decide
theorem test_reserved_read :
    (stepped { start (Vector.replicate 6 0) with inbox := [.host (.read 4 0x02C)] }).hostLog = [⟨.read 4 0x02C, .err, 0⟩] := by
  decide
theorem test_cmd_while_busy : (stepped { busyLine with inbox := [.host (.write 4 0x004 2)] }).ovr = true := by decide
theorem test_id_read :
    (stepped { start (Vector.replicate 6 0) with inbox := [.host (.read 4 0x000)] }).hostLog =
      [⟨.read 4 0x000, .ok, 0x46424331⟩] := by decide
theorem test_asm_text : asmText params 0 [0x41, 0x42] = some [.host (.write 4 0x100 0x00004241)] := by decide
theorem test_asm_char :
    asmCommand params (.char false 1) [5, 7, 0x41] =
      some [.host (.write 4 0x010 5), .host (.write 4 0x014 7), .host (.write 4 0x018 0x41), .host (.write 4 0x004 0x0000100D),
       .waitIdle] := by decide
theorem test_asm_seven_operands : asmCommand params (.tri true 0) [1, 2, 3, 4, 5, 6, 7] = none := by decide

/-! ### Witnesses: states and operands that meet the hypotheses of each statement -/

/-- The idle block with one event to come. -/
def idleWith (e : Event) : State := { start #v[0, 0, 3, 0, 0, 0] with inbox := [e] }

/-- The block with LINE running and one event to come. -/
def busyWith (e : Event) : State := { busyLine with inbox := [e] }

theorem witness_ResetValues : step (idleWith .reset) = .next (stepped (idleWith .reset)) ∧ (idleWith .reset).inbox = [.reset] :=
  ⟨rfl, rfl⟩
theorem witness_ResetAbortsTheCommand : (busyWith .reset).inbox = [.reset] ∧ (busyWith .reset).busy = true := by decide
theorem witness_DecoderFollowsItsRule :
    legalWord params 0x00000001 ∧ legalWord params 0x0000F10F ∧ legalWord params 0x0000110E ∧ ¬ legalWord params 0x00010001 ∧
      ¬ legalWord params 0x00000201 ∧ ¬ legalWord params 0x00000000 ∧ ¬ legalWord params 0x00000010 ∧
      ¬ legalWord params 0x0000200D := by unfold legalWord; decide
theorem witness_DecodeOfEncode : (Instr.char true 1).wf params = true ∧ (Instr.init true 15).wf params = true := by decide
theorem witness_EncodeOfDecode : decode params 0x0000110D = .ok (.char true 1) := by decide
theorem witness_TableRowsAreDisjoint :
    0x0000F106#32 &&& formatMask = (Instr.line true 15).tableMatch ∧ 0x0000F106#32 &&& formatMask = (Instr.line false 0).tableMatch ∧
      decode params 0x0000F106 = .ok (.line true 15) := by decide
theorem witness_SampleWordsDecode : 1 < params.nfonts ∧ params.nfonts ≤ 15 := by decide
theorem witness_StepRunsTheDecodedCommand :
    (idleWith (.command 0x106)).inbox = [.command 0x106] ∧ (idleWith (.command 0x106)).busy = false ∧
      decode (idleWith (.command 0x106)).cfg 0x106 = .ok (.line true 0) ∧ 0x106 < 2 ^ 32 := by decide
theorem witness_CmdWriteDecodesTheWord :
    (idleWith (.host (cmdWrite 0x106))).inbox = [.host (cmdWrite 0x106)] ∧ (idleWith (.host (cmdWrite 0x106))).busy = false ∧
      legalWord params 0x106 ∧ ¬ legalWord params 0x10 := by unfold legalWord; decide
theorem witness_IllegalCommandOnlyFlagsIll :
    (idleWith (.command 0x10)).inbox = [.command 0x10] ∧ (idleWith (.command 0x10)).busy = false ∧ ¬ legalWord params 0x10 := by
  unfold legalWord; decide
theorem witness_AcceptanceLatchesOperands :
    (idleWith (.host (cmdWrite 0x106))).inbox = [.host (cmdWrite 0x106)] ∧ (idleWith (.host (cmdWrite 0x106))).busy = false ∧
      legalWord (idleWith (.host (cmdWrite 0x106))).cfg 0x106 := by unfold legalWord; decide
theorem witness_AtomicStepsReachExec :
    (idleWith (.host (cmdWrite 0x106))).inbox = [.host (cmdWrite 0x106)] ∧ (idleWith (.host (cmdWrite 0x106))).busy = false ∧
      decode params 0x106 = .ok (.line true 0) := by decide
theorem witness_RunningCommandFinishes : busyLine.inbox = [] ∧ busyLine.busy = true := by decide
theorem witness_EndedRunStays :
    (start (Vector.replicate 6 0)).ended ∧ (idleWith .engine).ended ∧ (idleWith .transport).ended ∧ (idleWith .reset).ended := by
  unfold State.ended; decide
/-- Accesses left, or a command running, and the run has not ended. -/
theorem test_not_ended : ¬ (idleWith .waitIdle).ended ∧ ¬ (idleWith (.host statusRead)).ended ∧ ¬ busyLine.ended := by
  unfold State.ended; decide
theorem witness_WaitIdleReachesTheEndOfTheRun :
    ({ busyLine with inbox := [.waitIdle, .reset] } : State).inbox = [.waitIdle, .reset] ∧
      (∀ e ∈ [Event.engine, .transport, .reset], e.isAccess = false) := by decide
theorem busyLine_inv : busyLine.Inv :=
  ⟨rfl, rfl, rfl, ⟨by decide, fun _ => ⟨rfl, rfl⟩, fun _ => rfl⟩, rfl, rfl, rfl, rfl⟩
theorem witness_InvariantKeptByStep : busyLine.Inv ∧ step busyLine = .next (stepped busyLine) := ⟨busyLine_inv, rfl⟩
theorem witness_HostAccessLeavesRunningCommand : busyLine.busy = true := by decide
theorem witness_DrawingIgnoresTheTransport : (Instr.clear false 0).opcode ≠ 0x01 ∧ (Instr.gotoxy false 0).opcode ≠ 0x01 := by
  decide
theorem witness_LogOnlyGrows : step busyLine = .next (stepped busyLine) := rfl
theorem witness_ParametersAreConstant : step (idleWith .waitIdle) = .next (stepped (idleWith .waitIdle)) := rfl
theorem witness_OnlyInitWritesInitialized : (Instr.setpixel true 0).opcode ≠ 0x01 := by decide
theorem witness_OnlyHostWritesArgAndText :
    (stepped (idleWith (.host (.write 4 0x024 5)))).arg ≠ (idleWith (.host (.write 4 0x024 5))).arg ∧
      (stepped (idleWith (.host (.write 4 0x1FC 5)))).text ≠ (idleWith (.host (.write 4 0x1FC 5))).text ∧
      step (idleWith (.host (.write 4 0x024 5))) = .next (stepped (idleWith (.host (.write 4 0x024 5)))) ∧
      step (idleWith (.host (.write 4 0x1FC 5))) = .next (stepped (idleWith (.host (.write 4 0x1FC 5)))) := by
  refine ⟨by decide, fun h => ?_, rfl, rfl⟩
  exact absurd (congrArg (fun v : Vector Byte 256 => v[252]) h) (by decide +kernel)
theorem witness_StickyBitsStay :
    step { busyLine with ovr := true, ill := true, terr := true } =
        .next (stepped { busyLine with ovr := true, ill := true, terr := true }) ∧
      (∀ v rest, busyLine.inbox ≠ .host (.write 4 0x008 v) :: rest) ∧ (∀ rest, busyLine.inbox ≠ .reset :: rest) :=
  ⟨rfl, fun _ _ h => (by cases h), fun _ h => (by cases h)⟩
theorem witness_FlushSendsEveryPage : firstFailure (start (Vector.replicate 6 0)) 0 32 = none := by decide
theorem witness_InitConfiguresAndClears :
    firstFailure (start (Vector.replicate 6 0)) 0 2 = none ∧ firstFailure (start (Vector.replicate 6 0)) 2 32 = none ∧
      firstFailure (start (Vector.replicate 6 0) [.ok, .nack]) 0 2 = some 1 ∧
      firstFailure (start (Vector.replicate 6 0) [.ok, .ok, .timeout]) 2 32 = some 2 := by decide
theorem witness_SetpixelRoundTrip :
    ((127 : Half).toNat < 128 ∧ (63 : Half).toNat < 64 ∧ pixelAt (start #v[127, 63, 0, 0, 0, 0]).fb 127 63 = false) ∧
      (128 ≤ ((start #v[128, 0, 0, 0, 0, 0]).arg[0]).toNat ∨ 64 ≤ ((start #v[128, 0, 0, 0, 0, 0]).arg[1]).toNat) ∧
      (128 ≤ ((start #v[0, 64, 0, 0, 0, 0]).arg[0]).toNat ∨ 64 ≤ ((start #v[0, 64, 0, 0, 0, 0]).arg[1]).toNat) := by decide
theorem witness_LineDrawsAndFlushes :
    (start #v[0, 0, 5, 2, 0, 0]).batch = false ∧ ({ start #v[0, 0, 5, 2, 0, 0] with batch := true } : State).batch = true := by
  decide
theorem witness_LineClosedForm : at16 127 63 ∈ linePoints 0 0 65535 65535 ∧ at16 0 63 ∉ linePoints 0 0 65535 65535 := by
  decide +kernel
theorem witness_LineSpecialCases :
    ((start #v[0, 0, 0, 10, 0, 0]).arg[2] = 0 ∧ (start #v[0, 0, 0, 10, 0, 0]).arg[3] = 10) ∧
      ((start #v[0, 0, 10, 0, 0, 0]).arg[2] = 10 ∧ (start #v[0, 0, 10, 0, 0, 0]).arg[3] = 0) ∧
      SameFb State.reset (start #v[0, 0, 10, 0, 0, 0]) := ⟨⟨rfl, rfl⟩, ⟨rfl, rfl⟩, fun _ => rfl⟩
theorem witness_RectDrawsItsOutline : ∃ x y, x < 128 ∧ y < 64 ∧ at16 x y ∈ rectPoints 127 63 65535 65535 :=
  ⟨127, 63, by decide, by decide, by decide +kernel⟩
theorem witness_CircleStepsAreMidpoints : ((1 : Int), (2 : Int)) ∈ circleSteps 2 ∧ circleSteps 0 = [] := by decide
theorem witness_CircleInsideIsSymmetric :
    (∀ a, (start #v[31, 31, 31, 0, 0, 0]).fb.read a = 0) ∧
      (let s := start #v[31, 31, 31, 0, 0, 0]
       (s.arg[2]).toNat ≤ (s.arg[0]).toNat ∧ (s.arg[0]).toNat + (s.arg[2]).toNat ≤ 127 ∧ (s.arg[2]).toNat ≤ (s.arg[1]).toNat ∧
        (s.arg[1]).toNat + (s.arg[2]).toNat ≤ 63) := ⟨fun _ => rfl, by decide⟩
/-- A glyph that ends on the last column and the last row, under both orders of the check. -/
theorem witness_CharDrawsItsGlyph :
    (let s := start #v[125, 62, 0x7E, 0, 0, 0]
     32 ≤ (BitVec.ofNat 8 (s.arg[2]).toNat : Byte).toNat ∧ (BitVec.ofNat 8 (s.arg[2]).toNat : Byte).toNat ≤ 126 ∧
      s.cfg.charCheck = .beforeReposition ∧ s.curX.toNat + (fontOf s.cfg 0).fw ≤ 128 ∧ s.curY.toNat + (fontOf s.cfg 0).fh ≤ 64) ∧
    (let s := afterReposition (start #v[125, 62, 0x20, 0, 0, 0])
     s.cfg.charCheck = .afterReposition ∧ (s.arg[0]).toNat + (fontOf s.cfg 0).fw ≤ 128 ∧
      (s.arg[1]).toNat + (fontOf s.cfg 0).fh ≤ 64) := by decide
/-- One code below and one above the glyphs, and a box one column too far, under both orders of the check. -/
theorem witness_CharRejectsItsGlyph :
    ¬ (32 ≤ (0x1F : Byte).toNat ∧ (0x1F : Byte).toNat ≤ 126) ∧ ¬ (32 ≤ (0x7F : Byte).toNat ∧ (0x7F : Byte).toNat ≤ 126) ∧
    (let s : State := { start #v[0, 0, 0x41, 0, 0, 0] with curX := 126 }
     s.cfg.charCheck = .beforeReposition ∧ ¬ (s.curX.toNat + (fontOf s.cfg 0).fw ≤ 128 ∧ s.curY.toNat + (fontOf s.cfg 0).fh ≤ 64)) ∧
    (let s := afterReposition (start #v[126, 0, 0x41, 0, 0, 0])
     s.cfg.charCheck = .afterReposition ∧ ¬ ((s.arg[0]).toNat + (fontOf s.cfg 0).fw ≤ 128 ∧ (s.arg[1]).toNat + (fontOf s.cfg 0).fh ≤ 64)) := by
  decide
theorem glyph_A : glyphCode 0x41 = true := by decide
theorem glyph_B : glyphCode 0x42 = true := by decide
theorem drawable_AB (s : State) (h0 : s.text[0] = 0x41) (h1 : s.text[1] = 0x42) : drawableRun s.text 0 2 := by
  intro k hk
  obtain rfl | rfl : k = 0 ∨ k = 1 := by omega
  · exact ⟨by decide, by simpa [h0] using glyph_A⟩
  · exact ⟨by decide, by simpa [h1] using glyph_B⟩
/-- "AB" ending on the last column, and the empty string at a cursor off the panel. -/
theorem witness_StrDrawsTheWholeString :
    (let s := withAB (start #v[122, 62, 0, 0, 0, 0])
     drawableRun s.text 0 2 ∧ stringEnds s.text 0 2 ∧ (s.arg[0]).toNat + 2 * (fontOf s.cfg 0).fw ≤ 128 ∧
      (s.arg[1]).toNat + (fontOf s.cfg 0).fh ≤ 64) ∧
    (let s := start #v[65535, 65535, 255, 0, 0, 0]
     drawableRun s.text 255 0 ∧ stringEnds s.text 255 0) :=
  ⟨⟨drawable_AB _ rfl rfl, .inr ⟨by decide, rfl⟩, by decide, by decide⟩, ⟨fun _ h => absurd h (Nat.not_lt_zero _), .inr ⟨by decide, rfl⟩⟩⟩
/-- "AB" cut short at 'B', one column too far. -/
theorem witness_StrStopsAtTheFirstFailure :
    let s := withAB (start #v[123, 62, 0, 0, 0, 0])
    (drawableRun s.text 0 1 ∧ (s.arg[0]).toNat + 1 * (fontOf s.cfg 0).fw ≤ 128 ∧ (s.arg[1]).toNat + (fontOf s.cfg 0).fh ≤ 64) ∧
      s.text[1] ≠ 0 ∧ ¬ ((s.arg[0]).toNat + (1 + 1) * (fontOf s.cfg 0).fw ≤ 128 ∧ (s.arg[1]).toNat + (fontOf s.cfg 0).fh ≤ 64) :=
  ⟨⟨fun k hk => drawable_AB _ rfl rfl k (by omega), by decide, by decide⟩, by decide, by decide⟩
/-- Both ends of every range of the register map. -/
theorem witness_IdleReadReturnsTheRegister :
    (∀ a ∈ [0x000, 0x004, 0x008, 0x00C, 0x010, 0x024, 0x028, 0x100, 0x1FC, 0x400, 0x7FC],
      a % 4 = 0 ∧ (a < 0x02C ∨ (0x100 ≤ a ∧ a < 0x200) ∨ (0x400 ≤ a ∧ a < 0x800))) ∧
    0x024 = 0x010 + 4 * (5 : Fin 6).val ∧ 0x1FC = 0x100 + 4 * (255 / 4) ∧ 0x7FC = 0x400 + 4 * (1023 / 4) ∧
    (idleWith (.host (.read 4 0x7FC))).inbox = [.host (.read 4 0x7FC)] ∧ (idleWith (.host (.read 4 0x7FC))).busy = false := by
  decide
theorem witness_BusyReadReturnsCurrentOrAnyValue :
    (busyWith (.host (.read 4 0x008))).inbox = [.host (.read 4 0x008)] ∧ (busyWith (.host (.read 4 0x008))).busy = true := by
  decide
/-- The last reserved offsets before and after each range, and the read-only registers. -/
theorem witness_ErrorAccessChangesNothing :
    (∀ a ∈ [0x02C, 0x0FC, 0x200, 0x3FC, 0x800, 0xFFC], (0x02C ≤ a ∧ a < 0x100) ∨ (0x200 ≤ a ∧ a < 0x400) ∨ 0x800 ≤ a) ∧
    (∀ a ∈ [0x000, 0x00C, 0x028, 0x400, 0x7FC], a = 0x000 ∨ a = 0x00C ∨ a = 0x028 ∨ (0x400 ≤ a ∧ a < 0x800)) ∧
    (idleWith (.host (.read 2 0x008))).inbox = [.host (.read 2 0x008)] ∧
    (busyWith (.host (.write 4 0xFFC 1))).inbox = [.host (.write 4 0xFFC 1)] := by decide
theorem witness_ArgWriteStoresLowHalf :
    (idleWith (.host (.write 4 (BitVec.ofNat 12 (0x010 + 4 * (5 : Fin 6).val)) 0x12345))).inbox =
      [.host (.write 4 0x024 0x12345)] := by decide
theorem witness_TextWriteStoresFourBytes :
    (idleWith (.host (.write 4 (BitVec.ofNat 12 (0x100 + 4 * (63 : Fin 64).val)) 1))).inbox = [.host (.write 4 0x1FC 1)] ∧
      (idleWith (.host (.write 4 0x1FC 1))).busy = false := by decide
theorem witness_StatusWriteClearsSticky : (busyWith (.host (.write 4 0x008 0x700))).inbox = [.host (.write 4 0x008 0x700)] := by
  decide
theorem witness_BusyCmdAndTextWritesSetOvr :
    (busyWith (.host (.write 4 0x004 1))).inbox = [.host (.write 4 0x004 1)] ∧ (busyWith (.host (.write 4 0x004 1))).busy = true ∧
      (0x004 : Offset).toNat = 0x004 ∧ 0x100 ≤ (0x1FC : Offset).toNat ∧ (0x1FC : Offset).toNat < 0x200 ∧
      (0x1FC : Offset).toNat % 4 = 0 := by decide

end Sys2Proof.Tests
end

section
/-! PROOFS. What every step keeps of the parameters (R7, R8, R35). -/

namespace Sys2Proof.Machine

/-! ### A whole command as steps of the machine -/

/-- A whole command is its acceptance and then steps of the running command (R19, R56). -/
theorem exec_eq_advanceFor (i : Instr) (s : State) :
    exec i s = .next (advanceFor (stepBound s.cfg + 1) (accept i s)) := by
  have hne : ∀ j, (firstSegment i (accept i s)).engine ≠ .accepted j := by
    intro j
    obtain ⟨c, h⟩ | ⟨site, tx, h⟩ := firstSegment_engine i (accept i s) <;> simp [h]
  rw [exec_next, continueFor_eq_advanceFor _ _ hne]
  rfl

/-! ### The parameters over each agent's move -/

theorem PortEffect.cfg_eq {a : Access} {s u : State} (h : PortEffect a s u) : u.cfg = s.cfg := by cases h <;> rfl

@[simp] theorem hostAccess_cfg (a : Access) (s : State) : (hostAccess a s).cfg = s.cfg := by
  obtain ⟨u, resp, data, hu, h⟩ := hostAccess_cases a s
  rw [h, respond_cfg, hu.cfg_eq]

@[simp] theorem advance_cfg (s : State) : (advance s).cfg = s.cfg := (advance_frame s).cfg

@[simp] theorem engineStep_cfg (s : State) : (engineStep s).cfg = s.cfg := by
  obtain h | h := engineStep_cases s <;> simp [h]

@[simp] theorem transportStep_cfg (s : State) : (transportStep s).cfg = s.cfg := by
  obtain h | h := transportStep_cases s <;> simp [h]

@[simp] theorem resetInput_cfg (s : State) : (resetInput s).cfg = s.cfg := rfl

@[simp] theorem pollStep_cfg (s : State) (rest : List Event) : (pollStep s rest).cfg = s.cfg := by
  unfold pollStep
  split <;> simp

theorem cfg_of_exec {i : Instr} {s t : State} (h : exec i s = .next t) : t.cfg = s.cfg := by
  rw [exec_eq_advanceFor] at h
  cases h
  exact (advanceFor_frame _ (accept i s)).cfg

theorem cfg_of_runWord {w : Word} {s t : State} (h : runWord w s = .next t) : t.cfg = s.cfg := by
  obtain ⟨_, hr⟩ | ⟨_, i, _, hr⟩ | ⟨_, e, _, hr⟩ := runWord_cases w s <;> rw [hr] at h
  · cases h; rfl
  · exact cfg_of_exec h
  · cases h; rfl

theorem cfg_of_step {s t : State} (h : step s = .next t) : t.cfg = s.cfg := by
  cases hin : s.inbox with
  | nil =>
    simp only [step, hin] at h
    cases h
    exact advance_cfg s
  | cons e rest =>
    cases e with
    | command w =>
      simp only [step, hin] at h
      exact (cfg_of_runWord h).trans (respond_cfg _ _ _ _)
    | host a => simp only [step, hin] at h; cases h; exact hostAccess_cfg _ _
    | waitIdle => simp only [step, hin] at h; cases h; exact pollStep_cfg _ _
    | engine => simp only [step, hin] at h; cases h; exact engineStep_cfg _
    | transport => simp only [step, hin] at h; cases h; exact transportStep_cfg _
    | reset => simp only [step, hin] at h; cases h; exact resetInput_cfg _

/-- Settles O21: the running command, every event of the inbox, and the reset input keep the parameters. -/
theorem parametersAreConstant : Obligations.ParametersAreConstant := fun _ _ h => cfg_of_step h

end Sys2Proof.Machine
end

section
/-! PROOFS. The glyph step: what it draws, and CHAR of a glyph that fits (R123, R126 to R128). -/

namespace Sys2Proof.Machine

/-! ### The glyph's dots -/

theorem font_fw_le (font : Font) : font.fw ≤ 255 := font.widthPred.isLt

theorem font_fh_le (font : Font) : font.fh ≤ 255 := font.heightPred.isLt

theorem columnMask_eq_twoPow {j : Nat} (h : j < 16) : columnMask j = BitVec.twoPow 16 (15 - j) := by
  interval_cases j <;> rfl

/-- The column mask selects the bit the statements name (R123). -/
theorem glyphBit_eq_glyphPixel (font : Font) (ch : Byte) (i j : Nat) :
    glyphBit font ch i j = glyphPixel font ch i j := by
  unfold glyphBit glyphPixel glyphRow fontRow
  by_cases hj : j < 16
  · have hne : BitVec.twoPow 16 (15 - j) ≠ 0 := by interval_cases j <;> decide
    rw [columnMask_eq_twoPow hj, BitVec.and_twoPow]
    split <;> simp_all
  · simp [columnMask, hj]

/-- Row i, column j of the glyph is a dot at the cursor plus (j, i) modulo 2^16, in the glyph's colour there (R127). -/
theorem mem_glyphDots {font : Font} {ch : Byte} {x y : Half} {c : Bool} {d : Point × Bool} :
    d ∈ glyphDots font ch x y c ↔ ∃ i j, i < font.fh ∧ j < font.fw ∧ d.1.1.toNat = (x.toNat + j) % 65536 ∧
      d.1.2.toNat = (y.toNat + i) % 65536 ∧ d.2 = glyphColour font ch i j c := by
  have hcoord : ∀ (u v : Half) (k : Nat), mod16 (u.toNat + k) = v ↔ v.toNat = (u.toNat + k) % 65536 := by
    intro u v k
    rw [← BitVec.toNat_inj, toNat_mod16]
    omega
  obtain ⟨⟨px, py⟩, b⟩ := d
  simp only [glyphDots, List.mem_flatMap, List.mem_map, List.mem_range, Prod.mk.injEq, glyphBit_eq_glyphPixel, hcoord,
    glyphColour, eq_comm (b := b), exists_and_left, and_assoc]

section

variable {font : Font} {ch : Byte} {X Y : Half} {c : Bool} {fb : Memory}

/-- A glyph pixel on the panel takes its own colour: no two dots of a glyph coincide modulo 2^16 (R127). -/
theorem pixelAt_glyphDots {i j : Nat} (hi : i < font.fh) (hj : j < font.fw) (hx : (X.toNat + j) % 65536 < 128)
    (hy : (Y.toNat + i) % 65536 < 64) :
    pixelAt (putDots (glyphDots font ch X Y c) fb) ((X.toNat + j) % 65536) ((Y.toNat + i) % 65536) =
      glyphColour font ch i j c := by
  refine pixelAt_putDots_of_mem _ _ hx hy _ (fun d hd hxy => ?_) ?_
  · obtain ⟨i', j', hi', hj', h1, h2, h3⟩ := mem_glyphDots.mp hd
    have := font_fw_le font
    have := font_fh_le font
    obtain rfl : j' = j := by omega
    obtain rfl : i' = i := by omega
    exact h3
  · exact ⟨((BitVec.ofNat 16 (X.toNat + j), BitVec.ofNat 16 (Y.toNat + i)), glyphColour font ch i j c),
      mem_glyphDots.mpr ⟨i, j, hi, hj, rfl, rfl, rfl⟩, rfl, rfl⟩

/-- A panel pixel outside the glyph is as before. -/
theorem pixelAt_glyphDots_outside {x y : Nat} (hx : x < 128) (hy : y < 64)
    (h : ∀ i j, i < font.fh → j < font.fw → ¬ (x = (X.toNat + j) % 65536 ∧ y = (Y.toNat + i) % 65536)) :
    pixelAt (putDots (glyphDots font ch X Y c) fb) x y = pixelAt fb x y := by
  refine pixelAt_putDots_of_notMem _ _ hx hy fun d hd hxy => ?_
  obtain ⟨i, j, hi, hj, h1, h2, -⟩ := mem_glyphDots.mp hd
  exact h i j hi hj ⟨hxy.1.symm.trans h1, hxy.2.symm.trans h2⟩

/-- A byte that holds no glyph pixel of the panel is as before. -/
theorem read_glyphDots_outside {a : Nat}
    (h : ∀ i j, i < font.fh → j < font.fw → (X.toNat + j) % 65536 < 128 → (Y.toNat + i) % 65536 < 64 →
      pixelIndex ((X.toNat + j) % 65536) ((Y.toNat + i) % 65536) ≠ a) :
    (putDots (glyphDots font ch X Y c) fb).read a = fb.read a := by
  refine read_putDots_ne _ _ _ fun d hd => ?_
  obtain ⟨i, j, hi, hj, h1, h2, -⟩ := mem_glyphDots.mp hd
  rw [h1, h2]
  exact h i j hi hj

end

/-! ### The glyph step -/

theorem glyphCode_iff (ch : Byte) : glyphCode ch = true ↔ 32 ≤ ch.toNat ∧ ch.toNat ≤ 126 := by simp [glyphCode]

theorem glyphFits_iff (font : Font) (s : State) :
    glyphFits font s = true ↔ s.curX.toNat + font.fw ≤ 128 ∧ s.curY.toNat + font.fh ≤ 64 := by simp [glyphFits]

/-- A drawable code whose box fits at the cursor P_CHAR_CHECK names is plotted after the reposition (R126, R127). -/
theorem drawCharOp_ok {x y : Half} {ch : Byte} {f : BitVec 4} {c : Bool} {s : State} (hch : glyphCode ch = true)
    (hbefore : s.cfg.charCheck = .beforeReposition → glyphFits (fontOf s.cfg f) s = true)
    (hafter : s.cfg.charCheck = .afterReposition → glyphFits (fontOf s.cfg f) (reposition x y s) = true) :
    drawCharOp x y ch f c s = (.ok, plotGlyph (fontOf s.cfg f) ch c (reposition x y s)) := by
  cases hcheck : s.cfg.charCheck with
  | beforeReposition => simp [drawCharOp, hch, hcheck, hbefore hcheck]
  | afterReposition => simp [drawCharOp, hch, hcheck, hafter hcheck]

theorem OnlyDrew.batch_eq {s t : State} (h : OnlyDrew s t) : t.batch = s.batch := by rw [h.eq]

theorem OnlyDrew.initialized_eq {s t : State} (h : OnlyDrew s t) : t.initialized = s.initialized := by rw [h.eq]

theorem Prepared.of_onlyDrew {i : Instr} {s u v : State} (h : Prepared i s u) (k : OnlyDrew u v) : Prepared i s v := by
  rw [k.eq]
  exact h.update _ _ _ _ _ _

/-! ### CHAR -/

/-- The character a command reads from ARG2 as accepted: its low byte (R69). -/
theorem opdByte_accept (i : Instr) (s : State) : (accept i s).opdByte = BitVec.ofNat 8 (s.arg[2]).toNat := by
  simp [State.opdByte, State.opd, BitVec.setWidth_eq_extractLsb']

/-- Where the glyph step of a command just accepted plots: at the cursor in batch mode, else at its operands (R127). -/
theorem curX_reposition_accept (x y : Half) (i : Instr) (s : State) :
    (reposition x y (accept i s)).curX.toNat = if s.batch then s.curX.toNat else x.toNat := by
  cases hb : s.batch <;> simp [reposition, hb]

theorem curY_reposition_accept (x y : Half) (i : Instr) (s : State) :
    (reposition x y (accept i s)).curY.toNat = if s.batch then s.curY.toNat else y.toNat := by
  cases hb : s.batch <;> simp [reposition, hb]

theorem fb_reposition (x y : Half) (s : State) : (reposition x y s).fb = s.fb := by
  unfold reposition
  split <;> rfl

theorem segChar_of_ok {s u : State}
    (h : drawCharOp (s.opd 0) (s.opd 1) s.opdByte s.latch.font s.latch.color s = (.ok, u)) :
    segChar s = if u.batch then finishWith { code := .ok, char := s.opdByte } u else flushTail s.opdByte u := by
  rw [segChar, h]

/-- CHAR whose glyph step answers OK with the state `u`: it flushes `u`'s framebuffer unless batch mode is on (R128). -/
theorem exec_char_of_ok {s u : State} {c : Bool} {f : BitVec 4} {ch : Byte} (hch : ch = BitVec.ofNat 8 (s.arg[2]).toNat)
    (h : drawCharOp s.arg[0] s.arg[1] ch f c (accept (.char c f) s) = (.ok, u)) :
    ∃ t, exec (.char c f) s = .next t ∧ t.fb = u.fb ∧ t.curX = u.curX ∧ t.curY = u.curY ∧ t.initialized = s.initialized ∧
      (s.batch = false → Flushed 0x0D ch s t) ∧ (s.batch = true → Unflushed 0x0D { code := .ok, char := ch } s t) ∧
      KeepsRegisters s t ∧ Latched (.char c f) s t := by
  have hdrew : OnlyDrew (accept (.char c f) s) u := by
    have := drawCharOp_onlyDrew s.arg[0] s.arg[1] ch f c (accept (.char c f) s)
    rwa [h] at this
  have hu : Prepared (.char c f) s u := (accept_prepared _ s).of_onlyDrew hdrew
  have hbyte : (accept (.char c f) s).opdByte = ch := (opdByte_accept _ s).trans hch.symm
  have hseg := segChar_of_ok (s := accept (.char c f) s) (u := u) (by rw [hbyte]; exact h)
  rw [hbyte, hdrew.batch_eq, accept_batch] at hseg
  have hinit : u.initialized = s.initialized := hdrew.initialized_eq
  cases hb : s.batch with
  | false =>
    rw [hb] at hseg
    obtain ⟨t, hexec, hflush, hkeeps, hlatch, hfb, hx, hy, hi, -⟩ := run_flushTail hseg hu
    exact ⟨t, hexec, hfb, hx, hy, hi.trans hinit, fun _ => hflush, nofun, hkeeps, hlatch⟩
  | true =>
    rw [hb] at hseg
    obtain ⟨t, hexec, hfinish, hkeeps, hlatch, hfb, hx, hy, hi, -⟩ := run_finish hseg hu nofun
    exact ⟨t, hexec, hfb, hx, hy, hi.trans hinit, nofun, fun _ => hfinish, hkeeps, hlatch⟩

/-- Settles O45: the glyph step answers OK, so CHAR leaves the framebuffer and the cursor that step left. -/
theorem charDrawsItsGlyph : Obligations.CharDrawsItsGlyph := by
  intro s c f
  simp only [← curX_reposition_accept s.arg[0] s.arg[1] (.char c f) s, ← curY_reposition_accept s.arg[0] s.arg[1] (.char c f) s]
  intro hlo hhi hbefore hafter
  have hstep := drawCharOp_ok (x := s.arg[0]) (y := s.arg[1]) (f := f) (c := c) (s := accept (.char c f) s)
    ((glyphCode_iff _).mpr ⟨hlo, hhi⟩) (fun h => (glyphFits_iff _ _).mpr (hbefore h))
    (fun h => (glyphFits_iff _ _).mpr (hafter h))
  obtain ⟨t, hexec, hfb, hcurX, hcurY, hinit, hflush, hbatch, hkeeps, hlatch⟩ := exec_char_of_ok rfl hstep
  rw [plotGlyph_fb, fb_reposition, accept_fb, accept_cfg] at hfb
  rw [plotGlyph_curX, accept_cfg] at hcurX
  rw [plotGlyph_curY] at hcurY
  refine ⟨t, hexec, ?_, ?_, ?_, ?_, by rw [hcurY], hinit, hflush, hbatch, hkeeps, hlatch⟩
  · rw [hfb]; exact fun i j hi hj hx hy => pixelAt_glyphDots hi hj hx hy
  · rw [hfb]; exact fun x y hx hy h => pixelAt_glyphDots_outside hx hy h
  · rw [hfb]; exact fun a h => read_glyphDots_outside h
  · rw [hcurX, toNat_mod16]; omega

end Sys2Proof.Machine
end

section
/-! PROOFS. The step, one equation per event, and the invariant of a safe run: it holds at reset and every step keeps it (R24, R30,
R32, R61, R134, R137). -/

namespace Sys2Proof.Machine

/-! ### The step, event by event -/

section

variable {s : State} {rest : List Event}

theorem step_nil (h : s.inbox = []) : step s = .next (advance s) := by simp only [step, h]

theorem step_host {a : Access} (h : s.inbox = .host a :: rest) :
    step s = .next (hostAccess a { s with inbox := rest }) := by simp only [step, h]

theorem step_waitIdle (h : s.inbox = .waitIdle :: rest) : step s = .next (pollStep s rest) := by simp only [step, h]

theorem step_command {w : Word} (h : s.inbox = .command w :: rest) :
    step s = runWord w (State.respond (cmdWrite w) .ok 0 { s with inbox := rest }) := by simp only [step, h]

theorem step_engine (h : s.inbox = .engine :: rest) : step s = .next (engineStep { s with inbox := rest }) := by
  simp only [step, h]

theorem step_transport (h : s.inbox = .transport :: rest) : step s = .next (transportStep { s with inbox := rest }) := by
  simp only [step, h]

theorem step_reset (h : s.inbox = .reset :: rest) : step s = .next (resetInput { s with inbox := rest }) := by
  simp only [step, h]

end

/-! ### The invariant over each agent's move -/

/-- The decoder accepts only legal commands (R71). -/
theorem wf_of_decode {p : Params} {w : Word} {i : Instr} (h : decode p w = .ok i) : i.wf p = true := by
  unfold decode at h
  split at h
  · cases h
  · split at h
    · cases h
    · rename_i j _
      cases hj : j.wf p <;> rw [hj] at h <;> cases h
      exact hj

/-- The invariant speaks of the parameters, the framebuffer, BATCH, RESULT, the latch and the sequencer only. -/
theorem State.Inv.congr {s t : State} (h : s.Inv) (hcfg : t.cfg = s.cfg) (hfb : t.fb = s.fb) (hbatch : t.batch = s.batch)
    (hresult : t.result = s.result) (hlatch : t.latch = s.latch) (hengine : t.engine = s.engine) : t.Inv where
  fbWf := by rw [hfb]; exact h.fbWf
  fbIn := by rw [hfb]; exact h.fbIn
  batch := by rw [hbatch]; exact h.batch
  result := by rw [hresult]; exact h.result
  engine := by
    have := h.engine
    unfold EngineConsistent at this ⊢
    rwa [hengine, hcfg, hfb, hlatch]

theorem State.Inv.withInbox {s : State} (h : s.Inv) (rest : List Event) : State.Inv { s with inbox := rest } :=
  h.congr rfl rfl rfl rfl rfl rfl

theorem State.Inv.respond {s : State} (h : s.Inv) (a : Access) (r : Resp) (d : Word) : (s.respond a r d).Inv :=
  h.congr rfl rfl rfl rfl rfl rfl

theorem State.Inv.setOvr {s : State} (h : s.Inv) : (setOvr s).Inv := h.congr rfl rfl rfl rfl rfl rfl

/-- A legal command is latched as it is accepted (R19). -/
theorem State.Inv.accept {s : State} (h : s.Inv) {i : Instr} (hi : i.wf s.cfg = true) : (accept i s).Inv :=
  ⟨h.fbWf, h.fbIn, h.batch, h.result, hi, rfl, rfl, rfl⟩

/-- ILLEGAL_CMD is a code without a failed transaction, and the sequencer stays idle (R71, R137). -/
theorem State.Inv.rejectWord {s : State} (h : s.Inv) (w : Word) : (rejectWord w s).Inv :=
  ⟨h.fbWf, h.fbIn, h.batch, consistent_of_code 0 (by decide), h.engine⟩

/-- What a segment settles, with the RESULT of the state before it, meets the invariant. -/
theorem Settled.inv {s t : State} (h : Settled t) (hs : s.Inv) (hresult : t.result = s.result) : t.Inv :=
  ⟨h.fbWf, h.fbIn, h.batch, by rw [hresult]; exact hs.result, h.engine⟩

/-- The completion a settled sequencer holds becomes RESULT (R138). -/
theorem State.Inv.complete {s : State} {c : Completion} (h : s.Inv) (hc : s.engine = .finishing c) : (complete c s).Inv := by
  have hcons : c.Consistent := by
    have := h.engine
    unfold EngineConsistent at this
    rwa [hc] at this
  exact ⟨h.fbWf, h.fbIn, rfl, hcons, trivial⟩

theorem State.Inv.answeredState {s : State} (h : s.Inv) (site : Site) (tx : Tx) : (answeredState site tx s).Inv := by
  have hframe := answeredState_frame site tx s
  refine ⟨by rw [hframe.fb]; exact h.fbWf, by rw [hframe.fb]; exact h.fbIn, ?_, ?_, trivial⟩
  · exact (dropAnswer_batch s).trans h.batch
  · rw [show (Machine.answeredState site tx s).result = s.result from dropAnswer_result s]
    exact h.result

/-- Every step of a running command keeps the invariant: a segment leaves the command settled, and a completion records what the
sequencer holds. -/
theorem State.Inv.advance {s : State} (h : s.Inv) : (advance s).Inv := by
  obtain ⟨_, ha⟩ | ⟨i, _, ha⟩ | ⟨site, tx, _, ha⟩ | ⟨site, r, _, ha⟩ | ⟨c, hc, ha⟩ := advance_cases s <;> rw [ha]
  · exact h
  · exact (settled_firstSegment i h.fbWf h.fbIn h.batch).inv h (by rw [firstSegment_frame])
  · exact h.answeredState site tx
  · exact (settled_resume site r h.fbWf h.fbIn h.batch).inv h (by rw [resume_frame])
  · exact h.complete hc

theorem State.Inv.advanceFor {s : State} (h : s.Inv) (n : Nat) : (advanceFor n s).Inv := by
  induction n generalizing s with
  | zero => exact h
  | succ n ih => exact ih h.advance

theorem State.Inv.engineStep {s : State} (h : s.Inv) : (engineStep s).Inv := by
  obtain he | he := engineStep_cases s <;> rw [he]
  · exact h
  · exact h.advance

theorem State.Inv.transportStep {s : State} (h : s.Inv) : (transportStep s).Inv := by
  obtain he | he := transportStep_cases s <;> rw [he]
  · exact h
  · exact h.advance

theorem PortEffect.inv {a : Access} {s u : State} (h : PortEffect a s u) (hs : s.Inv) : u.Inv := by
  cases h with
  | none => exact hs
  | accept w i _ _ hd => exact hs.accept (wf_of_decode hd)
  | reject w e _ _ _ => exact hs.rejectWord w
  | _ => exact hs.congr rfl rfl rfl rfl rfl rfl

theorem State.Inv.hostAccess {s : State} (h : s.Inv) (a : Access) : (hostAccess a s).Inv := by
  obtain ⟨u, resp, data, hu, ha⟩ := hostAccess_cases a s
  rw [ha]
  exact (hu.inv h).respond a resp data

theorem State.Inv.pollStep {s : State} (h : s.Inv) (rest : List Event) : (pollStep s rest).Inv := by
  unfold Machine.pollStep
  split
  · exact (h.hostAccess statusRead).advance
  · exact (h.withInbox rest).hostAccess statusRead

theorem State.Inv.exec {s t : State} {i : Instr} (h : s.Inv) (hi : i.wf s.cfg = true) (ht : exec i s = .next t) : t.Inv := by
  rw [exec_eq_advanceFor] at ht
  cases ht
  exact (h.accept hi).advanceFor _

theorem State.Inv.runWord {s t : State} {w : Word} (h : s.Inv) (ht : runWord w s = .next t) : t.Inv := by
  obtain ⟨_, hr⟩ | ⟨_, i, hd, hr⟩ | ⟨_, e, _, hr⟩ := runWord_cases w s <;> rw [hr] at ht
  · cases ht; exact h.setOvr
  · exact h.exec (wf_of_decode hd) ht
  · cases ht; exact h.rejectWord w

theorem inv_atReset (p : Params) (n : Nat) : (State.atReset p n).Inv :=
  ⟨rfl, rfl, rfl, consistent_of_code 0 (by decide), trivial⟩

theorem inv_resetInput (s : State) : (resetInput s).Inv := (inv_atReset s.cfg s.textDraws).congr rfl rfl rfl rfl rfl rfl

/-- Settles O17: whichever agent moves, its move keeps the invariant. -/
theorem invariantKeptByStep : Obligations.InvariantKeptByStep := by
  intro s t hs h
  cases hin : s.inbox with
  | nil => rw [step_nil hin] at h; cases h; exact hs.advance
  | cons e rest =>
    have hs' := hs.withInbox rest
    cases e with
    | host a => rw [step_host hin] at h; cases h; exact hs'.hostAccess a
    | waitIdle => rw [step_waitIdle hin] at h; cases h; exact hs.pollStep rest
    | command w => rw [step_command hin] at h; exact (hs'.respond _ _ _).runWord h
    | engine => rw [step_engine hin] at h; cases h; exact hs'.engineStep
    | transport => rw [step_transport hin] at h; cases h; exact hs'.transportStep
    | reset => rw [step_reset hin] at h; cases h; exact inv_resetInput _

/-- Settles O16: the empty framebuffer is canonical, RESULT 0 is consistent, and an idle sequencer holds nothing. -/
theorem invariantAtReset : Obligations.InvariantAtReset := inv_atReset Config.installed 0

end Sys2Proof.Machine
end

section
/-! PROOFS. What one step does to the operand registers, TEXT and the sticky bits, and what a host access leaves alone (R15, R26 to
R29, R33, R34, R42, R51, R53, R159). -/

namespace Sys2Proof.Machine

/-! ### Host writes, by register -/

/-- A write the register takes answers OK (R48). -/
theorem hostAccess_write {addr : Offset} {v : Word} {r : Reg} {s u : State} (hr : regAt addr = some r)
    (hu : writeReg r v s = some u) : hostAccess (.write 4 addr v) s = State.respond (.write 4 addr v) .ok 0 u := by
  simp only [hostAccess, hostWrite, accessReg, if_true, hr, Option.bind_some, hu]

/-- Where ARGn stands in the map (R39). -/
theorem regAt_argOffset : ∀ n : Fin 6, regAt (BitVec.ofNat 12 (0x010 + 4 * n.val)) = some (.arg n) := by decide

/-- Settles O54: the write sets one element of ARG to the word's low half. -/
theorem argWriteStoresLowHalf : Obligations.ArgWriteStoresLowHalf := by
  intro s n v rest a h
  refine ⟨s.arg.set n (v.extractLsb' 0 16), ?_, ?_, fun m hm => ?_⟩
  · rw [step_host h, hostAccess_write (regAt_argOffset n) rfl]
  · simp
  · have hne : n.val ≠ m.val := fun h => hm (Fin.ext h.symm)
    simp [hne]

/-- Settles O56: clearing where the word has a 1 is keeping where it has a 0. -/
theorem statusWriteClearsSticky : Obligations.StatusWriteClearsSticky := by
  intro s v rest h
  have hbit : ∀ b c : Bool, (if c then false else b) = (b && !c) := by decide
  rw [step_host h, hostAccess_write (r := .status) rfl rfl, hbit, hbit, hbit]
  rfl

/-- Settles O24: no effect of a host access is on what the engine alone writes. -/
theorem hostAccessNeverDraws : Obligations.HostAccessNeverDraws := by
  intro s a
  obtain ⟨u, resp, data, hu, h⟩ := hostAccess_cases a s
  rw [h]
  cases hu <;> exact ⟨rfl, rfl, rfl, rfl, rfl, rfl⟩

/-! ### The CMD write that waits -/

/-- A legal word while BUSY = 0 runs as the command it decodes to (R18, R71). -/
theorem runWord_of_decode {w : Word} {i : Instr} {s : State} (hb : s.busy = false) (hd : decode s.cfg w = .ok i) :
    runWord w s = exec i s := by
  simp only [runWord, hb, Bool.false_eq_true, if_false, hd]

theorem withFetchWord_inbox (s : State) {w : Nat} (hw : w < 2 ^ 32) :
    (s.withFetchWord 32 w).inbox = .command (BitVec.ofNat 32 w) :: s.inbox := by
  simp only [State.withFetchWord, Nat.mod_eq_of_lt hw]

/-- Settles O8: recording the response changes neither BUSY nor the parameters, so the word is decoded as it stands. -/
theorem stepRunsTheDecodedCommand : Obligations.StepRunsTheDecodedCommand := by
  have hstep : ∀ (s : State) (w : Word) (i : Instr) (rest : List Event), s.inbox = .command w :: rest → s.busy = false →
      decode s.cfg w = .ok i → step s = exec i (State.respond (cmdWrite w) .ok 0 { s with inbox := rest }) :=
    fun s w i rest hin hb hd => (step_command hin).trans (runWord_of_decode hb hd)
  exact ⟨hstep, fun s w i hw hb hd => hstep _ _ i s.inbox (withFetchWord_inbox s hw) hb hd⟩

/-! ### What only the host and the reset input change -/

/-- From `s` to `t`, ARG and TEXT are as before and no sticky bit was cleared: every move but a host access and a reset. -/
structure KeepsHostState (s t : State) : Prop where
  arg : t.arg = s.arg
  text : t.text = s.text
  ovr : s.ovr = true → t.ovr = true
  ill : s.ill = true → t.ill = true
  terr : s.terr = true → t.terr = true

theorem KeepsHostState.refl (s : State) : KeepsHostState s s := ⟨rfl, rfl, id, id, id⟩

theorem KeepsHostState.trans {s t u : State} (h : KeepsHostState s t) (k : KeepsHostState t u) : KeepsHostState s u :=
  ⟨k.arg.trans h.arg, k.text.trans h.text, k.ovr ∘ h.ovr, k.ill ∘ h.ill, k.terr ∘ h.terr⟩

theorem keepsHostState_withInbox (s : State) (rest : List Event) : KeepsHostState s { s with inbox := rest } :=
  ⟨rfl, rfl, id, id, id⟩

theorem keepsHostState_respond (a : Access) (r : Resp) (d : Word) (s : State) : KeepsHostState s (s.respond a r d) :=
  ⟨rfl, rfl, id, id, id⟩

/-- A running command sets TERR at its completion and never clears it (R28, R138). -/
theorem terr_advance {s : State} (h : s.terr = true) : (advance s).terr = true := by
  obtain ⟨_, ha⟩ | ⟨i, _, ha⟩ | ⟨site, tx, _, ha⟩ | ⟨site, r, _, ha⟩ | ⟨c, _, ha⟩ := advance_cases s <;> rw [ha]
  · exact h
  · rw [firstSegment_frame]; exact h
  · exact (dropAnswer_terr s).trans h
  · rw [resume_frame]; exact h
  · simp [complete, terrAfter, h]

theorem keepsHostState_advance (s : State) : KeepsHostState s (advance s) := by
  have hframe := advance_frame s
  exact ⟨hframe.arg, hframe.text, hframe.ovr.trans, hframe.ill.trans, terr_advance⟩

theorem keepsHostState_advanceFor (n : Nat) (s : State) : KeepsHostState s (advanceFor n s) := by
  induction n generalizing s with
  | zero => exact .refl s
  | succ n ih => exact (keepsHostState_advance s).trans (ih (advance s))

theorem keepsHostState_engineStep (s : State) : KeepsHostState s (engineStep s) := by
  obtain h | h := engineStep_cases s <;> rw [h]
  · exact .refl s
  · exact keepsHostState_advance s

theorem keepsHostState_transportStep (s : State) : KeepsHostState s (transportStep s) := by
  obtain h | h := transportStep_cases s <;> rw [h]
  · exact .refl s
  · exact keepsHostState_advance s

theorem keepsHostState_statusRead (s : State) : KeepsHostState s (hostAccess statusRead s) := by
  obtain ⟨d, n, h, _⟩ := hostAccess_statusRead s
  rw [h]
  exact ⟨rfl, rfl, id, id, id⟩

theorem keepsHostState_pollStep (s : State) (rest : List Event) : KeepsHostState s (pollStep s rest) := by
  unfold pollStep
  split
  · exact (keepsHostState_statusRead s).trans (keepsHostState_advance _)
  · exact (keepsHostState_withInbox s rest).trans (keepsHostState_statusRead _)

theorem keepsHostState_exec {i : Instr} {s t : State} (h : exec i s = .next t) : KeepsHostState s t := by
  rw [exec_eq_advanceFor] at h
  cases h
  have haccept : KeepsHostState s (accept i s) := ⟨rfl, rfl, id, id, id⟩
  exact haccept.trans (keepsHostState_advanceFor _ _)

theorem keepsHostState_runWord {w : Word} {s t : State} (h : runWord w s = .next t) : KeepsHostState s t := by
  obtain ⟨_, hr⟩ | ⟨_, i, _, hr⟩ | ⟨_, e, _, hr⟩ := runWord_cases w s <;> rw [hr] at h
  · cases h; exact ⟨rfl, rfl, fun _ => rfl, id, id⟩
  · exact keepsHostState_exec h
  · cases h; exact ⟨rfl, rfl, id, fun _ => rfl, id⟩

/-- A step is a host access, a reset, or a move that keeps ARG, TEXT and the sticky bits that are set. -/
theorem step_hostState {s t : State} (h : step s = .next t) :
    (∃ a rest, s.inbox = .host a :: rest ∧ t = hostAccess a { s with inbox := rest }) ∨
    (∃ rest, s.inbox = .reset :: rest) ∨ KeepsHostState s t := by
  cases hin : s.inbox with
  | nil => rw [step_nil hin] at h; cases h; exact .inr (.inr (keepsHostState_advance s))
  | cons e rest =>
    have htake := keepsHostState_withInbox s rest
    cases e with
    | host a => rw [step_host hin] at h; cases h; exact .inl ⟨a, rest, rfl, rfl⟩
    | reset => exact .inr (.inl ⟨rest, rfl⟩)
    | waitIdle => rw [step_waitIdle hin] at h; cases h; exact .inr (.inr (keepsHostState_pollStep s rest))
    | command w =>
      rw [step_command hin] at h
      exact .inr (.inr (htake.trans ((keepsHostState_respond _ _ _ _).trans (keepsHostState_runWord h))))
    | engine => rw [step_engine hin] at h; cases h; exact .inr (.inr (htake.trans (keepsHostState_engineStep _)))
    | transport => rw [step_transport hin] at h; cases h; exact .inr (.inr (htake.trans (keepsHostState_transportStep _)))

/-- A host access changes ARG only by a write of an operand register (R15). -/
theorem PortEffect.arg_eq {a : Access} {s u : State} (h : PortEffect a s u) :
    u.arg = s.arg ∨ ∃ addr v, a = .write 4 addr v ∧ 0x010 ≤ addr.toNat ∧ addr.toNat < 0x028 := by
  cases h with
  | arg addr n v ha haddr => exact .inr ⟨addr, v, ha, by omega, by omega⟩
  | _ => exact .inl rfl

/-- A host access changes TEXT only by a write of a TEXT word while idle (R34, R159). -/
theorem PortEffect.text_eq {a : Access} {s u : State} (h : PortEffect a s u) :
    u.text = s.text ∨ s.busy = false ∧ ∃ addr v, a = .write 4 addr v ∧ 0x100 ≤ addr.toNat ∧ addr.toNat < 0x200 := by
  cases h with
  | text addr k v ha haddr hb => exact .inr ⟨hb, addr, v, ha, by omega, by omega⟩
  | _ => exact .inl rfl

/-- A host access clears a sticky bit only by a write of STATUS (R29). -/
theorem PortEffect.sticky {a : Access} {s u : State} (h : PortEffect a s u) (ha : ∀ v, a ≠ .write 4 0x008 v) :
    (s.ovr = true → u.ovr = true) ∧ (s.ill = true → u.ill = true) ∧ (s.terr = true → u.terr = true) := by
  cases h with
  | clear v hv => exact absurd hv (ha v)
  | overrun _ => exact ⟨fun _ => rfl, id, id⟩
  | reject _ _ _ _ _ => exact ⟨id, fun _ => rfl, id⟩
  | _ => exact ⟨id, id, id⟩

/-- Settles O23: of the moves of a step only a host access of that register and a reset change ARG or TEXT. -/
theorem onlyHostWritesArgAndText : Obligations.OnlyHostWritesArgAndText := by
  intro s t h
  obtain ⟨a, rest, hin, rfl⟩ | hreset | hkeep := step_hostState h
  · obtain ⟨u, resp, data, hu, ha⟩ := hostAccess_cases a { s with inbox := rest }
    rw [ha, hin]
    refine ⟨fun hne => ?_, fun hne => ?_⟩
    · obtain heq | ⟨addr, v, rfl, haddr⟩ := hu.arg_eq
      · exact absurd heq hne
      · exact .inl ⟨addr, v, rest, rfl, haddr⟩
    · obtain heq | ⟨hb, addr, v, rfl, haddr⟩ := hu.text_eq
      · exact absurd heq hne
      · exact .inl ⟨hb, addr, v, rest, rfl, haddr⟩
  · exact ⟨fun _ => .inr hreset, fun _ => .inr hreset⟩
  · exact ⟨fun hne => absurd hkeep.arg hne, fun hne => absurd hkeep.text hne⟩

/-- Settles O25: of the moves of a step only a host write of STATUS and a reset clear a sticky bit. -/
theorem stickyBitsStay : Obligations.StickyBitsStay := by
  intro s t h hstatus hreset
  obtain ⟨a, rest, hin, rfl⟩ | ⟨rest, hin⟩ | hkeep := step_hostState h
  · obtain ⟨u, resp, data, hu, ha⟩ := hostAccess_cases a { s with inbox := rest }
    rw [ha]
    exact hu.sticky fun v hv => hstatus v rest (by rw [hin, hv])
  · exact absurd hin (hreset rest)
  · exact ⟨hkeep.ovr, hkeep.ill, hkeep.terr⟩

end Sys2Proof.Machine
end

section
/-! PROOFS. The bits of STATUS, CURSOR and RESULT as numbers (R21, R22, R25, R30, R31, R82). -/

namespace Sys2Proof.Machine

/-- Appended fields as a number: the high one above the low one's width. -/
theorem toNat_append_eq_add {m n : Nat} (x : BitVec m) (y : BitVec n) : (x ++ y).toNat = x.toNat * 2 ^ n + y.toNat := by
  rw [BitVec.toNat_append, ← Nat.shiftLeft_add_eq_or_of_lt y.isLt, Nat.shiftLeft_eq]

theorem statusBits_toNat : ∀ busy initialized batch ovr ill terr : Bool,
    (statusBits busy initialized batch ovr ill terr).toNat =
      busy.toNat + 2 * initialized.toNat + 8 * batch.toNat + 256 * ovr.toNat + 512 * ill.toNat + 1024 * terr.toNat := by
  decide

/-- Settles O49: STATUS by its six bits, CURSOR by its two halves. -/
theorem statusAndCursorBits : Obligations.StatusAndCursorBits := by
  intro s
  refine ⟨statusBits_toNat _ _ _ _ _ _, ?_⟩
  rw [State.cursorWord, toNat_append_eq_add]
  omega

/-- RESULT's fields at their bits, with the code and the kind still as fields (R30). -/
theorem Result.word_toNat (r : Result) : r.word.toNat =
    r.info.code.bits.toNat + 16 * (answerBits r.info.tkind).toNat + 256 * r.info.char.toNat + 65536 * r.info.fpage.toNat +
      2 ^ 20 * r.info.fcfg.toNat + 2 ^ 24 * r.op.toNat := by
  simp only [Result.word, toNat_append_eq_add, BitVec.toNat_ofBool, BitVec.toNat_ofNat]
  omega

/-- Settles O50: RESULT's fields at their bits, then the numbers of the codes and the kinds. -/
theorem resultBits : Obligations.ResultBits := by
  intro r
  rw [Result.word_toNat]
  cases r.info.code <;> cases r.info.tkind <;> rfl

end Sys2Proof.Machine
end

section
/-! PROOFS. How a command other than INIT ends, and that it leaves INITIALIZED alone (R23, R42, R85, R138). -/

namespace Sys2Proof.Machine

/-- `u` is `s` but for its framebuffer, its cursor and BATCH: what a command other than INIT does before its flush or its finish. -/
def Drawn (s u : State) : Prop := u = { s with fb := u.fb, curX := u.curX, curY := u.curY, batch := u.batch }

theorem OnlyDrew.drawn {s u : State} (h : OnlyDrew s u) : Drawn s u := by
  unfold Drawn
  rw [h.eq]

theorem Drawn.trans {s t u : State} (h : Drawn s t) (k : Drawn t u) : Drawn s u := by
  unfold Drawn at h k ⊢
  rw [k, h]

theorem Drawn.initialized_eq {s u : State} (h : Drawn s u) : u.initialized = s.initialized := by
  unfold Drawn at h
  rw [h]

theorem Prepared.of_drawn {i : Instr} {s u v : State} (h : Prepared i s u) (k : Drawn u v) : Prepared i s v := by
  unfold Drawn at k
  rw [k]
  exact h.update _ _ _ _ _ _

/-- The two ends of a first segment that is not INIT's: FlushTail, or a finish without a flush (R85, R138). -/
inductive SegmentEnd (s : State) : State → Prop
  | flush (ch : Byte) {u : State} : Drawn s u → SegmentEnd s (flushTail ch u)
  | finish (c : Completion) {u : State} : c.code ≠ .transportFail → Drawn s u → SegmentEnd s (finishWith c u)

theorem segmentEnd_shape (points : List Point) (s : State) : SegmentEnd s (shapeSegment points s) := .flush 0 rfl

theorem segmentEnd_fill (m : Memory) (s : State) : SegmentEnd s (flushTail 0 { s with fb := m }) := .flush 0 rfl

theorem segmentEnd_line (s : State) : SegmentEnd s (segLine s) := by
  simp only [segLine]
  split
  · exact .finish _ nofun rfl
  · exact .flush 0 rfl

theorem segmentEnd_char (s : State) : SegmentEnd s (segChar s) := by
  have hdrew := drawCharOp_onlyDrew (s.opd 0) (s.opd 1) s.opdByte s.latch.font s.latch.color s
  have hcode := drawCharOp_code (s.opd 0) (s.opd 1) s.opdByte s.latch.font s.latch.color s
  unfold segChar
  split
  · rename_i u hu
    rw [hu] at hdrew
    split
    · exact .finish _ nofun hdrew.drawn
    · exact .flush _ hdrew.drawn
  · rename_i code u _ hu
    rw [hu] at hdrew hcode
    exact .finish _ (by rintro rfl; simp at hcode) hdrew.drawn

theorem segmentEnd_str (s : State) : SegmentEnd s (segStr s) := by
  have hdrew := strLoop_onlyDrew (s.opd 0) (s.opd 1) s.latch.font s.latch.color (s.text.toList.drop s.opdByte.toNat)
    (State.setCursor (s.opd 0) (s.opd 1) { s with batch := true })
  have hcode := strLoop_code (s.opd 0) (s.opd 1) s.latch.font s.latch.color (s.text.toList.drop s.opdByte.toNat)
    (State.setCursor (s.opd 0) (s.opd 1) { s with batch := true })
  have hstart : Drawn s (State.setCursor (s.opd 0) (s.opd 1) { s with batch := true }) := rfl
  unfold segStr
  split
  · rename_i u hu
    rw [hu] at hdrew
    exact .flush _ (hstart.trans hdrew.drawn)
  · rename_i code ch u hu
    rw [hu] at hdrew hcode
    have hend : Drawn u { u with batch := false } := rfl
    exact .finish _ (by rintro rfl; simpa using hcode _ _ rfl) ((hstart.trans hdrew.drawn).trans hend)

/-- Every first segment but INIT's ends with FlushTail or with a finish. -/
theorem firstSegment_end {i : Instr} (hi : i.opcode ≠ 0x01) (s : State) : SegmentEnd s (firstSegment i s) := by
  cases i with
  | init c f => exact absurd rfl hi
  | clear c f => exact segmentEnd_fill _ s
  | allon c f => exact segmentEnd_fill _ s
  | flush c f => exact .flush 0 rfl
  | setpixel c f => exact .finish { code := .ok } nofun rfl
  | gotoxy c f => exact .finish { code := .ok } nofun rfl
  | line c f => exact segmentEnd_line s
  | char c f => exact segmentEnd_char s
  | str c f => exact segmentEnd_str s
  | _ => exact segmentEnd_shape _ s

theorem initialized_exec {i : Instr} (hi : i.opcode ≠ 0x01) (s : State) :
    ∃ t, exec i s = .next t ∧ t.initialized = s.initialized := by
  have hprep := accept_prepared i s
  rw [exec_eq]
  generalize hseg : firstSegment i (accept i s) = v
  have hend : SegmentEnd (accept i s) v := hseg ▸ firstSegment_end hi (accept i s)
  cases hend with
  | flush ch hu =>
    obtain ⟨t, hrun, -, -, -, -, -, -, hinit, -⟩ := run_flushTail hseg (hprep.of_drawn hu)
    exact ⟨t, hrun, hinit.trans hu.initialized_eq⟩
  | finish c hc hu =>
    obtain ⟨t, hrun, -, -, -, -, -, -, hinit, -⟩ := run_finish hseg (hprep.of_drawn hu) hc
    exact ⟨t, hrun, hinit.trans hu.initialized_eq⟩

/-- Settles O22: a whole command has a next state, and INITIALIZED outlasts every command that is not INIT. -/
theorem onlyInitWritesInitialized : Obligations.OnlyInitWritesInitialized := by
  intro i s
  by_cases hi : i.opcode = 0x01
  · exact ⟨_, exec_next i s, fun hne => absurd hi hne⟩
  · obtain ⟨t, hexec, hinit⟩ := initialized_exec hi s
    exact ⟨t, hexec, fun _ => hinit⟩

end Sys2Proof.Machine
end

section
/-! PROOFS. Acceptance of a legal word, and that a running command computes the same beside other host registers, sticky bits and
environment lists (R19, R56, R71, R79). -/

namespace Sys2Proof

/-! ### A legal word decodes -/

theorem opField_toNat (w : Word) : (opField w).toNat = w.toNat % 256 := by simp [opField]

theorem fontField_toNat (w : Word) : (fontField w).toNat = w.toNat / 2 ^ 12 % 16 := by
  simp [fontField, Nat.shiftRight_eq_div_pow]

theorem rsv0Field_eq_zero_iff (w : Word) : rsv0Field w = 0 ↔ w.toNat / 2 ^ 9 % 8 = 0 := by
  rw [← BitVec.toNat_inj]
  simp [rsv0Field, Nat.shiftRight_eq_div_pow]

theorem rsv1Field_eq_zero_iff (w : Word) : rsv1Field w = 0 ↔ w.toNat / 2 ^ 16 = 0 := by
  have hhigh : w.toNat / 2 ^ 16 < 2 ^ 16 := by have := w.isLt; omega
  rw [← BitVec.toNat_inj, rsv1Field, BitVec.extractLsb'_toNat, Nat.shiftRight_eq_div_pow, Nat.mod_eq_of_lt hhigh]
  rfl

/-- Every opcode from 1 to 15 has its row in the opcode map (R65). -/
theorem instrOfFields_of_range {op : Byte} (hlo : 1 ≤ op.toNat) (hhi : op.toNat ≤ 15) (c : Bool) (f : BitVec 4) :
    ∃ i, instrOfFields op c f = some i ∧ i.opcode = op ∧ i.color = c ∧ i.font = f := by
  obtain ⟨n, hn, rfl⟩ : ∃ n, op.toNat = n ∧ op = BitVec.ofNat 8 n := ⟨op.toNat, rfl, by simp⟩
  rw [hn] at hlo hhi
  interval_cases n <;> exact ⟨_, rfl, rfl, rfl, rfl⟩

/-- Only CHAR and STR ask for a font the block has (R67, R71). -/
theorem wf_iff_opcode_font (p : Params) (i : Instr) :
    i.wf p = true ↔ ¬ ((i.opcode.toNat = 0x0D ∨ i.opcode.toNat = 0x0E) ∧ p.nfonts ≤ i.font.toNat) := by
  cases i with
  | char c f => simp [Instr.wf, Instr.opcode, Instr.font, fontLegal]
  | str c f => simp [Instr.wf, Instr.opcode, Instr.font, fontLegal]
  | _ => simp [Instr.wf, Instr.opcode]

/-- A legal word decodes to the command of its fields (R71, R79). -/
theorem decode_of_legalWord {p : Params} {w : Word} (h : Machine.legalWord p w) :
    ∃ i, decode p w = .ok i ∧ i.opcode.toNat = w.toNat % 256 ∧ i.color = w.getLsbD 8 ∧
      i.font.toNat = w.toNat / 2 ^ 12 % 16 := by
  obtain ⟨hrsv1, hrsv0, hlo, hhi, hfont⟩ := h
  rw [← rsv1Field_eq_zero_iff] at hrsv1
  rw [← rsv0Field_eq_zero_iff] at hrsv0
  obtain ⟨i, hi, hop, hcolor, hf⟩ :=
    instrOfFields_of_range (op := opField w) (by rwa [opField_toNat]) (by rwa [opField_toNat]) (colorField w) (fontField w)
  have hwf : i.wf p = true := by
    rw [wf_iff_opcode_font, hop, hf, opField_toNat, fontField_toNat]
    exact hfont
  refine ⟨i, ?_, by rw [hop, opField_toNat], hcolor, by rw [hf, fontField_toNat]⟩
  simp [decode, hrsv1, hrsv0, hi, hwf]

end Sys2Proof

namespace Sys2Proof.Machine

/-! ### What a running command does not read -/

/-- `s` beside `o`'s host registers, sticky bits and environment lists: the fields no segment reads or writes (R19, R42, R56). -/
def State.beside (s o : State) : State :=
  { s with
    arg := o.arg
    ovr := o.ovr
    ill := o.ill
    terr := o.terr
    inbox := o.inbox
    hostLog := o.hostLog
    readDraws := o.readDraws
    textDraws := o.textDraws }

section

variable (s o : State)

@[simp] theorem beside_cfg : (s.beside o).cfg = s.cfg := rfl
@[simp] theorem beside_latch : (s.beside o).latch = s.latch := rfl
@[simp] theorem beside_batch : (s.beside o).batch = s.batch := rfl
@[simp] theorem beside_engine : (s.beside o).engine = s.engine := rfl
@[simp] theorem beside_opd (n : Fin 6) : (s.beside o).opd n = s.opd n := rfl
@[simp] theorem beside_opdByte : (s.beside o).opdByte = s.opdByte := rfl
@[simp] theorem glyphFits_beside (font : Font) : glyphFits font (s.beside o) = glyphFits font s := rfl
@[simp] theorem draw_beside (ps : List Point) : (s.beside o).draw ps = (s.draw ps).beside o := rfl
@[simp] theorem setCursor_beside (x y : Half) : (s.beside o).setCursor x y = (s.setCursor x y).beside o := rfl
@[simp] theorem plotGlyph_beside (font : Font) (ch : Byte) (c : Bool) :
    plotGlyph font ch c (s.beside o) = (plotGlyph font ch c s).beside o := rfl
@[simp] theorem flushTail_beside (ch : Byte) : flushTail ch (s.beside o) = (flushTail ch s).beside o := rfl
theorem flushTail_fill_beside (m : Memory) :
    flushTail 0 { s.beside o with fb := m } = (flushTail 0 { s with fb := m }).beside o := rfl
@[simp] theorem finishWith_beside (c : Completion) : finishWith c (s.beside o) = (finishWith c s).beside o := rfl

end

theorem sameCommand_beside (s o : State) : SameCommand s (s.beside o) :=
  ⟨rfl, rfl, rfl, rfl, rfl, rfl, rfl, rfl, rfl, rfl, rfl, rfl, rfl⟩

/-- Two states that run the same command differ at most beside it. -/
theorem SameCommand.eq_beside {s t : State} (h : SameCommand s t) : t = s.beside t := by
  unfold State.beside
  rw [← h.cfg, ← h.fb, ← h.text, ← h.latch, ← h.curX, ← h.curY, ← h.initialized, ← h.batch, ← h.result, ← h.engine, ← h.log,
    ← h.answers, ← h.answerDraws]

/-! ### Segments beside other host state -/

@[simp] theorem reposition_beside (x y : Half) (s o : State) :
    reposition x y (s.beside o) = (reposition x y s).beside o := by
  cases hb : s.batch <;> simp [reposition, hb]

theorem drawCharOp_beside (x y : Half) (ch : Byte) (f : BitVec 4) (c : Bool) (s o : State) :
    drawCharOp x y ch f c (s.beside o) = ((drawCharOp x y ch f c s).1, (drawCharOp x y ch f c s).2.beside o) := by
  simp only [drawCharOp, reposition_beside, glyphFits_beside, plotGlyph_beside, beside_cfg]
  split
  · rfl
  · split <;> split <;> rfl

theorem strLoop_beside (x y : Half) (f : BitVec 4) (c : Bool) (bytes : List Byte) (s o : State) :
    strLoop x y f c bytes (s.beside o) = ((strLoop x y f c bytes s).1, (strLoop x y f c bytes s).2.beside o) := by
  induction bytes generalizing s with
  | nil => rfl
  | cons ch rest ih =>
    simp only [strLoop, drawCharOp_beside]
    split
    · rfl
    · generalize drawCharOp x y ch f c s = d
      obtain ⟨code, u⟩ := d
      cases code with
      | ok => exact ih u
      | _ => rfl

theorem segLine_beside (s o : State) : segLine (s.beside o) = (segLine s).beside o := by
  cases hb : s.batch <;> simp [segLine, hb]

theorem segChar_beside (s o : State) : segChar (s.beside o) = (segChar s).beside o := by
  simp only [segChar, beside_opd, beside_opdByte, beside_latch, drawCharOp_beside]
  generalize drawCharOp (s.opd 0) (s.opd 1) s.opdByte s.latch.font s.latch.color s = d
  obtain ⟨code, u⟩ := d
  cases code with
  | ok => cases hb : u.batch <;> simp [hb]
  | _ => rfl

/-- How STR ends after its loop: the flush, or the failed character's code without one (R130, R131). -/
def strEnd : Option (Code × Byte) × State → State
  | (none, u) => flushTail 0x00 u
  | (some (code, ch), u) => finishWith { code := code, char := ch } { u with batch := false }

theorem segStr_eq_strEnd (s : State) :
    segStr s = strEnd (strLoop (s.opd 0) (s.opd 1) s.latch.font s.latch.color (s.text.toList.drop s.opdByte.toNat)
      (State.setCursor (s.opd 0) (s.opd 1) { s with batch := true })) := rfl

theorem strEnd_beside (d : Option (Code × Byte) × State) (o : State) :
    strEnd (d.1, d.2.beside o) = (strEnd d).beside o := by
  obtain ⟨failure, u⟩ := d
  cases failure <;> rfl

theorem segStr_beside (s o : State) : segStr (s.beside o) = (segStr s).beside o := by
  rw [segStr_eq_strEnd, segStr_eq_strEnd, ← strEnd_beside, ← strLoop_beside]
  rfl

theorem configFrom_beside (k : Nat) (s o : State) : configFrom k (s.beside o) = (configFrom k s).beside o := by
  simp only [configFrom, beside_cfg]
  generalize Memory.filled _ = m
  split <;> rfl

theorem firstSegment_beside (i : Instr) (s o : State) : firstSegment i (s.beside o) = (firstSegment i s).beside o := by
  cases i with
  | init c f => exact configFrom_beside 0 { s with initialized := false } o
  | clear c f => exact flushTail_fill_beside s o _
  | allon c f => exact flushTail_fill_beside s o _
  | line c f => exact segLine_beside s o
  | char c f => exact segChar_beside s o
  | str c f => exact segStr_beside s o
  | _ => rfl

theorem resume_beside (site : Site) (r : Answer) (s o : State) :
    resume site r (s.beside o) = (resume site r s).beside o := by
  unfold resume
  split
  · cases site with
    | config k => exact configFrom_beside (k + 1) s o
    | page p k tail =>
      simp only [afterOk]
      split
      · rfl
      · cases tail <;> rfl
  · rfl

theorem transportStep_beside (s o : State) : transportStep (s.beside o) = (transportStep s).beside o := by
  have hnext : (s.beside o).nextAnswer = s.nextAnswer := rfl
  have hdrop : (s.beside o).dropAnswer = s.dropAnswer.beside o := by
    unfold State.dropAnswer
    rw [show (s.beside o).answers = s.answers from rfl]
    split <;> rfl
  simp only [transportStep, beside_engine, hnext, hdrop]
  split <;> rfl

/-- A running command goes on alike from two states that differ beside it: only a completion reads TERR, and TERR alone
depends on it (R28). -/
theorem SameCommand.advance {s t : State} (h : SameCommand s t) : SameCommand (advance s) (advance t) := by
  rw [h.eq_beside]
  unfold Machine.advance
  rw [beside_engine]
  split
  · exact sameCommand_beside s t
  · rw [firstSegment_beside]; exact sameCommand_beside _ t
  · rw [transportStep_beside]; exact sameCommand_beside _ t
  · rw [resume_beside]; exact sameCommand_beside _ t
  · exact ⟨rfl, rfl, rfl, rfl, rfl, rfl, rfl, rfl, rfl, rfl, rfl, rfl, rfl⟩

theorem SameCommand.advanceFor {s t : State} (h : SameCommand s t) (n : Nat) :
    SameCommand (advanceFor n s) (advanceFor n t) := by
  induction n generalizing s t with
  | zero => exact h
  | succ n ih => exact ih h.advance

/-! ### Acceptance -/

/-- A CMD write of a word that decodes, while BUSY = 0, is its acceptance (R18, R19). -/
theorem step_cmdWrite_accept {s : State} {w : Word} {i : Instr} {rest : List Event} (hin : s.inbox = .host (cmdWrite w) :: rest)
    (hb : s.busy = false) (hd : decode s.cfg w = .ok i) :
    step s = .next (State.respond (cmdWrite w) .ok 0 (accept i { s with inbox := rest })) := by
  have hwrite : writeReg .cmd w { s with inbox := rest } = some (accept i { s with inbox := rest }) := by
    simp only [writeReg, show State.busy { s with inbox := rest } = false from hb, Bool.false_eq_true, if_false, hd]
  rw [step_host hin]
  exact congrArg _ (hostAccess_write rfl hwrite)

/-- Settles O11: the step accepts the decoded command, and what ARG then holds is beside the command. -/
theorem acceptanceLatchesOperands : Obligations.AcceptanceLatchesOperands := by
  intro s w rest hin hb hlegal
  obtain ⟨i, hd, hop, hcolor, hfont⟩ := decode_of_legalWord hlegal
  refine ⟨_, step_cmdWrite_accept hin hb hd, hop, hcolor, hfont, fun _ => rfl, rfl, rfl, rfl, rfl, rfl, rfl, rfl, rfl, rfl, rfl,
    rfl, fun n a => SameCommand.advanceFor ?_ n⟩
  exact ⟨rfl, rfl, rfl, rfl, rfl, rfl, rfl, rfl, rfl, rfl, rfl, rfl, rfl⟩

end Sys2Proof.Machine
end

section
/-! PROOFS. The machine beside exec, the transport log over a step, and a host access beside a running command (R19, R56, R60, R83,
R138, R154, R159, R160). -/

namespace Sys2Proof.Machine

/-! ### The atomic steps of a whole command -/

/-- Any number of steps of a running command cut down to those it takes while BUSY = 1. -/
theorem advanceFor_eq_busy_steps (k : Nat) (s : State) :
    ∃ n, advanceFor n s = advanceFor k s ∧ ∀ m, m < n → (advanceFor m s).busy = true := by
  induction k generalizing s with
  | zero => exact ⟨0, rfl, fun m hm => absurd hm (Nat.not_lt_zero m)⟩
  | succ k ih =>
    by_cases hidle : s.engine = .idle
    · exact ⟨0, (advanceFor_idle hidle (k + 1)).symm, fun m hm => absurd hm (Nat.not_lt_zero m)⟩
    · obtain ⟨n, heq, hbusy⟩ := ih (advance s)
      refine ⟨n + 1, heq, fun m hm => ?_⟩
      cases m with
      | zero => exact (busy_eq_true_iff s).mpr hidle
      | succ m => exact hbusy m (by omega)

/-- With a CMD write as the only event, the machine accepts the command and then takes its steps (R19, R56). -/
theorem run_of_cmdWrite {s : State} {w : Word} {i : Instr} (hin : s.inbox = [.host (cmdWrite w)]) (hb : s.busy = false)
    (hd : decode s.cfg w = .ok i) (m : Nat) :
    Sys2Proof.core.run (m + 1) s =
      .next (advanceFor m (accept i (State.respond (cmdWrite w) .ok 0 { s with inbox := [] }))) := by
  rw [run_succ_of_next Sys2Proof.core m (step_cmdWrite_accept hin hb hd)]
  exact run_of_inbox_nil m _ rfl

/-- Settles O12: exec's state is reached from the accepted command by its own steps, which are cut where BUSY falls. -/
theorem atomicStepsReachExec : Obligations.AtomicStepsReachExec := by
  intro s w i hin hb hd
  have hrun := run_of_cmdWrite hin hb hd
  obtain ⟨n, heq, hbusy⟩ := advanceFor_eq_busy_steps (stepBound s.cfg + 1)
    (accept i (State.respond (cmdWrite w) .ok 0 { s with inbox := [] }))
  refine ⟨n + 1, ?_, fun m hpos hm => ?_⟩
  · rw [hrun, heq, exec_eq_advanceFor]
    rfl
  · cases m with
    | zero => exact absurd hpos (Nat.lt_irrefl 0)
    | succ m => exact ⟨_, hrun m, hbusy m (by omega)⟩

/-! ### A host access while a command runs -/

theorem SameCommand.respond {s t : State} (h : SameCommand s t) (a : Access) (r : Resp) (d : Word) :
    SameCommand s (t.respond a r d) :=
  ⟨h.cfg, h.fb, h.text, h.latch, h.curX, h.curY, h.initialized, h.batch, h.result, h.engine, h.log, h.answers, h.answerDraws⟩

/-- While BUSY = 1 a host access reaches only what lies beside the command: a CMD or TEXT write is ignored (R159). -/
theorem PortEffect.sameCommand {a : Access} {s u : State} (h : PortEffect a s u) (hb : s.busy = true) : SameCommand s u := by
  cases h with
  | accept w i _ hidle _ => simp [hb] at hidle
  | reject w e _ hidle _ => simp [hb] at hidle
  | text addr k v _ _ hidle => simp [hb] at hidle
  | _ => exact ⟨rfl, rfl, rfl, rfl, rfl, rfl, rfl, rfl, rfl, rfl, rfl, rfl, rfl⟩

/-- Settles O18: the access reaches only what lies beside the command, and the command's steps keep the two runs alike. -/
theorem hostAccessLeavesRunningCommand : Obligations.HostAccessLeavesRunningCommand := by
  intro s a n hb
  obtain ⟨u, resp, data, hu, h⟩ := hostAccess_cases a s
  rw [h]
  exact ((hu.sameCommand hb).respond a resp data).advanceFor n

/-! ### The transport log -/

theorem log_prefix_hostAccess (a : Access) (s : State) : s.log <+: (hostAccess a s).log := by
  obtain ⟨_, _, _, _, _, hlog⟩ := hostAccessNeverDraws s a
  rw [hlog]

/-- Of a running command's steps only a transport answer makes a log entry (R60, R83). -/
theorem log_prefix_advance (s : State) : s.log <+: (advance s).log := by
  obtain ⟨_, h⟩ | ⟨i, _, h⟩ | ⟨site, tx, _, h⟩ | ⟨site, r, _, h⟩ | ⟨c, _, h⟩ := advance_cases s
  · rw [h]
  · rw [h, firstSegment_frame]
  · rw [h]; exact List.prefix_append _ _
  · rw [h, resume_frame]
  · rw [h]; exact List.prefix_refl _

theorem log_prefix_advanceFor (n : Nat) (s : State) : s.log <+: (advanceFor n s).log := by
  induction n generalizing s with
  | zero => exact List.prefix_refl _
  | succ n ih => exact (log_prefix_advance s).trans (ih (advance s))

theorem log_prefix_engineStep (s : State) : s.log <+: (engineStep s).log := by
  obtain h | h := engineStep_cases s
  · rw [h]
  · rw [h]; exact log_prefix_advance s

theorem log_prefix_transportStep (s : State) : s.log <+: (transportStep s).log := by
  obtain h | h := transportStep_cases s
  · rw [h]
  · rw [h]; exact log_prefix_advance s

theorem log_prefix_pollStep (s : State) (rest : List Event) : s.log <+: (pollStep s rest).log := by
  unfold pollStep
  split
  · exact (log_prefix_hostAccess statusRead s).trans (log_prefix_advance _)
  · exact log_prefix_hostAccess statusRead { s with inbox := rest }

theorem log_prefix_of_runWord {w : Word} {s t : State} (h : runWord w s = .next t) : s.log <+: t.log := by
  obtain ⟨_, hr⟩ | ⟨_, i, _, hr⟩ | ⟨_, e, _, hr⟩ := runWord_cases w s <;> rw [hr] at h
  · cases h; exact List.prefix_refl _
  · rw [exec_eq_advanceFor] at h
    cases h
    exact log_prefix_advanceFor _ (accept i s)
  · cases h; exact List.prefix_refl _

/-- Settles O20: whichever agent moves, the log after begins with the log before. -/
theorem logOnlyGrows : Obligations.LogOnlyGrows := by
  intro s t h
  suffices hgrow : s.log <+: t.log by
    obtain ⟨entries, heq⟩ := hgrow
    exact ⟨entries, heq.symm⟩
  cases hin : s.inbox with
  | nil => rw [step_nil hin] at h; cases h; exact log_prefix_advance s
  | cons e rest =>
    cases e with
    | host a => rw [step_host hin] at h; cases h; exact log_prefix_hostAccess a { s with inbox := rest }
    | waitIdle => rw [step_waitIdle hin] at h; cases h; exact log_prefix_pollStep s rest
    | command w =>
      rw [step_command hin] at h
      have hrun := log_prefix_of_runWord h
      exact hrun
    | engine => rw [step_engine hin] at h; cases h; exact log_prefix_engineStep { s with inbox := rest }
    | transport => rw [step_transport hin] at h; cases h; exact log_prefix_transportStep { s with inbox := rest }
    | reset => rw [step_reset hin] at h; cases h; exact List.prefix_refl _

end Sys2Proof.Machine
end

section
/-! PROOFS. The register map by offset, the bytes of a host word, and what an idle read, an error access and a TEXT write do (R17,
R18, R34, R39, R45, R47 to R53, R145). -/

namespace Sys2Proof.Machine

/-! ### The register map -/

/-- Where each register stands in the map (R39). -/
def Reg.offset : Reg → Nat
  | .id => 0x000
  | .cmd => 0x004
  | .status => 0x008
  | .result => 0x00C
  | .arg n => 0x010 + 4 * n.val
  | .cursor => 0x028
  | .text k => 0x100 + 4 * k.val
  | .fbwin k => 0x400 + 4 * k.val

theorem regAt_of_toNat_eq_offset {addr : Offset} {r : Reg} (h : addr.toNat = r.offset) : regAt addr = some r := by
  cases r with
  | arg n => rw [ofNat_toNat_offset h]; exact regAt_argOffset n
  | text k =>
    simp only [Reg.offset] at h
    simp (disch := omega) only [regAt, h, if_neg, dif_neg, dif_pos, Nat.add_sub_cancel_left, Nat.mul_div_cancel_left]
  | fbwin k =>
    simp only [Reg.offset] at h
    simp (disch := omega) only [regAt, h, if_neg, dif_neg, dif_pos, Nat.add_sub_cancel_left, Nat.mul_div_cancel_left]
  | _ => obtain rfl := ofNat_toNat_offset h; rfl

/-- The offsets that reach no register (R49, R50). -/
theorem regAt_eq_none_iff (addr : Offset) :
    regAt addr = none ↔ addr.toNat % 4 ≠ 0 ∨ (0x02C ≤ addr.toNat ∧ addr.toNat < 0x100) ∨
      (0x200 ≤ addr.toNat ∧ addr.toNat < 0x400) ∨ 0x800 ≤ addr.toNat := by
  simp only [regAt]
  repeat' split
  all_goals simp only [reduceCtorEq, true_iff, false_iff]
  all_goals omega

/-! ### The bytes of a host word -/

/-- Byte j of a host word, lowest first (R45). -/
theorem byte_wordOfBytes (b0 b1 b2 b3 : Byte) {j : Nat} (hj : j < 4) :
    (wordOfBytes b0 b1 b2 b3).toNat / 256 ^ j % 256 = (#v[b0, b1, b2, b3][j]).toNat := by
  have h0 := b0.isLt
  have h1 := b1.isLt
  have h2 := b2.isLt
  have h3 := b3.isLt
  simp only [wordOfBytes, toNat_append_eq_add]
  interval_cases j <;> simp <;> omega

theorem byte_textWord (text : Vector Byte 256) {i : Nat} (hi : i < 256) :
    (textWord text ⟨i / 4, by omega⟩).toNat / 256 ^ (i % 4) % 256 = (text[i]).toNat := by
  have hbyte (k : Fin 64) (j : Nat) (hj : j < 4) :
      (textWord text k).toNat / 256 ^ j % 256 = (text[4 * k.val + j]'(by omega)).toNat := by
    rw [textWord, byte_wordOfBytes _ _ _ _ hj]
    interval_cases j <;> rfl
  simpa only [Nat.div_add_mod] using hbyte ⟨i / 4, by omega⟩ (i % 4) (Nat.mod_lt _ (by decide))

theorem byte_fbWord (fb : Memory) (i : Nat) : (fbWord fb (i / 4)).toNat / 256 ^ (i % 4) % 256 = (fb.read i).toNat := by
  have hbyte (k j : Nat) (hj : j < 4) : (fbWord fb k).toNat / 256 ^ j % 256 = (fb.read (4 * k + j)).toNat := by
    rw [fbWord, byte_wordOfBytes _ _ _ _ hj]
    interval_cases j <;> rfl
  simpa only [Nat.div_add_mod] using hbyte (i / 4) (i % 4) (Nat.mod_lt _ (by decide))

/-! ### Reads while idle -/

theorem hostAccess_read_idle {addr : Offset} {r : Reg} {s : State} (hr : regAt addr = some r) (hb : s.busy = false) :
    hostAccess (.read 4 addr) s = State.respond (.read 4 addr) .ok (idleRead s r) s := by
  simp only [hostAccess, hostRead, accessReg, if_true, hr, readData, hb, Bool.false_eq_true, if_false]

/-- Settles O51: the offset names the register, and each clause reads off that register's value. -/
theorem idleReadReturnsTheRegister : Obligations.IdleReadReturnsTheRegister := by
  intro s addr rest hin hb halign hmapped
  obtain ⟨r, hr⟩ : ∃ r, regAt addr = some r := by
    rw [← Option.ne_none_iff_exists', Ne, regAt_eq_none_iff]
    omega
  have hreg {r' : Reg} (h : addr.toNat = r'.offset) : r = r' := Option.some.inj (hr.symm.trans (regAt_of_toNat_eq_offset h))
  refine ⟨idleRead s r, ?_, fun h => ?_, fun h => ?_, fun h => ?_, fun h => ?_, fun n h => ?_, fun h => ?_, fun i hi h => ?_,
    fun i hi h => ?_⟩
  · exact (step_host hin).trans (congrArg _ (hostAccess_read_idle hr hb))
  · obtain rfl := hreg (r' := .id) h; rfl
  · obtain rfl := hreg (r' := .cmd) h; rfl
  · obtain rfl := hreg (r' := .status) h; rfl
  · obtain rfl := hreg (r' := .result) h; rfl
  · obtain rfl := hreg (r' := .arg n) h
    exact BitVec.toNat_setWidth_of_le (by decide)
  · obtain rfl := hreg (r' := .cursor) h; rfl
  · obtain rfl := hreg (r' := .text ⟨i / 4, by omega⟩) h
    exact byte_textWord s.text hi
  · obtain rfl := hreg (r' := .fbwin ⟨i / 4, by omega⟩) h
    exact byte_fbWord s.fb i

/-! ### Error accesses -/

theorem hostAccess_read_error {width : Nat} {addr : Offset} (h : accessReg width addr = none) (s : State) :
    hostAccess (.read width addr) s = State.respond (.read width addr) .err 0 s := by
  simp only [hostAccess, hostRead, h]

theorem hostAccess_write_error {width : Nat} {addr : Offset} {v : Word} {s : State}
    (h : (accessReg width addr).bind (fun r => writeReg r v s) = none) :
    hostAccess (.write width addr v) s = State.respond (.write width addr v) .err 0 s := by
  simp only [hostAccess, hostWrite, h]

theorem accessReg_eq_none {width : Nat} {addr : Offset} (h : width ≠ 4 ∨ regAt addr = none) : accessReg width addr = none := by
  unfold accessReg
  split
  · exact h.resolve_left (not_not.mpr ‹_›)
  · rfl

/-- The registers that take no write, by offset (R49, R50). -/
theorem regAt_bind_writeReg_readOnly {addr : Offset} (halign : addr.toNat % 4 = 0)
    (h : addr.toNat = 0x000 ∨ addr.toNat = 0x00C ∨ addr.toNat = 0x028 ∨ (0x400 ≤ addr.toNat ∧ addr.toNat < 0x800))
    (v : Word) (s : State) : (regAt addr).bind (fun r => writeReg r v s) = none := by
  obtain h | h | h | ⟨hlo, hhi⟩ := h
  · rw [regAt_of_toNat_eq_offset (r := .id) h]; rfl
  · rw [regAt_of_toNat_eq_offset (r := .result) h]; rfl
  · rw [regAt_of_toNat_eq_offset (r := .cursor) h]; rfl
  · have hoff : addr.toNat = (Reg.fbwin ⟨(addr.toNat - 0x400) / 4, by omega⟩).offset := by simp only [Reg.offset]; omega
    rw [regAt_of_toNat_eq_offset hoff]
    rfl

/-- Settles O53: such an access reaches no register, or one that takes no write. -/
theorem errorAccessChangesNothing : Obligations.ErrorAccessChangesNothing := by
  intro s width addr v rest a reserved readOnly
  have hnone (h : reserved) : accessReg width addr = none := accessReg_eq_none (h.imp_right (regAt_eq_none_iff addr).mpr)
  refine ⟨fun hin h => ?_, fun hin h => ?_⟩
  · rw [step_host hin, hostAccess_read_error (hnone h)]
  · rw [step_host hin, hostAccess_write_error]
    obtain hres | hro := h
    · rw [hnone hres]; rfl
    · by_cases hword : width = 4 ∧ a % 4 = 0
      · obtain ⟨rfl, halign⟩ := hword
        exact regAt_bind_writeReg_readOnly halign hro v _
      · rw [hnone ((not_and_or.mp hword).imp_right .inl)]; rfl

/-! ### A TEXT write -/

/-- The bytes of TEXT after a write of word k: the word's own four take the value's bytes, the rest stay (R48, R52). -/
theorem getElem_writeTextWord (text : Vector Byte 256) (k : Fin 64) (v : Word) {i : Nat} (hi : i < 256) :
    (writeTextWord text k v)[i] = if i / 4 = k.val then v.extractLsb' (8 * (i % 4)) 8 else text[i] := by
  simp only [writeTextWord, Vector.getElem_set]
  by_cases hk : i / 4 = k.val
  · obtain ⟨j, hj, rfl⟩ : ∃ j, j < 4 ∧ i = 4 * k.val + j := ⟨i % 4, Nat.mod_lt _ (by decide), by omega⟩
    rw [if_pos hk, Nat.mul_add_mod, Nat.mod_eq_of_lt hj]
    interval_cases j <;> simp
  · rw [if_neg hk, if_neg (by omega), if_neg (by omega), if_neg (by omega), if_neg (by omega)]

/-- Settles O55: while idle the write sets the four bytes of the word and no other. -/
theorem textWriteStoresFourBytes : Obligations.TextWriteStoresFourBytes := by
  intro s k v rest a hin hb
  have hoff : (BitVec.ofNat 12 (0x100 + 4 * k.val)).toNat = (Reg.text k).offset := by simp [Reg.offset]; omega
  have hwrite : writeReg (.text k) v { s with inbox := rest } =
      some { s with inbox := rest, text := writeTextWord s.text k v } := by
    simp only [writeReg, show State.busy { s with inbox := rest } = false from hb, Bool.false_eq_true, if_false]
  refine ⟨writeTextWord s.text k v, ?_, fun i => ?_⟩
  · rw [step_host hin, hostAccess_write (regAt_of_toNat_eq_offset hoff) hwrite]
  · have h := getElem_writeTextWord s.text k v i.isLt
    split
    · rename_i hk
      rw [if_pos hk] at h
      simp [h, Nat.shiftRight_eq_div_pow, Nat.pow_mul]
    · rename_i hk
      rwa [if_neg hk] at h

end Sys2Proof.Machine
end

section
/-! PROOFS. The decoder, the encoder and the opcode table: they agree on every legal word, and an illegal word is refused by the
first check it fails (R64, R65, R67, R71 to R74, R79, R80). -/

namespace Sys2Proof

open Machine

/-! ### What the decoder answers -/

section

variable {p : Params} {w : Word} {i : Instr}

theorem decode_of_reservedBits (h : rsv1Field w ≠ 0 ∨ rsv0Field w ≠ 0) : decode p w = .error .reservedBits := if_pos h

theorem decode_of_reservedOpcode (hrsv1 : rsv1Field w = 0) (hrsv0 : rsv0Field w = 0)
    (hi : instrOfFields (opField w) (colorField w) (fontField w) = none) : decode p w = .error .reservedOpcode := by
  simp [decode, hrsv1, hrsv0, hi]

theorem decode_of_instrOfFields (hrsv1 : rsv1Field w = 0) (hrsv0 : rsv0Field w = 0)
    (hi : instrOfFields (opField w) (colorField w) (fontField w) = some i) :
    decode p w = bif i.wf p then .ok i else .error .noSuchFont := by
  simp [decode, hrsv1, hrsv0, hi]

end

/-- The opcode map's rows are 1 to 15 (R65, R73). -/
theorem instrOfFields_eq_none {op : Byte} (h : ¬ (1 ≤ op.toNat ∧ op.toNat ≤ 15)) (c : Bool) (f : BitVec 4) :
    instrOfFields op c f = none := by
  unfold instrOfFields
  split
  case h_16 => rfl
  all_goals exact absurd (by omega) h

/-- The opcode map gives back the fields it was given (R65). -/
theorem instrOfFields_eq_some_iff {op : Byte} {c : Bool} {f : BitVec 4} {i : Instr} :
    instrOfFields op c f = some i ↔ i.opcode = op ∧ i.color = c ∧ i.font = f := by
  constructor
  · intro h
    by_cases hop : 1 ≤ op.toNat ∧ op.toNat ≤ 15
    · obtain ⟨j, hj, hfields⟩ := instrOfFields_of_range hop.1 hop.2 c f
      obtain rfl : j = i := Option.some.inj (hj.symm.trans h)
      exact hfields
    · rw [instrOfFields_eq_none hop] at h
      cases h
  · rintro ⟨rfl, rfl, rfl⟩
    cases i <;> rfl

/-- The decoder accepts a word exactly when its reserved bits are 0 and its fields are those of a legal command (R71, R79). -/
theorem decode_eq_ok_iff {p : Params} {w : Word} {i : Instr} :
    decode p w = .ok i ↔ rsv1Field w = 0 ∧ rsv0Field w = 0 ∧
      (i.opcode = opField w ∧ i.color = colorField w ∧ i.font = fontField w) ∧ i.wf p = true := by
  rw [← instrOfFields_eq_some_iff]
  constructor
  · intro h
    by_cases hrsv : rsv1Field w ≠ 0 ∨ rsv0Field w ≠ 0
    · rw [decode_of_reservedBits hrsv] at h
      cases h
    obtain ⟨hrsv1, hrsv0⟩ : rsv1Field w = 0 ∧ rsv0Field w = 0 := by simpa using hrsv
    cases hi : instrOfFields (opField w) (colorField w) (fontField w) with
    | none => rw [decode_of_reservedOpcode hrsv1 hrsv0 hi] at h; cases h
    | some j =>
      rw [decode_of_instrOfFields hrsv1 hrsv0 hi] at h
      cases hj : j.wf p <;> rw [hj] at h <;> cases h
      exact ⟨hrsv1, hrsv0, rfl, hj⟩
  · rintro ⟨hrsv1, hrsv0, hi, hwf⟩
    rw [decode_of_instrOfFields hrsv1 hrsv0 hi, hwf, cond_true]

/-! ### The round trips -/

/-- Every instruction's word stands in its row of the opcode table (R64, R65). -/
theorem encode_tableRow (i : Instr) : Laws.TableRow.Statement i := by
  cases i with
  | init c f => exact Laws.TableRow.init c f
  | clear c f => exact Laws.TableRow.clear c f
  | allon c f => exact Laws.TableRow.allon c f
  | flush c f => exact Laws.TableRow.flush c f
  | setpixel c f => exact Laws.TableRow.setpixel c f
  | line c f => exact Laws.TableRow.line c f
  | rect c f => exact Laws.TableRow.rect c f
  | frect c f => exact Laws.TableRow.frect c f
  | tri c f => exact Laws.TableRow.tri c f
  | ftri c f => exact Laws.TableRow.ftri c f
  | circle c f => exact Laws.TableRow.circle c f
  | fcircle c f => exact Laws.TableRow.fcircle c f
  | char c f => exact Laws.TableRow.char c f
  | str c f => exact Laws.TableRow.str c f
  | gotoxy c f => exact Laws.TableRow.gotoxy c f

/-- Settles O4: the fields of the command's word are the command's own. -/
theorem decodeOfEncode : Obligations.DecodeOfEncode := by
  intro p i hwf
  obtain ⟨hrsv1, hrsv0, -, hop, hcolor, hfont⟩ := encode_tableRow i
  exact decode_eq_ok_iff.mpr ⟨hrsv1, hrsv0, ⟨hop.symm, hcolor.symm, hfont.symm⟩, hwf⟩

/-- A word whose reserved bits are 0 is made of its three other fields (R64). -/
theorem packFields_of_fields {w : Word} (hrsv1 : rsv1Field w = 0) (hrsv0 : rsv0Field w = 0) :
    packFields (opField w) (colorField w) (fontField w) = w := by
  have hcolor : (colorField w).toNat = w.toNat / 2 ^ 8 % 2 := Nat.toNat_testBit _ _
  rw [rsv1Field_eq_zero_iff] at hrsv1
  rw [rsv0Field_eq_zero_iff] at hrsv0
  apply BitVec.eq_of_toNat_eq
  simp only [packFields, toNat_append_eq_add, BitVec.toNat_ofBool, BitVec.toNat_ofNat, opField_toNat, fontField_toNat, hcolor]
  omega

/-- Settles O5: the word's fields are the command's, and they make the word again. -/
theorem encodeOfDecode : Obligations.EncodeOfDecode := by
  intro p w i h
  obtain ⟨hrsv1, hrsv0, ⟨hop, hcolor, hfont⟩, hwf⟩ := decode_eq_ok_iff.mp h
  refine ⟨?_, hwf⟩
  rw [encode, hop, hcolor, hfont, packFields_of_fields hrsv1 hrsv0]

/-! ### Legal and illegal words -/

/-- A word that decodes is legal (R71). -/
theorem legalWord_of_decode {p : Params} {w : Word} {i : Instr} (h : decode p w = .ok i) : legalWord p w := by
  obtain ⟨hrsv1, hrsv0, hfields, hwf⟩ := decode_eq_ok_iff.mp h
  have hrange : 1 ≤ (opField w).toNat ∧ (opField w).toNat ≤ 15 := by
    by_contra hop
    have := instrOfFields_eq_some_iff.mpr hfields
    rw [instrOfFields_eq_none hop] at this
    cases this
  obtain ⟨hop, -, hfont⟩ := hfields
  rw [wf_iff_opcode_font, hop, hfont, opField_toNat, fontField_toNat] at hwf
  rw [opField_toNat] at hrange
  exact ⟨(rsv1Field_eq_zero_iff w).mp hrsv1, (rsv0Field_eq_zero_iff w).mp hrsv0, hrange.1, hrange.2, hwf⟩

theorem decode_of_not_legalWord {p : Params} {w : Word} (h : ¬ legalWord p w) : ∃ e, decode p w = .error e := by
  cases hd : decode p w with
  | ok i => exact absurd (legalWord_of_decode hd) h
  | error e => exact ⟨e, rfl⟩

/-- Settles O3: a legal word decodes to its fields, and an illegal one is refused by the first check it fails. -/
theorem decoderFollowsItsRule : Obligations.DecoderFollowsItsRule := by
  intro p w
  refine ⟨decode_of_legalWord, fun hill => ?_⟩
  obtain ⟨e, he⟩ := decode_of_not_legalWord hill
  rw [← opField_toNat, Ne, Ne, ← rsv1Field_eq_zero_iff, ← rsv0Field_eq_zero_iff]
  refine ⟨e, he, fun hrsv => ?_, fun hrsv1 hrsv0 hop => ?_, fun hrsv1 hrsv0 hlo hhi => ?_⟩
  · exact Except.error.inj (he.symm.trans (decode_of_reservedBits hrsv))
  · exact Except.error.inj (he.symm.trans (decode_of_reservedOpcode hrsv1 hrsv0 (instrOfFields_eq_none hop _ _)))
  · obtain ⟨i, hi, -⟩ := instrOfFields_of_range hlo hhi (colorField w) (fontField w)
    rw [decode_of_instrOfFields hrsv1 hrsv0 hi] at he
    cases hwf : i.wf p <;> rw [hwf] at he <;> cases he
    rfl

/-! ### The opcode table -/

/-- The MATCH word of a row is its opcode (R65). -/
theorem tableMatch_eq_opcode (i : Instr) : i.tableMatch = i.opcode.setWidth 32 := by cases i <;> rfl

/-- Settles O6: a row's match word is its opcode, and a word that decodes is the encoding of its instruction. -/
theorem tableRowsAreDisjoint : Obligations.TableRowsAreDisjoint := by
  refine ⟨fun w i j hi hj => ?_, fun p w i h => ?_⟩
  · have hmatch : i.opcode.setWidth 32 = j.opcode.setWidth 32 := by
      rw [← tableMatch_eq_opcode, ← tableMatch_eq_opcode, ← hi, ← hj]
    simpa using congrArg (BitVec.setWidth 8) hmatch
  · obtain ⟨rfl, -⟩ := encodeOfDecode p w i h
    obtain ⟨-, -, hmatch, -⟩ := encode_tableRow i
    exact hmatch

/-! ### Sample words -/

theorem decode_of_eq_encode {p : Params} {w : Word} {i : Instr} (hw : w = encode i) (hwf : i.wf p = true) :
    decode p w = .ok i := hw ▸ decodeOfEncode p i hwf

/-- Settles O7: the eight words are encodings, and each illegal word fails one check. -/
theorem sampleWordsDecode : Obligations.SampleWordsDecode := by
  intro p
  have hchar (c : Bool) (f : BitVec 4) : (Instr.char c f).wf p = true ↔ f.toNat < p.nfonts := by
    simp [wf_iff_opcode_font, Instr.opcode, Instr.font]
  have hstr : (Instr.str true 15).wf p = false ↔ p.nfonts ≤ 15 := by
    simp [← Bool.not_eq_true, wf_iff_opcode_font, Instr.opcode, Instr.font]
  refine ⟨decode_of_eq_encode rfl rfl, decode_of_eq_encode rfl rfl, decode_of_eq_encode rfl rfl, decode_of_eq_encode rfl rfl,
    decode_of_eq_encode rfl rfl, decode_of_eq_encode rfl ((hchar _ _).mpr (Nat.succ_pos _)),
    fun h => decode_of_eq_encode rfl ((hchar _ _).mpr h), decode_of_eq_encode rfl rfl,
    decode_of_reservedBits (.inr (by decide)), decode_of_reservedOpcode rfl rfl rfl, fun h => ?_⟩
  rw [decode_of_instrOfFields (i := .str true 15) rfl rfl rfl, hstr.mpr h, cond_false]

end Sys2Proof

namespace Sys2Proof.Machine

/-! ### A CMD write of an illegal word -/

/-- What an illegal word leaves in RESULT, as a number: its opcode, code 3, every other field 0 (R30, R31, R71). -/
theorem rejectWord_result_toNat (w : Word) (s : State) :
    (rejectWord w s).result.word.toNat = 2 ^ 24 * (w.toNat % 256) + 3 := by
  rw [Result.word_toNat, rejectWord_result, opField_toNat]
  exact Nat.add_comm 3 _

/-- A CMD write of a word that does not decode, while BUSY = 0, is its rejection (R71). -/
theorem step_cmdWrite_reject {s : State} {w : Word} {e : DecodeError} {rest : List Event}
    (hin : s.inbox = .host (cmdWrite w) :: rest) (hb : s.busy = false) (hd : decode s.cfg w = .error e) :
    step s = .next (State.respond (cmdWrite w) .ok 0 (rejectWord w { s with inbox := rest })) := by
  have hwrite : writeReg .cmd w { s with inbox := rest } = some (rejectWord w { s with inbox := rest }) := by
    simp only [writeReg, show State.busy { s with inbox := rest } = false from hb, Bool.false_eq_true, if_false, hd]
  rw [step_host hin]
  exact congrArg _ (hostAccess_write rfl hwrite)

/-- The same of a CMD write that waits. -/
theorem runWord_of_decode_error {w : Word} {e : DecodeError} {s : State} (hb : s.busy = false) (hd : decode s.cfg w = .error e) :
    runWord w s = .next (rejectWord w s) := by
  simp only [runWord, hb, Bool.false_eq_true, if_false, hd]

/-- Settles O9: the word is accepted if it decodes and rejected if not, and a word decodes exactly if it is legal. -/
theorem cmdWriteDecodesTheWord : Obligations.CmdWriteDecodesTheWord := by
  intro s w rest hin hb s'
  refine ⟨fun hlegal => ?_, fun hill => ?_⟩
  · obtain ⟨i, hd, hop, hcolor, hfont⟩ := decode_of_legalWord hlegal
    exact ⟨i, hop, hcolor, hfont, step_cmdWrite_accept hin hb hd⟩
  · obtain ⟨e, hd⟩ := decode_of_not_legalWord hill
    exact ⟨_, rejectWord_result_toNat w s', step_cmdWrite_reject hin hb hd⟩

/-- Settles O10: the word does not decode, so nothing runs and the rejection is the whole step. -/
theorem illegalCommandOnlyFlagsIll : Obligations.IllegalCommandOnlyFlagsIll := by
  intro s w rest hin hb hill
  obtain ⟨e, hd⟩ := decode_of_not_legalWord hill
  exact ⟨_, (step_command hin).trans (runWord_of_decode_error hb hd), rejectWord_result_toNat w _, rfl, hb, rfl, rfl, rfl, rfl, rfl,
    rfl, rfl, rfl, rfl, rfl, rfl, rfl, rfl⟩

/-! ### The assembler -/

/-- A register's system address comes back as its offset, wherever BASE is (R54). -/
theorem portOffset_busAddress (p : Params) (off : Offset) : portOffset p (busAddress p off) = some off := by
  have hlt : off.toNat < 4096 := off.isLt
  rw [portOffset, busAddress, if_pos (by omega), Nat.add_sub_cancel_left, BitVec.ofNat_toNat, BitVec.setWidth_eq]

/-- `WR off, v` is one write at the block's own offset (R75). -/
theorem asmWR_eq (p : Params) (off : Offset) (v : Word) : asmWR p off v = [.host (.write 4 off v)] := by
  simp only [asmWR, busWrite, portOffset_busAddress]

theorem encode_line (c : Bool) : encode (.line c 0) = if c then 0x00000106 else 0x00000006 := by cases c <;> rfl

/-- Settles O58: LINE is a listed form, and each WR of its expansion is one write. -/
theorem assembledLineWritesItsRegisters : Obligations.AssembledLineWritesItsRegisters := by
  intro p c x0 y0 x1 y1
  have hlisted : listedLine (.line c 0) [x0, y0, x1, y1] = true := rfl
  simp only [asmCommand, hlisted, if_true, asmArgs, asmWR_eq, encode_line]
  rfl

end Sys2Proof.Machine
end

section
/-! PROOFS. FLUSH, CLEAR, ALLON and INIT for every answer of the transport (R84 to R94, R138). -/

namespace Sys2Proof.Machine

/-! ### Transcripts -/

/-- Where no answer fails, every transaction gets its log entry. -/
theorem transcript_length {s : State} {n : Nat} {txs : List Tx} (h : firstFailure s n txs.length = none) :
    (transcript s n txs).length = txs.length := by
  induction txs generalizing n with
  | nil => rfl
  | cons tx rest ih =>
    rw [List.length_cons, firstFailure] at h
    split at h
    next hok => simp [transcript, hok, ih h]
    next => cases h

/-- Where no answer fails, the transactions after the first ones go on with the answers after theirs. -/
theorem transcript_append {s : State} {n : Nat} {txs : List Tx} (h : firstFailure s n txs.length = none) (txs' : List Tx) :
    transcript s n (txs ++ txs') = transcript s n txs ++ transcript s (n + txs.length) txs' := by
  induction txs generalizing n with
  | nil => rfl
  | cons tx rest ih =>
    rw [List.length_cons, firstFailure] at h
    split at h
    next hok => simp [transcript, hok, ih h, Nat.add_assoc, Nat.add_comm 1]
    next => cases h

section

/-! From here `t` is a state for which the first `m` of `s`'s answers are used up. -/

variable {s t : State} {m : Nat} (h : ∀ n, t.answerAt n = s.answerAt (n + m))

include h

theorem transcript_drop (n : Nat) (txs : List Tx) : transcript t n txs = transcript s (n + m) txs := by
  induction txs generalizing n with
  | nil => rfl
  | cons tx rest ih => simp only [transcript, h, ih, Nat.add_right_comm]

theorem firstFailure_drop (n k : Nat) : firstFailure s (n + m) k = (firstFailure t n k).map (· + m) := by
  induction k generalizing n with
  | zero => rfl
  | succ k ih =>
    rw [firstFailure, firstFailure, h, Nat.add_right_comm, ih]
    split <;> rfl

end

/-! ### FLUSH, CLEAR and ALLON -/

/-- Settles O26: FLUSH is FlushTail of the framebuffer as it stands. -/
theorem flushSendsEveryPage : Obligations.FlushSendsEveryPage := by
  intro s c f
  obtain ⟨t, hexec, hflush, hkeeps, hlatch, hfb, hx, hy, hinit, -⟩ :=
    run_flushTail (segment := segFlush) rfl (accept_prepared (.flush c f) s)
  refine ⟨t, hexec, hflush, fun a => by rw [hfb, accept_fb], hkeeps, ⟨hx, hy, hinit⟩, hlatch, fun hok => ?_⟩
  rw [hflush.log, List.length_append, transcript_length hok, flushTxs_length]

/-- A command that fills the framebuffer with the byte `b` and then flushes it (R90, R92). -/
theorem exec_fill {i : Instr} {b : Byte} {s : State}
    (hseg : firstSegment i (accept i s) = flushTail 0 { accept i s with fb := Memory.filled b }) :
    ∃ t, exec i s = .next t ∧ (∀ a, a < 1024 → t.fb.read a = b) ∧ Flushed i.opcode 0 s t ∧ KeepsRegisters s t ∧
      KeepsCursor s t ∧ Latched i s t := by
  generalize hm : Memory.filled b = m at hseg
  have hu : Prepared i s { accept i s with fb := m } := (accept_prepared i s).update m _ _ _ _ _
  obtain ⟨t, hexec, hflush, hkeeps, hlatch, hfb, hx, hy, hinit, -⟩ := run_flushTail hseg hu
  refine ⟨t, (exec_eq i s).trans hexec, fun a ha => ?_, hflush, hkeeps, ⟨hx, hy, hinit⟩, hlatch⟩
  rw [hfb, ← hm, Memory.read_filled, if_pos ha]

/-- Settles O28: CLEAR fills with 0x00. -/
theorem clearBlanksAndFlushes : Obligations.ClearBlanksAndFlushes := fun _ _ _ => exec_fill rfl

/-- Settles O29: ALLON fills with 0xFF. -/
theorem allonFillsAndFlushes : Obligations.AllonFillsAndFlushes := fun _ _ _ => exec_fill rfl

/-- Settles O30: the second command fills whatever framebuffer the first one leaves. -/
theorem clearAndAllonAreTerminal : Obligations.ClearAndAllonAreTerminal := by
  intro s c c' f f'
  constructor
  · obtain ⟨t, ht, -⟩ := clearBlanksAndFlushes s c f
    obtain ⟨u, hu, hfill, -⟩ := allonFillsAndFlushes t c' f'
    exact ⟨t, u, ht, hu, hfill⟩
  · obtain ⟨t, ht, -⟩ := allonFillsAndFlushes s c f
    obtain ⟨u, hu, hfill, -⟩ := clearBlanksAndFlushes t c' f'
    exact ⟨t, u, ht, hu, hfill⟩

/-! ### INIT's configuration bytes -/

/-- A whole command keeps the host's registers, and the latch holds what acceptance put there (R19, R42, R138). -/
theorem keeps_of_exec {i : Instr} {s t : State} (h : exec i s = .next t) : KeepsRegisters s t ∧ Latched i s t := by
  rw [exec_eq_advanceFor] at h
  cases h
  obtain ⟨hcfg, htext, harg, hlatch, hovr, hill, hinbox, hhost, hread, hdraw⟩ :=
    advanceFor_frame (stepBound s.cfg + 1) (accept i s)
  exact ⟨⟨hcfg, htext, harg, hovr, hill, hinbox, hhost, hread, hdraw⟩, hlatch⟩

/-- From `s` to `t` the transactions `txs` were sent, up to the first that failed: the log has their transcript, as many
answers are used up, and the command has changed nothing else. -/
structure Sent (txs : List Tx) (s t : State) : Prop where
  frame : FlushFrame s t
  log : t.log = s.log ++ transcript s 0 txs
  answers : ∀ n, t.answerAt n = s.answerAt (n + (transcript s 0 txs).length)
  terr : t.terr = s.terr
  initialized : t.initialized = s.initialized

theorem Sent.nil (s : State) : Sent [] s s := ⟨.refl s, by simp [transcript], fun _ => rfl, rfl, rfl⟩

/-- A failed transaction is the last that is sent (R86). -/
theorem sent_of_failed {s : State} (h : s.answerAt 0 ≠ .ok) (site : Site) (tx : Tx) (rest : List Tx) :
    Sent (tx :: rest) s (answeredState site tx s) where
  frame := answeredState_frame site tx s
  log := by simp [transcript, h, answeredState]
  answers n := by simp [transcript, h, answerAt_answeredState]
  terr := dropAnswer_terr s
  initialized := dropAnswer_initialized s

/-- After a transaction answered OK the rest is sent. -/
theorem Sent.cons {s t : State} {site : Site} {tx : Tx} {rest : List Tx} (hok : s.answerAt 0 = .ok)
    (h : Sent rest (answeredState site tx s) t) : Sent (tx :: rest) s t := by
  have hshift := transcript_shift (answerAt_answeredState site tx s) 0 rest
  refine ⟨(answeredState_frame site tx s).trans h.frame, ?_, fun n => ?_, h.terr.trans (dropAnswer_terr s),
    h.initialized.trans (dropAnswer_initialized s)⟩
  · rw [h.log, hshift]
    simp [transcript, hok, answeredState]
  · rw [h.answers, answerAt_answeredState, hshift]
    simp [transcript, hok, Nat.add_assoc]

theorem dropAnswer_issue (site : Site) (tx : Tx) (s : State) : (issue site tx s).dropAnswer = issue site tx s.dropAnswer := by
  cases h : s.answers <;> simp [State.dropAnswer, issue, h]

theorem answeredState_issue (site : Site) (tx : Tx) (s : State) :
    answeredState site tx (issue site tx s) = answeredState site tx s := by
  rw [answeredState, dropAnswer_issue]
  rfl

/-- Configuration byte k takes two atomic steps: its answer, and the segment after it (R88). -/
theorem continueFor_configByte {k : Nat} {b : Byte} {s : State} (hb : s.cfg.initSeq[k]? = some b) (N : Nat) :
    continueFor (N + 2) (configFrom k s) =
      continueFor N (resume (.config k) (s.answerAt 0) (answeredState (.config k) (.cmd b) s)) := by
  have hissue : configFrom k s = issue (.config k) (.cmd b) s := by simp only [configFrom, hb]
  rw [hissue, continueFor_waiting (site := .config k) (tx := .cmd b) rfl, answeredState_issue]
  rfl

/-- The configuration from byte k on is that byte and the configuration from k + 1 on. -/
theorem getElem?_and_tail_of_drop {α : Type} {l rest : List α} {k : Nat} {b : α} (h : l.drop k = b :: rest) :
    l[k]? = some b ∧ l.drop (k + 1) = rest := by
  constructor
  · rw [← List.head?_drop, h, List.head?_cons]
  · rw [← List.tail_drop, h, List.tail_cons]

/-- All bytes from k on answered OK: INIT has sent them and stands where none is left. -/
theorem continueFor_config_ok {bytes : List Byte} {k : Nat} {s : State} (hbytes : s.cfg.initSeq.drop k = bytes)
    (hok : firstFailure s 0 bytes.length = none) :
    ∃ u, Sent (bytes.map .cmd) s u ∧
      ∀ N, continueFor (N + 2 * bytes.length) (configFrom k s) = continueFor N (configFrom (k + bytes.length) u) := by
  induction bytes generalizing k s with
  | nil => exact ⟨s, .nil s, fun _ => rfl⟩
  | cons b rest ih =>
    obtain ⟨hb, hrest⟩ := getElem?_and_tail_of_drop hbytes
    have hans := answerAt_answeredState (.config k) (.cmd b) s
    rw [firstFailure_none] at hok
    have hhead : s.answerAt 0 = .ok := hok 0 (by simp)
    have htail : firstFailure (answeredState (.config k) (.cmd b) s) 0 rest.length = none :=
      firstFailure_none.mpr fun i hi => (hans (0 + i)).trans (hok (i + 1) (by simpa using hi))
    obtain ⟨u, hsent, hrun⟩ := ih ((answeredState_frame _ _ s).cfg ▸ hrest) htail
    refine ⟨u, .cons hhead hsent, fun N => ?_⟩
    have hstep := continueFor_configByte hb (N + 2 * rest.length)
    rw [resume, if_pos hhead, afterOk, hrun] at hstep
    simpa only [List.length_cons, Nat.mul_add, Nat.add_assoc, Nat.add_comm 1] using hstep

/-- What INIT records when a configuration byte is answered `r` (R88). -/
def configFailure (r : Answer) : Completion := { code := .transportFail, tkind := r, fcfg := true }

/-- The first byte that fails ends INIT with that answer. -/
theorem continueFor_config_failed {bytes : List Byte} {k j N : Nat} {s : State} (hbytes : s.cfg.initSeq.drop k = bytes)
    (hfail : firstFailure s 0 bytes.length = some j) (hN : 2 * bytes.length < N) :
    ∃ u, Sent (bytes.map .cmd) s u ∧ continueFor N (configFrom k s) = complete (configFailure (s.answerAt j)) u := by
  induction bytes generalizing k s j N with
  | nil => cases hfail
  | cons b rest ih =>
    obtain ⟨hb, hrest⟩ := getElem?_and_tail_of_drop hbytes
    rw [List.length_cons] at hfail hN
    obtain ⟨N, rfl⟩ : ∃ M, N = M + 1 + 2 := ⟨N - 3, by omega⟩
    rw [continueFor_configByte hb, resume]
    by_cases hhead : s.answerAt 0 = .ok
    · have hans := answerAt_answeredState (.config k) (.cmd b) s
      rw [firstFailure, if_pos hhead, firstFailure_drop hans, Option.map_eq_some_iff] at hfail
      obtain ⟨j, hfail, rfl⟩ := hfail
      obtain ⟨u, hsent, hrun⟩ := ih (N := N + 1) ((answeredState_frame _ _ s).cfg ▸ hrest) hfail (by omega)
      exact ⟨u, .cons hhead hsent, by rw [if_pos hhead, afterOk, hrun, hans]⟩
    · rw [firstFailure, if_neg hhead] at hfail
      cases hfail
      refine ⟨_, sent_of_failed hhead (.config k) (.cmd b) _, ?_⟩
      rw [if_neg hhead, continueFor_finishing (c := configFailure (s.answerAt 0)) rfl]
      rfl

/-! ### INIT's clear and flush -/

/-- The framebuffer and the cursor as INIT clears them (R88). -/
def initCleared (s : State) : State := { s with fb := Memory.filled 0x00, curX := 0, curY := 0, batch := false }

/-- The configuration done, INIT clears, and flushes what it has cleared. -/
theorem continueFor_initFlush {k N : Nat} {u t : State} (hk : u.cfg.initSeq.length ≤ k) (hN : 65 ≤ N)
    (ht : continueFor N (configFrom k u) = t) :
    FlushFrame (initCleared u) t ∧ t.engine = .idle ∧ t.batch = false ∧
    t.log = u.log ++ transcript u 0 (flushTxs u.cfg t.fb) ∧
    t.result = { op := u.latch.op, info := flushRecord .init 0 u } ∧
    t.terr = terrAfter u.terr (flushRecord .init 0 u).code ∧ t.initialized = flushInitialized .init 0 u := by
  have hstart : configFrom k u = issuePage 0 0 .init (initCleared u) := by
    simp only [configFrom, List.getElem?_eq_none hk]
    rfl
  have hans : ∀ n, (issuePage 0 0 .init (initCleared u)).answerAt n = u.answerAt n := answerAt_congr rfl rfl
  have hrecord : flushRecord .init 0 (issuePage 0 0 .init (initCleared u)) = flushRecord .init 0 u := by
    simp only [flushRecord, firstFailure_congr hans, hans]
  have hinitialized : flushInitialized .init 0 (issuePage 0 0 .init (initCleared u)) = flushInitialized .init 0 u := by
    unfold flushInitialized
    rw [firstFailure_congr hans]
    rfl
  obtain ⟨hframe, hidle, hbatch, hlog, hresult, hterr, hinit⟩ :=
    continueFor_flush 32 0 0 .init (issuePage 0 0 .init (initCleared u)) N rfl rfl hN
  rw [hstart] at ht
  rw [ht] at hframe hidle hbatch hlog hresult hterr hinit
  refine ⟨.trans (by constructor <;> rfl) hframe, hidle, hbatch, ?_, hresult.trans (congrArg _ hrecord),
    hterr.trans (congrArg (fun r : Completion => terrAfter u.terr r.code) hrecord), hinit.trans hinitialized⟩
  rw [hlog, transcript_congr hans, hframe.fb]
  rfl

/-! ### INIT -/

/-- INIT accepted, with INITIALIZED off: what its configuration starts from (R88). -/
def initStart (c : Bool) (f : BitVec 4) (s : State) : State := { accept (.init c f) s with initialized := false }

theorem exec_init (c : Bool) (f : BitVec 4) (s : State) :
    exec (.init c f) s = .next (continueFor (stepBound s.cfg) (configFrom 0 (initStart c f s))) := exec_next (.init c f) s

section

variable {c : Bool} {f : BitVec 4} {s u : State} {txs : List Tx}

theorem answerAt_initStart (n : Nat) : (initStart c f s).answerAt n = s.answerAt n := answerAt_congr rfl rfl n

theorem Sent.log_of_initStart (h : Sent txs (initStart c f s) u) : u.log = s.log ++ transcript s 0 txs := by
  rw [h.log, transcript_congr answerAt_initStart]
  rfl

theorem Sent.answerAt_of_initStart (h : Sent txs (initStart c f s) u) (hok : firstFailure s 0 txs.length = none) (n : Nat) :
    u.answerAt n = s.answerAt (n + txs.length) := by
  rw [h.answers, answerAt_initStart, transcript_congr answerAt_initStart, transcript_length hok]

/-- INIT with a configuration byte that fails: its completion follows that answer at once. -/
theorem exec_init_failed {j : Nat} (hfail : firstFailure s 0 s.cfg.initSeq.length = some j) :
    ∃ u, Sent (s.cfg.initSeq.map .cmd) (initStart c f s) u ∧
      exec (.init c f) s = .next (complete (configFailure (s.answerAt j)) u) := by
  obtain ⟨u, hsent, hrun⟩ := continueFor_config_failed (bytes := s.cfg.initSeq) (k := 0) (N := stepBound s.cfg)
    (s := initStart c f s) rfl ((firstFailure_congr answerAt_initStart 0 _).trans hfail) (by unfold stepBound; omega)
  exact ⟨u, hsent, by rw [exec_init, hrun, answerAt_initStart]⟩

/-- INIT with every configuration byte answered OK: 65 steps are left for the clear and the flush. -/
theorem exec_init_configured (hok : firstFailure s 0 s.cfg.initSeq.length = none) :
    ∃ u, Sent (s.cfg.initSeq.map .cmd) (initStart c f s) u ∧
      exec (.init c f) s = .next (continueFor 65 (configFrom s.cfg.initSeq.length u)) := by
  obtain ⟨u, hsent, hrun⟩ := continueFor_config_ok (bytes := s.cfg.initSeq) (k := 0) (s := initStart c f s) rfl
    ((firstFailure_congr answerAt_initStart 0 _).trans hok)
  have hbound : stepBound s.cfg = 65 + 2 * s.cfg.initSeq.length := by unfold stepBound; omega
  exact ⟨u, hsent, by rw [exec_init, hbound, hrun, Nat.zero_add]⟩

end

/-- Settles O27: the configuration bytes are sent first, and only when none fails INIT clears and flushes. -/
theorem initConfiguresAndClears : Obligations.InitConfiguresAndClears := by
  intro s c f
  cases hcfg : firstFailure s 0 s.cfg.initSeq.length with
  | some j =>
    obtain ⟨u, hsent, hexec⟩ := exec_init_failed (c := c) (f := f) hcfg
    obtain ⟨hkeeps, hlatched⟩ := keeps_of_exec hexec
    have hframe := hsent.frame
    refine ⟨_, hexec, hkeeps, hlatched, rfl, rfl, fun a => ?_, hframe.curX, hframe.curY, hsent.initialized, Bool.or_true _, ?_,
      hsent.log_of_initStart⟩
    · rw [complete_fb, hframe.fb]
      rfl
    · rw [complete_result, hframe.latch]
      rfl
  | none =>
    obtain ⟨u, hsent, hexec⟩ := exec_init_configured (c := c) (f := f) hcfg
    obtain ⟨hkeeps, hlatched⟩ := keeps_of_exec hexec
    have hucfg : u.cfg = s.cfg := hsent.frame.cfg
    have hop : u.latch.op = 0x01 := by rw [hsent.frame.latch]; rfl
    have hok : firstFailure s 0 (s.cfg.initSeq.map Tx.cmd).length = none := by rw [List.length_map, hcfg]
    have hans := hsent.answerAt_of_initStart hok
    obtain ⟨hframe, hidle, hbatch, hlog, hresult, hterr, hinit⟩ :=
      continueFor_initFlush (Nat.le_of_eq (by rw [hucfg])) le_rfl rfl
    have hdrop := firstFailure_drop hans 0 32
    rw [List.length_map, Nat.zero_add] at hdrop
    rw [hop] at hresult
    refine ⟨_, hexec, hkeeps, hlatched, (busy_eq_false_iff _).mpr hidle, hbatch, fun a ha => ?_, hframe.curX, hframe.curY,
      ?_, ?_⟩
    · rw [hframe.fb, initCleared, Memory.read_filled, if_pos ha]
    · rw [hlog, hsent.log_of_initStart, transcript_append hok, transcript_drop hans, hucfg, List.append_assoc]
    · rw [hdrop, hinit, hterr, hresult, hsent.terr]
      cases hflush : firstFailure u 0 32 with
      | none => simp [flushInitialized, flushRecord, hflush, terrAfter, Tail.char, initStart]
      | some j =>
        simp [flushInitialized, flushRecord, hflush, terrAfter, Tail.char, hans, hsent.initialized, initStart]

end Sys2Proof.Machine
end

section
/-! PROOFS. SETPIXEL and LINE: what they draw, and Line in closed form (R97 to R106). -/

namespace Sys2Proof.Machine

/-! ### Bytes by their pixels, and drawing -/

/-- A bit of a framebuffer byte is a pixel: column a mod 128, row 8 times the page and the bit (R32). -/
theorem getLsbD_read (fb : Memory) (a : Nat) {j : Nat} (hj : j < 8) :
    (fb.read a).getLsbD j = pixelAt fb (a % 128) (8 * (a / 128) + j) := by
  have hindex : pixelIndex (a % 128) (8 * (a / 128) + j) = a := by
    simp only [pixelIndex, Nat.shiftRight_eq_div_pow]
    omega
  have hbit : (8 * (a / 128) + j) % 8 = j := by omega
  rw [pixelAt, hindex, and_seven, hbit]

section

variable {P Q : Nat → Nat → Prop} {s t u : State}

theorem Drew.congr {c : Bool} (h : Drew P c s t) (hPQ : ∀ x y, x < 128 → y < 64 → (P x y ↔ Q x y)) : Drew Q c s t :=
  ⟨fun x y hx hy hq => h.set x y hx hy ((hPQ x y hx hy).mpr hq),
   fun x y hx hy hq => h.kept x y hx hy fun hp => hq ((hPQ x y hx hy).mp hp),
   fun a ha => h.bytes a fun x y hx hy hp => ha x y hx hy ((hPQ x y hx hy).mp hp)⟩

theorem Drew.sameFb_of_offPanel {c : Bool} (h : Drew P c s t) (hoff : ∀ x y, x < 128 → y < 64 → ¬ P x y) : SameFb s t :=
  fun a => h.bytes a fun x y hx hy hp => absurd hp (hoff x y hx hy)

/-- Drawing BLACK over what was drawn WHITE restores every byte, if what was drawn was BLACK before (R103). -/
theorem Drew.sameFb_of_restored (h : Drew P true s t) (k : Drew P false t u)
    (hblack : ∀ x y, x < 128 → y < 64 → P x y → pixelAt s.fb x y = false) : SameFb s u := by
  have hpixel : ∀ x y, x < 128 → y < 64 → pixelAt u.fb x y = pixelAt s.fb x y := by
    intro x y hx hy
    by_cases hp : P x y
    · rw [k.set x y hx hy hp, hblack x y hx hy hp]
    · rw [k.kept x y hx hy hp, h.kept x y hx hy hp]
  intro a
  by_cases ha : a < 1024
  · refine BitVec.eq_of_getLsbD_eq fun j hj => ?_
    rw [getLsbD_read _ _ hj, getLsbD_read _ _ hj, hpixel _ _ (by omega) (by omega)]
  · have houtside : ∀ x y, x < 128 → y < 64 → P x y → pixelIndex x y ≠ a := fun x y hx hy _ => by
      have := pixelIndex_lt hx hy
      omega
    rw [k.bytes a houtside, h.bytes a houtside]

/-- A byte after drawing WHITE on an all-zero framebuffer: its 1 bits are the positions drawn. -/
theorem Drew.read_of_blank (h : Drew P true s t) (hblank : SameFb State.reset s) {a : Nat} (ha : a < 1024) {b : Byte}
    (hb : ∀ j : Fin 8, b.getLsbD j = true ↔ P (a % 128) (8 * (a / 128) + j)) : t.fb.read a = b := by
  refine BitVec.eq_of_getLsbD_eq fun j hj => ?_
  have hbit := hb ⟨j, hj⟩
  rw [getLsbD_read _ _ hj]
  by_cases hp : P (a % 128) (8 * (a / 128) + j)
  · rw [h.set _ _ (by omega) (by omega) hp, hbit.mpr hp]
  · have hzero : s.fb.read a = 0 := hblank a
    rw [h.kept _ _ (by omega) (by omega) hp, ← getLsbD_read _ _ hj, hzero, Bool.eq_false_iff.mpr (mt hbit.mp hp)]
    simp

end

/-! ### SETPIXEL -/

/-- Settles O31: SETPIXEL draws the one-position list of its operands and finishes. -/
theorem setpixelDrawsOnePixel : Obligations.SetpixelDrawsOnePixel := by
  intro s c f
  have hseg : segSetpixel (accept (.setpixel c f) s) =
      finishWith { code := .ok } ((accept (.setpixel c f) s).draw [(s.arg[0], s.arg[1])]) := rfl
  have hu : Prepared (.setpixel c f) s ((accept (.setpixel c f) s).draw [(s.arg[0], s.arg[1])]) :=
    (accept_prepared _ s).update _ _ _ _ _ _
  obtain ⟨t, hexec, hfinish, hkeeps, hlatch, hfb, hx, hy, hinit, -⟩ := run_finish hseg hu nofun
  refine ⟨t, hexec, drew_putPoints hfb fun x y hx hy => ?_, hfinish, hkeeps, ⟨hx, hy, hinit⟩, hlatch⟩
  rw [List.mem_singleton, eq_comm (a := at16 x y), ← at16_eq hx hy, eq_comm (a := x), eq_comm (a := y)]

/-- Settles O32: the second SETPIXEL reads the same operands, so it draws BLACK exactly where the first drew WHITE. -/
theorem setpixelRoundTrip : Obligations.SetpixelRoundTrip := by
  intro s f f'
  constructor
  · intro _ _ hblack
    obtain ⟨t, ht, hwhite, -, hkeeps, -⟩ := setpixelDrawsOnePixel s true f
    obtain ⟨u, hu, hdrew, -⟩ := setpixelDrawsOnePixel t false f'
    rw [hkeeps.arg] at hdrew
    refine ⟨t, u, ht, hu, hwhite.sameFb_of_restored hdrew ?_⟩
    rintro x y _ _ ⟨rfl, rfl⟩
    exact hblack
  · intro c hoff
    obtain ⟨t, ht, hdrew, -⟩ := setpixelDrawsOnePixel s c f
    exact ⟨t, ht, hdrew.sameFb_of_offPanel fun x y hx hy hxy => by omega⟩

/-! ### LINE -/

/-- LINE's segment on a command just accepted: Line between the operand registers, then a flush unless BATCH = 1 (R101). -/
theorem segLine_accept (c : Bool) (f : BitVec 4) (s : State) :
    segLine (accept (.line c f) s) =
      if s.batch then
        finishWith { code := .ok } ((accept (.line c f) s).draw (linePoints s.arg[0] s.arg[1] s.arg[2] s.arg[3]))
      else flushTail 0 ((accept (.line c f) s).draw (linePoints s.arg[0] s.arg[1] s.arg[2] s.arg[3])) := rfl

/-- Settles O33: LINE draws Line's positions and then finishes in batch mode, and flushes otherwise. -/
theorem lineDrawsAndFlushes : Obligations.LineDrawsAndFlushes := by
  intro s c f
  have hseg := segLine_accept c f s
  have hu : Prepared (.line c f) s ((accept (.line c f) s).draw (linePoints s.arg[0] s.arg[1] s.arg[2] s.arg[3])) :=
    (accept_prepared _ s).update _ _ _ _ _ _
  cases hb : s.batch with
  | false =>
    rw [hb] at hseg
    obtain ⟨t, hexec, hflush, hkeeps, hlatch, hfb, hx, hy, hinit, -⟩ := run_flushTail hseg hu
    exact ⟨t, hexec, drew_putPoints hfb fun _ _ _ _ => .rfl, fun _ => hflush, nofun, hkeeps, ⟨hx, hy, hinit⟩, hlatch⟩
  | true =>
    rw [hb] at hseg
    obtain ⟨t, hexec, hfinish, hkeeps, hlatch, hfb, hx, hy, hinit, -⟩ := run_finish hseg hu nofun
    exact ⟨t, hexec, drew_putPoints hfb fun _ _ _ _ => .rfl, nofun, fun _ => hfinish, hkeeps, ⟨hx, hy, hinit⟩, hlatch⟩

/-- Settles O35: both lines are runs along one axis, whose positions the column and row lemmas give. -/
theorem lineSpecialCases : Obligations.LineSpecialCases := by
  intro s f h0 h1
  obtain ⟨t, hexec, hdrew, -⟩ := lineDrawsAndFlushes s true f
  rw [h0, h1] at hdrew
  constructor
  · intro h2 h3
    rw [h2, h3] at hdrew
    have hcolumn : Drew (fun x y => x = 0 ∧ y ≤ 10) true s t := hdrew.congr fun x y hx hy => by
      rw [mem_linePoints_column hx hy rfl]
      simp [eq_comm]
    exact ⟨t, hexec, hcolumn, fun hblank =>
      ⟨hcolumn.read_of_blank hblank (by decide) (by decide), hcolumn.read_of_blank hblank (by decide) (by decide)⟩⟩
  · intro h2 h3
    rw [h2, h3] at hdrew
    have hrow : Drew (fun x y => x ≤ 10 ∧ y = 0) true s t := hdrew.congr fun x y hx hy => by
      rw [mem_linePoints_row hx hy rfl]
      simp [eq_comm, and_comm]
    refine ⟨t, hexec, hrow, fun hblank a ha => hrow.read_of_blank hblank (by omega) fun j => ?_⟩
    have hbit : ∀ j : Fin 8, (0x01 : Byte).getLsbD j = true ↔ j.val = 0 := by decide
    rw [hbit]
    omega

end Sys2Proof.Machine
end

section
/-! PROOFS. Line in closed form: the Bresenham loop's error term, the loop as a map over the steps along the longer axis, and the
vertical and horizontal runs as the same steps in another order (R99, R100, R106). -/

namespace Sys2Proof.Machine

/-! ### The minor offset and the error term -/

/-- The error of a line of major length M and minor length N after k steps: ⌊M/2⌋ and M times the lead of the plotted minor
coordinate over the exact one. -/
def errorTerm (M N k : Nat) : Int := (M / 2 : Nat) + minorOffset M N k * M - k * N

/-- The minor offset after k steps is the one that keeps the error within 0 and M - 1. -/
theorem minorOffset_eq_iff {M : Nat} (hM : 0 < M) (N k q : Nat) :
    minorOffset M N k = q ↔ 0 ≤ ((M / 2 : Nat) + q * M - k * N : Int) ∧ ((M / 2 : Nat) + q * M - k * N : Int) < M := by
  rw [minorOffset, Nat.div_eq_iff hM]
  omega

theorem minorOffset_zero {M : Nat} (hM : 0 < M) (N : Nat) : minorOffset M N 0 = 0 := by
  rw [minorOffset_eq_iff hM]
  omega

theorem minorOffset_minor_zero (M k : Nat) : minorOffset M 0 k = 0 := by
  rw [minorOffset, Nat.mul_zero, Nat.zero_add]
  rcases Nat.eq_zero_or_pos M with rfl | hM
  · rfl
  · exact Nat.div_eq_of_lt (by omega)

theorem minorOffset_last {M : Nat} (hM : 0 < M) (N : Nat) : minorOffset M N M = N := by
  rw [minorOffset_eq_iff hM, Int.mul_comm (N : Int)]
  omega

theorem minorOffset_le {M N k : Nat} (hk : k ≤ M) : minorOffset M N k ≤ N := by
  rcases Nat.eq_zero_or_pos M with rfl | hM
  · simp [minorOffset]
  · calc minorOffset M N k ≤ minorOffset M N M :=
          Nat.div_le_div_right (Nat.add_le_add_right (Nat.mul_le_mul_right N hk) _)
      _ = N := minorOffset_last hM N

theorem errorTerm_range {M : Nat} (hM : 0 < M) (N k : Nat) : 0 ≤ errorTerm M N k ∧ errorTerm M N k < M :=
  (minorOffset_eq_iff hM N k _).mp rfl

theorem errorTerm_zero {M : Nat} (hM : 0 < M) (N : Nat) : errorTerm M N 0 = (M / 2 : Nat) := by
  simp [errorTerm, minorOffset_zero hM]

/-- The minor coordinate moves in the steps whose error is below N. -/
theorem minorOffset_succ {M N : Nat} (hM : 0 < M) (hN : N ≤ M) (k : Nat) :
    minorOffset M N (k + 1) = minorOffset M N k + if errorTerm M N k < N then 1 else 0 := by
  have hrange := errorTerm_range hM N k
  rw [minorOffset_eq_iff hM]
  unfold errorTerm at *
  split <;> push_cast <;> simp only [Int.add_mul] <;> omega

theorem errorTerm_succ {M N : Nat} (hM : 0 < M) (hN : N ≤ M) (k : Nat) :
    errorTerm M N (k + 1) = errorTerm M N k - N + if errorTerm M N k < N then (M : Int) else 0 := by
  have hmove := minorOffset_succ hM hN k
  rw [errorTerm, hmove]
  split <;> push_cast <;> simp only [Int.add_mul, errorTerm] <;> omega

/-! ### Steps from one end point towards the other -/

/-- The distance of two coordinates. -/
def gap (a b : Nat) : Nat := max a b - min a b

/-- The direction from `a` to `b`, -1 where they coincide (R99). -/
def direction (a b : Nat) : Int := if a < b then 1 else -1

theorem towards_zero (a b : Nat) : towards a b 0 = a := by simp [towards]

theorem towards_succ (a b k : Nat) : towards a b (k + 1) = towards a b k + direction a b := by
  unfold towards direction
  split <;> omega

theorem towards_eq_end_iff {a b k : Nat} : towards a b k = b ↔ k = gap a b := by
  unfold towards gap
  split <;> omega

theorem towards_range {a b k : Nat} (hk : k ≤ gap a b) :
    (min a b : Nat) ≤ towards a b k ∧ towards a b k ≤ (max a b : Nat) := by
  unfold gap at hk
  unfold towards
  split <;> omega

/-- The ascending run between two coordinates has the positions of the steps from the one towards the other. -/
theorem span_perm_towards (a b : Nat) :
    (span (min (a : Int) b) (max (a : Int) b)).Perm ((List.range (gap a b + 1)).map (towards a b)) := by
  have hspan : (span (min (a : Int) b) (max (a : Int) b)).Nodup := List.nodup_range.map fun i j h => by simpa using h
  have hinj : Function.Injective (towards a b) := fun i j h => by
    unfold towards at h
    split at h <;> omega
  refine (List.perm_ext_iff_of_nodup hspan (List.nodup_range.map hinj)).mpr fun v => ?_
  simp only [mem_span, List.mem_map, List.mem_range, towards, gap]
  constructor
  · intro hv
    refine ⟨(v - a).natAbs, by omega, ?_⟩
    split <;> omega
  · rintro ⟨k, hk, rfl⟩
    split <;> omega

/-! ### The loop -/

/-- What a run of the Bresenham loop does from step to step: `px k`, `py k`, `e k` are its variables after k steps, and it
meets its end point in step M and not before. -/
structure LineTrace (dx dy sx sy x1 y1 : Int) (M : Nat) (px py e : Nat → Int) : Prop where
  stop : px M = x1 ∧ py M = y1
  goOn : ∀ k, k < M → ¬ (px k = x1 ∧ py k = y1)
  moveX : ∀ k, px (k + 1) = if e k > -dx then px k + sx else px k
  moveY : ∀ k, py (k + 1) = if e k < dy then py k + sy else py k
  error : ∀ k, e (k + 1) = (if e k > -dx then e k - dy else e k) + (if e k < dy then dx else 0)

/-- Enough fuel: the loop plots the positions of its steps up to the last. -/
theorem LineTrace.lineLoop_eq {dx dy sx sy x1 y1 : Int} {M : Nat} {px py e : Nat → Int}
    (h : LineTrace dx dy sx sy x1 y1 M px py e) (j k n : Nat) (hk : k + j = M) (hn : j < n) :
    lineLoop dx dy sx sy x1 y1 n (px k) (py k) (e k) =
      (List.range' k (j + 1)).map fun i => (mod16 (px i), mod16 (py i)) := by
  induction j generalizing k n with
  | zero =>
    obtain ⟨n, rfl⟩ : ∃ m, n = m + 1 := ⟨n - 1, by omega⟩
    obtain rfl : k = M := hk
    rw [lineLoop, if_pos h.stop]
    rfl
  | succ j ih =>
    obtain ⟨n, rfl⟩ : ∃ m, n = m + 1 := ⟨n - 1, by omega⟩
    rw [lineLoop, if_neg (h.goOn k (by omega)), ← h.moveX, ← h.moveY, ← h.error, ih (k + 1) n (by omega) (by omega),
      List.range'_succ (n := j + 1), List.map_cons]

section

variable {X0 Y0 X1 Y1 : Nat}

/-- A line longer in x: x moves in every step, and y where the error is below dy. -/
theorem lineTrace_xMajor (hlong : gap Y0 Y1 < gap X0 X1) :
    LineTrace (gap X0 X1) (gap Y0 Y1) (direction X0 X1) (direction Y0 Y1) X1 Y1 (gap X0 X1) (towards X0 X1)
      (fun k => towards Y0 Y1 (minorOffset (gap X0 X1) (gap Y0 Y1) k)) (errorTerm (gap X0 X1) (gap Y0 Y1)) := by
  have hM : 0 < gap X0 X1 := by omega
  have hmoves : ∀ k, errorTerm (gap X0 X1) (gap Y0 Y1) k > -(gap X0 X1 : Int) := fun k => by
    have := errorTerm_range hM (gap Y0 Y1) k
    omega
  constructor
  · rw [minorOffset_last hM]
    exact ⟨towards_eq_end_iff.mpr rfl, towards_eq_end_iff.mpr rfl⟩
  · rintro k hk ⟨hx, -⟩
    exact Nat.ne_of_lt hk (towards_eq_end_iff.mp hx)
  · intro k
    rw [if_pos (hmoves k), towards_succ]
  · intro k
    rw [minorOffset_succ hM hlong.le]
    split
    · exact towards_succ _ _ _
    · rfl
  · intro k
    rw [if_pos (hmoves k), errorTerm_succ hM hlong.le]

/-- A line at least as long in y: y moves in every step, x where the error is below dx, and the loop's error has the other
sign. -/
theorem lineTrace_yMajor (hlong : gap X0 X1 ≤ gap Y0 Y1) (hM : 0 < gap Y0 Y1) :
    LineTrace (gap X0 X1) (gap Y0 Y1) (direction X0 X1) (direction Y0 Y1) X1 Y1 (gap Y0 Y1)
      (fun k => towards X0 X1 (minorOffset (gap Y0 Y1) (gap X0 X1) k)) (towards Y0 Y1)
      (fun k => -errorTerm (gap Y0 Y1) (gap X0 X1) k) := by
  have hmoves : ∀ k, -errorTerm (gap Y0 Y1) (gap X0 X1) k < gap Y0 Y1 := fun k => by
    have := errorTerm_range hM (gap X0 X1) k
    omega
  constructor
  · rw [minorOffset_last hM]
    exact ⟨towards_eq_end_iff.mpr rfl, towards_eq_end_iff.mpr rfl⟩
  · rintro k hk ⟨-, hy⟩
    exact Nat.ne_of_lt hk (towards_eq_end_iff.mp hy)
  · intro k
    rw [minorOffset_succ hM hlong]
    simp only [gt_iff_lt, Int.neg_lt_neg_iff]
    split
    · exact towards_succ _ _ _
    · rfl
  · intro k
    rw [if_pos (hmoves k), towards_succ]
  · intro k
    rw [if_pos (hmoves k), errorTerm_succ hM hlong]
    simp only [gt_iff_lt, Int.neg_lt_neg_iff]
    split <;> omega

end

/-! ### Line as its steps -/

/-- Step k of Line between clamped end points: k along the longer axis, y where both are equal (R99). -/
def lineStep (X0 Y0 X1 Y1 k : Nat) : Int × Int :=
  if gap X0 X1 > gap Y0 Y1 then (towards X0 X1 k, towards Y0 Y1 (minorOffset (gap X0 X1) (gap Y0 Y1) k))
  else (towards X0 X1 (minorOffset (gap Y0 Y1) (gap X0 X1) k), towards Y0 Y1 k)

/-- The positions of Line's steps as the 16-bit datapath carries them. -/
def lineSteps (X0 Y0 X1 Y1 : Nat) : List Point :=
  (List.range (max (gap X0 X1) (gap Y0 Y1) + 1)).map fun k =>
    (mod16 (lineStep X0 Y0 X1 Y1 k).1, mod16 (lineStep X0 Y0 X1 Y1 k).2)

theorem absInt_sub (a b : Nat) : absInt ((b : Int) - a) = gap a b := by
  unfold absInt gap
  split <;> omega

section

variable {X0 Y0 X1 Y1 : Nat}

theorem clampedLine_vertical_perm (h : gap X0 X1 = 0) : (clampedLine X0 Y0 X1 Y1).Perm (lineSteps X0 Y0 X1 Y1) := by
  have hsteps : lineSteps X0 Y0 X1 Y1 = ((List.range (gap Y0 Y1 + 1)).map (towards Y0 Y1)).map fun y => (mod16 X0, mod16 y) := by
    simp [lineSteps, lineStep, h, minorOffset_minor_zero, towards_zero]
  rw [clampedLine, absInt_sub, if_pos (Int.natCast_eq_zero.mpr h), hsteps]
  exact (span_perm_towards Y0 Y1).map _

theorem clampedLine_horizontal_perm (hx : gap X0 X1 ≠ 0) (h : gap Y0 Y1 = 0) :
    (clampedLine X0 Y0 X1 Y1).Perm (lineSteps X0 Y0 X1 Y1) := by
  have hsteps : lineSteps X0 Y0 X1 Y1 = ((List.range (gap X0 X1 + 1)).map (towards X0 X1)).map fun x => (mod16 x, mod16 Y0) := by
    simp [lineSteps, lineStep, h, Nat.pos_of_ne_zero hx, minorOffset_minor_zero, towards_zero]
  rw [clampedLine, absInt_sub, absInt_sub, if_neg (mt Int.natCast_eq_zero.mp hx), if_pos (Int.natCast_eq_zero.mpr h), hsteps]
  exact (span_perm_towards X0 X1).map _

theorem clampedLine_general_eq (hx : gap X0 X1 ≠ 0) (hy : gap Y0 Y1 ≠ 0) (hfuel : max (gap X0 X1) (gap Y0 Y1) < 128) :
    clampedLine X0 Y0 X1 Y1 = lineSteps X0 Y0 X1 Y1 := by
  simp only [clampedLine, absInt_sub, if_neg (mt Int.natCast_eq_zero.mp hx), if_neg (mt Int.natCast_eq_zero.mp hy), Int.ofNat_lt,
    gt_iff_lt, lineSteps, lineStep, List.range_eq_range']
  rcases Nat.lt_or_ge (gap Y0 Y1) (gap X0 X1) with hlong | hlong
  · have hloop := (lineTrace_xMajor hlong).lineLoop_eq (gap X0 X1) 0 128 (Nat.zero_add _) (by omega)
    simp only [towards_zero, minorOffset_zero (Nat.pos_of_ne_zero hx), errorTerm_zero (Nat.pos_of_ne_zero hx), direction] at hloop
    simp only [if_pos hlong, Nat.max_eq_left hlong.le]
    exact hloop
  · have hloop := (lineTrace_yMajor hlong (Nat.pos_of_ne_zero hy)).lineLoop_eq (gap Y0 Y1) 0 128 (Nat.zero_add _) (by omega)
    simp only [towards_zero, minorOffset_zero (Nat.pos_of_ne_zero hy), errorTerm_zero (Nat.pos_of_ne_zero hy), direction] at hloop
    simp only [if_neg (Nat.not_lt.mpr hlong), Nat.max_eq_right hlong, Int.neg_tdiv]
    exact hloop

theorem clampedLine_perm (hfuel : max (gap X0 X1) (gap Y0 Y1) < 128) :
    (clampedLine X0 Y0 X1 Y1).Perm (lineSteps X0 Y0 X1 Y1) := by
  by_cases hx : gap X0 X1 = 0
  · exact clampedLine_vertical_perm hx
  · by_cases hy : gap Y0 Y1 = 0
    · exact clampedLine_horizontal_perm hx hy
    · exact .of_eq (clampedLine_general_eq hx hy hfuel)

theorem eq_lineStep_iff {k : Nat} {x y : Int} :
    (x = (lineStep X0 Y0 X1 Y1 k).1 ∧ y = (lineStep X0 Y0 X1 Y1 k).2) ↔
      if gap X0 X1 > gap Y0 Y1 then x = towards X0 X1 k ∧ y = towards Y0 Y1 (minorOffset (gap X0 X1) (gap Y0 Y1) k)
      else y = towards Y0 Y1 k ∧ x = towards X0 X1 (minorOffset (gap Y0 Y1) (gap X0 X1) k) := by
  unfold lineStep
  split
  · exact .rfl
  · exact and_comm

/-! From here the end points lie on the panel. -/

variable (hX0 : X0 < 128) (hX1 : X1 < 128) (hY0 : Y0 < 64) (hY1 : Y1 < 64)

include hX0 hX1 hY0 hY1

/-- The steps of a line between panel positions stay on the panel (R100). -/
theorem lineStep_onPanel {k : Nat} (hk : k ≤ max (gap X0 X1) (gap Y0 Y1)) :
    (0 ≤ (lineStep X0 Y0 X1 Y1 k).1 ∧ (lineStep X0 Y0 X1 Y1 k).1 < 128) ∧
      0 ≤ (lineStep X0 Y0 X1 Y1 k).2 ∧ (lineStep X0 Y0 X1 Y1 k).2 < 64 := by
  unfold lineStep
  split
  · have hx := towards_range (a := X0) (b := X1) (k := k) (by omega)
    have hy := towards_range (a := Y0) (b := Y1) (minorOffset_le (M := gap X0 X1) (k := k) (by omega))
    dsimp only
    omega
  · have hx := towards_range (a := X0) (b := X1) (minorOffset_le (M := gap Y0 Y1) (k := k) (by omega))
    have hy := towards_range (a := Y0) (b := Y1) (k := k) (by omega)
    dsimp only
    omega

theorem mem_lineSteps {x y : Nat} (hx : x < 128) (hy : y < 64) :
    at16 x y ∈ lineSteps X0 Y0 X1 Y1 ↔
      ∃ k, k ≤ max (gap X0 X1) (gap Y0 Y1) ∧
        (x : Int) = (lineStep X0 Y0 X1 Y1 k).1 ∧ (y : Int) = (lineStep X0 Y0 X1 Y1 k).2 := by
  simp only [lineSteps, List.mem_map, List.mem_range, Nat.lt_succ_iff]
  refine exists_congr fun k => and_congr_right fun hk => ?_
  obtain ⟨hstepX, hstepY⟩ := lineStep_onPanel hX0 hX1 hY0 hY1 hk
  rw [eq_comm, at16_eq_mod16 hx hy (by omega) (by omega), eq_comm (b := (x : Int)), eq_comm (b := (y : Int))]

theorem lineSteps_onPanel {p : Point} (hp : p ∈ lineSteps X0 Y0 X1 Y1) : onPanel p := by
  obtain ⟨k, hk, rfl⟩ := List.mem_map.mp hp
  rw [List.mem_range, Nat.lt_succ_iff] at hk
  obtain ⟨hstepX, hstepY⟩ := lineStep_onPanel hX0 hX1 hY0 hY1 hk
  simp only [onPanel, toNat_mod16]
  omega

end

/-- Settles O34: Line's positions are its steps in some order, and the steps are the closed form. -/
theorem lineClosedForm : Obligations.LineClosedForm := by
  intro x0 y0 x1 y1 x y hx hy X0 X1 Y0 Y1
  have hpanel : X0 < 128 ∧ X1 < 128 ∧ Y0 < 64 ∧ Y1 < 64 := by omega
  obtain ⟨hX0, hX1, hY0, hY1⟩ := hpanel
  have hperm : (linePoints x0 y0 x1 y1).Perm (lineSteps X0 Y0 X1 Y1) := by
    rw [linePoints_eq_clampedLine]
    exact clampedLine_perm (by unfold gap; omega)
  refine ⟨?_, ?_, fun p hp => lineSteps_onPanel hX0 hX1 hY0 hY1 (hperm.mem_iff.mp hp)⟩
  · rw [hperm.mem_iff, mem_lineSteps hX0 hX1 hY0 hY1 hx hy]
    exact exists_congr fun k => and_congr_right fun _ => eq_lineStep_iff
  · rw [hperm.length_eq, lineSteps, List.length_map, List.length_range]
    rfl

end Sys2Proof.Machine
end

section
/-! PROOFS. RECT, FRECT, TRI, CIRCLE and FCIRCLE: the panel positions of each shape's list of points, the midpoint iteration in closed
form, and the mirror image of a circle inside the panel (R107 to R113, R117 to R121). -/

namespace Sys2Proof.Machine

/-! ### The rectangles -/

section

variable {x y w h : Half}

theorem rectOriginIn_iff : rectOriginIn x y = true ↔ x.toNat < 128 ∧ y.toNat < 64 := by
  simp [rectOriginIn]

/-- The far column is the exact sum, clamped: 16 bits hold it. -/
theorem rectXEnd_toNat : (rectXEnd x w).toNat = min (x.toNat + w.toNat) 127 := by
  rw [rectXEnd, BitVec.toNat_ofNat]
  omega

theorem rectYEnd_toNat : (rectYEnd y h).toNat = min (y.toNat + h.toNat) 63 := by
  rw [rectYEnd, BitVec.toNat_ofNat]
  omega

/-- The outline of the clamped box: two rows and two columns (R108). -/
theorem mem_rectPoints {px py : Nat} (hpx : px < 128) (hpy : py < 64) :
    at16 px py ∈ rectPoints x y w h ↔
      x.toNat < 128 ∧ y.toNat < 64 ∧ x.toNat ≤ px ∧ px ≤ min (x.toNat + w.toNat) 127 ∧ y.toNat ≤ py ∧
        py ≤ min (y.toNat + h.toNat) 63 ∧
        (px = x.toNat ∨ px = min (x.toNat + w.toNat) 127 ∨ py = y.toNat ∨ py = min (y.toNat + h.toNat) 63) := by
  rw [rectPoints]
  split
  next hin =>
    rw [rectOriginIn_iff] at hin
    simp only [List.mem_append, mem_linePoints_row hpx hpy, mem_linePoints_column hpx hpy, rectXEnd_toNat, rectYEnd_toNat]
    omega
  next hout =>
    rw [rectOriginIn_iff] at hout
    exact iff_of_false List.not_mem_nil fun hbox => hout ⟨hbox.1, hbox.2.1⟩

/-- Row i of FRECT's box: the 16-bit row is the exact one, which the box's height keeps on the panel. -/
theorem mem_frectRow {px py i : Nat} (hpx : px < 128) (hpy : py < 64) (hx : x.toNat < 128) (hrow : y.toNat + i < 64) :
    at16 px py ∈ linePoints x (mod16 ((y.toNat : Int) + i)) (rectXEnd x w) (mod16 ((y.toNat : Int) + i)) ↔
      y.toNat + i = py ∧ x.toNat ≤ px ∧ px ≤ min (x.toNat + w.toNat) 127 := by
  rw [mem_linePoints_row hpx hpy rfl, toNat_mod16, rectXEnd_toNat]
  omega

/-- The clamped box, row by row (R110). -/
theorem mem_frectPoints {px py : Nat} (hpx : px < 128) (hpy : py < 64) :
    at16 px py ∈ frectPoints x y w h ↔
      x.toNat < 128 ∧ y.toNat < 64 ∧ x.toNat ≤ px ∧ px ≤ min (x.toNat + w.toNat) 127 ∧ y.toNat ≤ py ∧
        py ≤ min (y.toNat + h.toNat) 63 := by
  rw [frectPoints]
  split
  next hin =>
    obtain ⟨hx, hy⟩ := rectOriginIn_iff.mp hin
    simp only [List.mem_flatMap, List.mem_range, rectYEnd_toNat]
    constructor
    · rintro ⟨i, hi, hmem⟩
      rw [mem_frectRow hpx hpy hx (by omega)] at hmem
      omega
    · rintro ⟨-, -, hx0, hx1, hy0, hy1⟩
      exact ⟨py - y.toNat, by omega, (mem_frectRow hpx hpy hx (by omega)).mpr ⟨by omega, hx0, hx1⟩⟩
  next hout =>
    rw [rectOriginIn_iff] at hout
    exact iff_of_false List.not_mem_nil fun hbox => hout ⟨hbox.1, hbox.2.1⟩

end

/-- Settles O36: RECT's segment is the shape of its outline's points. -/
theorem rectDrawsItsOutline : Obligations.RectDrawsItsOutline := fun s c f =>
  run_shape (i := .rect c f) (points := rectPoints s.arg[0] s.arg[1] s.arg[2] s.arg[3]) rfl
    fun _ _ hx hy => (mem_rectPoints hx hy).symm

/-- Settles O37: FRECT's segment is the shape of its rows' points. -/
theorem frectFillsItsBox : Obligations.FrectFillsItsBox := fun s c f =>
  run_shape (i := .frect c f) (points := frectPoints s.arg[0] s.arg[1] s.arg[2] s.arg[3]) rfl
    fun _ _ hx hy => (mem_frectPoints hx hy).symm

/-! ### TRI -/

/-- Settles O38: TRI's points are those of its three lines, one after the other. -/
theorem triDrawsThreeLines : Obligations.TriDrawsThreeLines := by
  intro s c f
  refine run_shape (i := .tri c f)
    (points := triPoints s.arg[0] s.arg[1] s.arg[2] s.arg[3] s.arg[4] s.arg[5]) rfl fun x y _ _ => ?_
  simp only [triPoints, List.mem_append, or_assoc]

/-! ### The midpoint iteration -/

/-- The decision variable of the midpoint iteration before the step from (x, y): which side of the radius the midpoint of the
two candidates lies on (R117). -/
def midpointDecision (r x y : Int) : Int := (x + 1) * (x + 1) + y * y - y - r * r

theorem midpointDecision_start (r : Int) : midpointDecision r 0 r = 1 - r := by
  unfold midpointDecision
  ring

/-- The increments of R117 keep the decision variable, whether the row falls by one first or stays. -/
theorem midpointDecision_step (r x y : Int) :
    midpointDecision r (x + 1) (y - 1) = midpointDecision r x y + (-2 * y + 2) + (2 * x + 1 + 2) ∧
      midpointDecision r (x + 1) y = midpointDecision r x y + (2 * x + 1 + 2) := by
  unfold midpointDecision
  constructor <;> ring

/-- The row falls where the decision variable is not negative. -/
theorem midpointRow_succ_of_pos {r k : Nat} (hrow : 0 < midpointRow r k) :
    (midpointRow r (k + 1) : Int) =
      if midpointDecision r k (midpointRow r k) ≥ 0 then (midpointRow r k : Int) - 1 else midpointRow r k := by
  have hdecision : midpointDecision r k (midpointRow r k) ≥ 0 ↔
      (k + 1) * (k + 1) + midpointRow r k * midpointRow r k ≥ r * r + midpointRow r k := by
    unfold midpointDecision
    zify
    omega
  rw [midpointRow, if_congr hdecision rfl rfl]
  split <;> omega

theorem midpointRow_le (r k : Nat) : midpointRow r k ≤ r := by
  induction k with
  | zero => exact Nat.le_refl r
  | succ k ih => rw [midpointRow]; split <;> omega

/-- One round of the loop, its variables at column k being those of the closed form (R117). -/
theorem circleLoop_succ {r k : Nat} (n : Nat) (hlt : k < midpointRow r k) :
    circleLoop (n + 1) (midpointDecision r k (midpointRow r k)) (2 * k + 1) (-2 * midpointRow r k) k (midpointRow r k) =
      ((k : Int) + 1, (midpointRow r (k + 1) : Int)) ::
        circleLoop n (midpointDecision r (k + 1 : Nat) (midpointRow r (k + 1))) (2 * (k + 1 : Nat) + 1)
          (-2 * midpointRow r (k + 1)) (k + 1 : Nat) (midpointRow r (k + 1)) := by
  obtain ⟨hfall, hstay⟩ := midpointDecision_step r k (midpointRow r k)
  have hslopeX : 2 * ((k : Int) + 1) + 1 = 2 * k + 1 + 2 := by ring
  have hslopeY : -2 * ((midpointRow r k : Int) - 1) = -2 * midpointRow r k + 2 := by ring
  rw [circleLoop, if_pos (Int.ofNat_lt.mpr hlt), midpointRow_succ_of_pos (Nat.zero_lt_of_lt hlt), Nat.cast_succ, hslopeX]
  split
  · rw [hfall, hslopeY]
  · rw [hstay]

/-- (x, y) is a position of the closed form visited from column k on. -/
def VisitedFrom (r k : Nat) (x y : Int) : Prop :=
  ∃ m : Nat, k ≤ m ∧ x = m + 1 ∧ y = midpointRow r (m + 1) ∧ ∀ j, k ≤ j → j ≤ m → j < midpointRow r j

theorem visitedFrom_of_lt {r k : Nat} (hlt : k < midpointRow r k) (x y : Int) :
    VisitedFrom r k x y ↔ (x = k + 1 ∧ y = midpointRow r (k + 1)) ∨ VisitedFrom r (k + 1) x y := by
  constructor
  · rintro ⟨m, hkm, hx, hy, hall⟩
    rcases Nat.eq_or_lt_of_le hkm with rfl | hkm
    · exact .inl ⟨hx, hy⟩
    · exact .inr ⟨m, hkm, hx, hy, fun j hkj => hall j (Nat.le_of_succ_le hkj)⟩
  · rintro (⟨hx, hy⟩ | ⟨m, hkm, hx, hy, hall⟩)
    · exact ⟨k, Nat.le_refl k, hx, hy, fun j hkj hjk => Nat.le_antisymm hkj hjk ▸ hlt⟩
    · refine ⟨m, Nat.le_of_succ_le hkm, hx, hy, fun j hkj hjm => ?_⟩
      rcases Nat.eq_or_lt_of_le hkj with rfl | hkj
      · exact hlt
      · exact hall j hkj hjm

theorem not_visitedFrom_of_ge {r k : Nat} (hge : ¬ k < midpointRow r k) (x y : Int) : ¬ VisitedFrom r k x y := by
  rintro ⟨m, hkm, -, -, hall⟩
  exact hge (hall k (Nat.le_refl k) hkm)

/-- The loop from column k on, with a round for each column left: it ends where the column reaches its row. -/
theorem mem_circleLoop {r : Nat} (n k : Nat) (hfuel : r ≤ k + n) (x y : Int) :
    (x, y) ∈ circleLoop n (midpointDecision r k (midpointRow r k)) (2 * k + 1) (-2 * midpointRow r k) k (midpointRow r k) ↔
      VisitedFrom r k x y := by
  induction n generalizing k with
  | zero =>
    have hrow := midpointRow_le r k
    exact iff_of_false List.not_mem_nil (not_visitedFrom_of_ge (by omega) x y)
  | succ n ih =>
    by_cases hlt : k < midpointRow r k
    · rw [circleLoop_succ n hlt, List.mem_cons, Prod.mk.injEq, ih (k + 1) (by omega), visitedFrom_of_lt hlt]
    · rw [circleLoop, if_neg (mt Int.ofNat_lt.mp hlt)]
      exact iff_of_false List.not_mem_nil (not_visitedFrom_of_ge hlt x y)

/-- Settles O40: the loop's variables start at column 0 of the closed form, and r rounds are enough. -/
theorem circleStepsAreMidpoints : Obligations.CircleStepsAreMidpoints := by
  intro r x y
  have hloop := mem_circleLoop (r := r.toNat) r.toNat 0 (by omega) x y
  simp only [midpointRow, Nat.cast_zero, midpointDecision_start, Int.mul_zero, Int.zero_add, VisitedFrom, Nat.zero_le, true_and,
    forall_const] at hloop
  exact hloop

/-- Visited positions lie within the radius. -/
theorem circleSteps_range {r : Half} {v : Int × Int} (hv : v ∈ circleSteps r) :
    (0 ≤ v.1 ∧ v.1 ≤ r.toNat) ∧ 0 ≤ v.2 ∧ v.2 ≤ r.toNat := by
  obtain ⟨k, hx, hy, hall⟩ := (circleStepsAreMidpoints r v.1 v.2).mp hv
  have hcolumn := hall k (Nat.le_refl k)
  have hrow := midpointRow_le r.toNat k
  have hrow' := midpointRow_le r.toNat (k + 1)
  omega

/-! ### CIRCLE -/

/-- The offsets of the axis points from the centre, in order (R118). -/
def axisOffsets (r : Int) : List (Int × Int) := [(0, r), (0, -r), (r, 0), (-r, 0)]

/-- The offsets of the eight reflections of a visited position, in order (R118). -/
def octantOffsets (x y : Int) : List (Int × Int) :=
  [(x, y), (-x, y), (x, -y), (-x, -y), (y, x), (-y, x), (y, -x), (-y, -x)]

/-- The offsets of CIRCLE's positions, in order. -/
def circleOffsets (r : Half) : List (Int × Int) :=
  axisOffsets r.toNat ++ (circleSteps r).flatMap fun v => octantOffsets v.1 v.2

section

variable {x0 y0 r : Half} {x y : Nat}

/-- CIRCLE's positions are the points at its offsets. -/
theorem circlePoints_eq_map (x0 y0 r : Half) :
    circlePoints x0 y0 r = (circleOffsets r).map fun d => offsetPoint x0 y0 d.1 d.2 := by
  rw [circleOffsets, List.map_append, List.map_flatMap]
  rfl

/-- A panel position is a point at an exact offset exactly if the datapath carries the exact sums as it (R96). -/
theorem at16_eq_offsetPoint (hx : x < 128) (hy : y < 64) {dx dy : Int} :
    at16 x y = offsetPoint x0 y0 dx dy ↔ carriedAs (x0.toNat + dx) (y0.toNat + dy) x y := by
  rw [eq_comm, ← at16_eq hx hy]
  simp only [offsetPoint, toNat_mod16, carriedAs]
  omega

theorem mem_axisPoints (hx : x < 128) (hy : y < 64) :
    at16 x y ∈ axisPoints x0 y0 r ↔
      carriedAs x0.toNat (y0.toNat + r.toNat) x y ∨ carriedAs x0.toNat (y0.toNat - r.toNat) x y ∨
        carriedAs (x0.toNat + r.toNat) y0.toNat x y ∨ carriedAs (x0.toNat - r.toNat) y0.toNat x y := by
  simp only [axisPoints, List.mem_cons, List.not_mem_nil, or_false, at16_eq_offsetPoint hx hy, Int.add_zero, ← Int.sub_eq_add_neg]

theorem mem_octantPoints (hx : x < 128) (hy : y < 64) {a b : Int} :
    at16 x y ∈ octantPoints x0 y0 a b ↔
      carriedAs (x0.toNat + a) (y0.toNat + b) x y ∨ carriedAs (x0.toNat - a) (y0.toNat + b) x y ∨
        carriedAs (x0.toNat + a) (y0.toNat - b) x y ∨ carriedAs (x0.toNat - a) (y0.toNat - b) x y ∨
        carriedAs (x0.toNat + b) (y0.toNat + a) x y ∨ carriedAs (x0.toNat - b) (y0.toNat + a) x y ∨
        carriedAs (x0.toNat + b) (y0.toNat - a) x y ∨ carriedAs (x0.toNat - b) (y0.toNat - a) x y := by
  simp only [octantPoints, List.mem_cons, List.not_mem_nil, or_false, at16_eq_offsetPoint hx hy, ← Int.sub_eq_add_neg]

end

/-- Settles O41: CIRCLE's points are the axis points and then the reflections of each visited position. -/
theorem circlePlotsItsReflections : Obligations.CirclePlotsItsReflections := by
  intro s c f x0 y0 r
  refine run_shape (i := .circle c f) (points := circlePoints s.arg[0] s.arg[1] s.arg[2]) rfl fun x y hx hy => ?_
  simp only [circlePoints, List.mem_append, List.mem_flatMap, mem_axisPoints hx hy, mem_octantPoints hx hy, or_assoc]
  rfl

/-! ### The mirror image of a circle inside the panel -/

theorem octantOffsets_mirror {a b : Int} {d : Int × Int} (hd : d ∈ octantOffsets a b) : (-d.1, d.2) ∈ octantOffsets a b := by
  simp only [octantOffsets, List.mem_cons, List.not_mem_nil, or_false] at hd
  rcases hd with rfl | rfl | rfl | rfl | rfl | rfl | rfl | rfl <;> simp [octantOffsets]

theorem axisOffsets_mirror {r : Int} {d : Int × Int} (hd : d ∈ axisOffsets r) : (-d.1, d.2) ∈ axisOffsets r := by
  simp only [axisOffsets, List.mem_cons, List.not_mem_nil, or_false] at hd
  rcases hd with rfl | rfl | rfl | rfl <;> simp [axisOffsets]

theorem circleOffsets_mirror {r : Half} {d : Int × Int} (hd : d ∈ circleOffsets r) : (-d.1, d.2) ∈ circleOffsets r := by
  simp only [circleOffsets, List.mem_append, List.mem_flatMap] at hd ⊢
  exact hd.imp axisOffsets_mirror fun ⟨v, hv, hmem⟩ => ⟨v, hv, octantOffsets_mirror hmem⟩

/-- No offset reaches farther from the centre's column than the radius. -/
theorem circleOffsets_range {r : Half} {d : Int × Int} (hd : d ∈ circleOffsets r) : -(r.toNat : Int) ≤ d.1 ∧ d.1 ≤ r.toNat := by
  simp only [circleOffsets, List.mem_append, List.mem_flatMap] at hd
  rcases hd with haxis | ⟨v, hv, hoctant⟩
  · simp only [axisOffsets, List.mem_cons, List.not_mem_nil, or_false, Prod.ext_iff] at haxis
    omega
  · obtain ⟨hx, hy⟩ := circleSteps_range hv
    simp only [octantOffsets, List.mem_cons, List.not_mem_nil, or_false, Prod.ext_iff] at hoctant
    omega

/-- Where the columns of a circle are columns of the panel, its points on the panel mirror about the centre's column (R119). -/
theorem circlePoints_mirror {x0 y0 r : Half} {x y : Nat} (hleft : r.toNat ≤ x0.toNat) (hright : x0.toNat + r.toNat ≤ 127)
    (hx : x < 128) (hy : y < 64) (hmem : at16 x y ∈ circlePoints x0 y0 r) :
    x ≤ 2 * x0.toNat ∧ 2 * x0.toNat - x < 128 ∧ at16 (2 * x0.toNat - x) y ∈ circlePoints x0 y0 r := by
  rw [circlePoints_eq_map] at hmem ⊢
  obtain ⟨d, hd, hpoint⟩ := List.mem_map.mp hmem
  obtain ⟨hcol, hrow⟩ := (at16_eq_offsetPoint hx hy).mp hpoint.symm
  have hrange := circleOffsets_range hd
  have hinside : x ≤ 2 * x0.toNat ∧ 2 * x0.toNat - x < 128 := by omega
  refine ⟨hinside.1, hinside.2, List.mem_map.mpr ⟨_, circleOffsets_mirror hd, ?_⟩⟩
  exact ((at16_eq_offsetPoint hinside.2 hy).mpr ⟨by dsimp only; omega, hrow⟩).symm

/-- Settles O42: on a blank framebuffer the set pixels are the circle's points, and those mirror. -/
theorem circleInsideIsSymmetric : Obligations.CircleInsideIsSymmetric := by
  intro s f x0 y0 r hblank hleft hright _ _
  obtain ⟨t, hexec, hdrew, -⟩ := run_shape (i := .circle true f) (segment := segCircle) (s := s)
    (points := circlePoints s.arg[0] s.arg[1] s.arg[2]) rfl fun _ _ _ _ => .rfl
  refine ⟨t, hexec, fun x y hx hy hset => ?_⟩
  have hmem : at16 x y ∈ circlePoints s.arg[0] s.arg[1] s.arg[2] := by
    by_contra hnot
    rw [hdrew.kept x y hx hy hnot, pixelAt, hblank] at hset
    simp at hset
  obtain ⟨hle, hlt, hmirror⟩ := circlePoints_mirror hleft hright hx hy hmem
  exact ⟨hle, hlt, hdrew.set _ _ hlt hy hmirror⟩

/-! ### FCIRCLE -/

/-- A chord between points at exact offsets is Line between the exact sums mod 2^16 (R120). -/
theorem chord_offsetPoint (x0 y0 : Half) (dx dy dx' dy' : Int) :
    chord (offsetPoint x0 y0 dx dy) (offsetPoint x0 y0 dx' dy') =
      linePoints (BitVec.ofInt 16 (x0.toNat + dx)) (BitVec.ofInt 16 (y0.toNat + dy)) (BitVec.ofInt 16 (x0.toNat + dx'))
        (BitVec.ofInt 16 (y0.toNat + dy')) := rfl

/-- Settles O43: FCIRCLE's points are the axis points, the centre row, and then the chords of each visited position. -/
theorem fcircleDrawsItsChords : Obligations.FcircleDrawsItsChords := by
  intro s c f x0 y0 r line
  refine run_shape (i := .fcircle c f) (points := fcirclePoints s.arg[0] s.arg[1] s.arg[2]) rfl fun x y hx hy => ?_
  simp only [fcirclePoints, chordPoints, List.mem_append, List.mem_flatMap, mem_axisPoints hx hy, chord_offsetPoint, Int.add_zero,
    ← Int.sub_eq_add_neg, or_assoc]
  rfl

end Sys2Proof.Machine
end

section
/-! PROOFS. FTRI in closed form: the two-term DDA between v1 and v2, whose minor coordinate is the rounded quotient (R114 to
R116). -/

namespace Sys2Proof.Machine

/-! ### The minor offset and the numerator -/

/-- How far the minor coordinate of TriFill has moved after k steps, for a major length M and a minor length N (R114). -/
def sweepOffset (M N k : Nat) : Nat := (M / 2 + k * N) / M

/-- TriFill's `num` after k steps: what the moves so far leave of the exact sum. -/
def sweepNumerator (M N k : Nat) : Nat := (M / 2 + k * N) % M

theorem sweep_eq_iff {M : Nat} (hM : 0 < M) {N k q e : Nat} :
    sweepOffset M N k = q ∧ sweepNumerator M N k = e ↔ e + M * q = M / 2 + k * N ∧ e < M :=
  Nat.div_mod_unique hM

theorem sweep_zero {M : Nat} (hM : 0 < M) (N : Nat) : sweepOffset M N 0 = 0 ∧ sweepNumerator M N 0 = M / 2 :=
  (sweep_eq_iff hM).mpr (by omega)

/-- The minor coordinate moves in the steps whose sum reaches M, and those take M off the numerator. -/
theorem sweep_succ {M N : Nat} (hM : 0 < M) (hN : N ≤ M) (k : Nat) :
    sweepOffset M N (k + 1) = sweepOffset M N k + (if sweepNumerator M N k + N ≥ M then 1 else 0) ∧
      sweepNumerator M N (k + 1) = sweepNumerator M N k + N - (if sweepNumerator M N k + N ≥ M then M else 0) := by
  obtain ⟨hsum, hlt⟩ := (sweep_eq_iff (N := N) (k := k) hM).mp ⟨rfl, rfl⟩
  rw [sweep_eq_iff hM, Nat.add_mul, Nat.mul_add, Nat.one_mul]
  split <;> omega

theorem sweepOffset_le {M N k : Nat} (hk : k ≤ M) : sweepOffset M N k ≤ N := by
  rcases Nat.eq_zero_or_pos M with rfl | hM
  · simp [sweepOffset]
  · have hprod : k * N ≤ N * M := Nat.mul_comm N M ▸ Nat.mul_le_mul_right N hk
    exact Nat.le_of_lt_succ ((Nat.div_lt_iff_lt_mul hM).mpr (by rw [Nat.succ_mul]; omega))

/-! ### The loop -/

/-- A coordinate of TriFill after k steps from `a`: `minor` in each step that moves the minor coordinate, `major` in every step. -/
def sweepCoord (M N : Nat) (a minor major : Int) (k : Nat) : Int := a + sweepOffset M N k * minor + k * major

section

variable {M N : Nat} (hM : 0 < M)

include hM

theorem sweepCoord_zero (a minor major : Int) : sweepCoord M N a minor major 0 = a := by
  simp [sweepCoord, (sweep_zero hM N).1]

theorem sweepCoord_succ (hN : N ≤ M) (a minor major : Int) (k : Nat) :
    sweepCoord M N a minor major (k + 1) =
      if sweepNumerator M N k + N ≥ M then sweepCoord M N a minor major k + minor + major
      else sweepCoord M N a minor major k + major := by
  rw [sweepCoord, (sweep_succ hM hN k).1, sweepCoord]
  split <;> push_cast <;> ring

/-- The loop from step k on draws a line to v3 from each of its points. -/
theorem triLoop_eq_sweep (hN : N ≤ M) (x y a b a' b' : Int) (x3 y3 : Half) (n k : Nat) :
    triLoop M N a b a' b' x3 y3 n (sweepNumerator M N k) (sweepCoord M N x a a' k) (sweepCoord M N y b b' k) =
      (List.range' k n).flatMap fun i =>
        linePoints (mod16 (sweepCoord M N x a a' i)) (mod16 (sweepCoord M N y b b' i)) x3 y3 := by
  induction n generalizing k with
  | zero => rfl
  | succ n ih =>
    have hnum := (sweep_succ hM hN k).2
    have hx := sweepCoord_succ hM hN x a a' k
    have hy := sweepCoord_succ hM hN y b b' k
    rw [triLoop, List.range'_succ, List.flatMap_cons, ← ih (k + 1), hnum, hx, hy]
    by_cases hmove : sweepNumerator M N k + N ≥ M
    · rw [if_pos (by omega), if_pos hmove, if_pos hmove, if_pos hmove, Nat.cast_sub hmove, Nat.cast_add]
    · rw [if_neg (by omega), if_neg hmove, if_neg hmove, if_neg hmove, Nat.sub_zero, Nat.cast_add]

end

/-- All M + 1 rounds: with v1 = v2 there is one, and the loop never divides (R115). -/
theorem mem_triLoop {M N : Nat} (hN : N ≤ M) (x y a b a' b' : Int) (x3 y3 : Half) (p : Point) :
    p ∈ triLoop M N a b a' b' x3 y3 (M + 1) (M / 2 : Nat) x y ↔
      ∃ k ≤ M, p ∈ linePoints (mod16 (sweepCoord M N x a a' k)) (mod16 (sweepCoord M N y b b' k)) x3 y3 := by
  rcases Nat.eq_zero_or_pos M with rfl | hM
  · simp [triLoop, sweepCoord, sweepOffset]
  · have hloop := triLoop_eq_sweep hM hN x y a b a' b' x3 y3 (M + 1) 0
    rw [(sweep_zero hM N).2, sweepCoord_zero hM, sweepCoord_zero hM, ← List.range_eq_range'] at hloop
    simp only [hloop, List.mem_flatMap, List.mem_range, Nat.lt_succ_iff]

/-! ### The swept points -/

/-- The direction from `a` to `b`, +1 where they coincide (R114). -/
def sweepDirection (a b : Nat) : Int := if b ≥ a then 1 else -1

theorem add_mul_sweepDirection {a b k : Nat} (hk : k ≤ gap a b) : (a : Int) + k * sweepDirection a b = towards a b k := by
  unfold sweepDirection towards
  unfold gap at hk
  split <;> split <;> omega

/-- The end of TriFill's k-th line at v1 v2: k steps along the longer axis, x where both are equal (R114). -/
def sweepPoint (x1 y1 x2 y2 k : Nat) : Int × Int :=
  if gap x1 x2 ≥ gap y1 y2 then (towards x1 x2 k, towards y1 y2 (sweepOffset (gap x1 x2) (gap y1 y2) k))
  else (towards x1 x2 (sweepOffset (gap y1 y2) (gap x1 x2) k), towards y1 y2 k)

theorem sweepPoint_of_ge {x1 y1 x2 y2 k : Nat} (hlong : gap x1 x2 ≥ gap y1 y2) :
    sweepPoint x1 y1 x2 y2 k = (towards x1 x2 k, towards y1 y2 (sweepOffset (gap x1 x2) (gap y1 y2) k)) := if_pos hlong

theorem sweepPoint_of_lt {x1 y1 x2 y2 k : Nat} (hlong : ¬ gap x1 x2 ≥ gap y1 y2) :
    sweepPoint x1 y1 x2 y2 k = (towards x1 x2 (sweepOffset (gap y1 y2) (gap x1 x2) k), towards y1 y2 k) := if_neg hlong

/-- TriFill draws a line to v3 from each of its points between v1 and v2. -/
theorem mem_triFillPoints (x1 y1 x2 y2 x3 y3 : Half) (p : Point) :
    p ∈ triFillPoints x1 y1 x2 y2 x3 y3 ↔
      ∃ k ≤ max (gap x1.toNat x2.toNat) (gap y1.toNat y2.toNat),
        p ∈ linePoints (mod16 (sweepPoint x1.toNat y1.toNat x2.toNat y2.toNat k).1)
          (mod16 (sweepPoint x1.toNat y1.toNat x2.toNat y2.toNat k).2) x3 y3 := by
  have hhalf : ∀ n : Nat, Int.fdiv n 2 = (n / 2 : Nat) := fun n => Int.fdiv_eq_ediv_of_nonneg _ (by decide)
  simp only [triFillPoints, absInt_sub, ge_iff_le, Int.ofNat_le, Int.toNat_natCast, hhalf]
  by_cases hlong : gap y1.toNat y2.toNat ≤ gap x1.toNat x2.toNat
  · rw [if_pos hlong, mem_triLoop hlong, Nat.max_eq_left hlong]
    refine exists_congr fun k => and_congr_right fun hk => ?_
    rw [sweepPoint_of_ge hlong, ← add_mul_sweepDirection hk, ← add_mul_sweepDirection (sweepOffset_le hk)]
    simp only [sweepCoord, sweepDirection, ge_iff_le, Int.mul_zero, Int.add_zero]
  · have hlong' := Nat.le_of_not_le hlong
    rw [if_neg hlong, mem_triLoop hlong', Nat.max_eq_right hlong']
    refine exists_congr fun k => and_congr_right fun hk => ?_
    rw [sweepPoint_of_lt hlong, ← add_mul_sweepDirection hk, ← add_mul_sweepDirection (sweepOffset_le hk)]
    simp only [sweepCoord, sweepDirection, ge_iff_le, Int.mul_zero, Int.add_zero]

/-- Settles O39: FTRI's points are those of the lines to v3 from the swept points, and the sweep's offset is the quotient. -/
theorem ftriSweepsLinesToV3 : Obligations.FtriSweepsLinesToV3 := by
  intro s c f x1 y1 x2 y2 dx dy
  refine run_shape (i := .ftri c f)
    (points := triFillPoints s.arg[0] s.arg[1] s.arg[2] s.arg[3] s.arg[4] s.arg[5]) rfl fun x y _ _ => ?_
  rw [mem_triFillPoints]
  refine exists_congr fun k => and_congr_right fun _ => ?_
  split
  next hlong =>
    rw [sweepPoint_of_ge]
    · rfl
    · exact hlong
  next hlong =>
    rw [sweepPoint_of_lt]
    · rfl
    · exact hlong

end Sys2Proof.Machine
end

section
/-! PROOFS. GOTOXY, CHAR of a glyph that is rejected, and STR up to its end or its first failure (R124 to R133). -/

namespace Sys2Proof.Machine

/-! ### GOTOXY -/

/-- Settles O44: GOTOXY's segment only moves the cursor to the operand registers, and finishes. -/
theorem gotoxyMovesTheCursor : Obligations.GotoxyMovesTheCursor := by
  intro s c f
  have hseg : segGotoxy (accept (.gotoxy c f) s) =
      finishWith { code := .ok } ((accept (.gotoxy c f) s).setCursor s.arg[0] s.arg[1]) := rfl
  have hu : Prepared (.gotoxy c f) s ((accept (.gotoxy c f) s).setCursor s.arg[0] s.arg[1]) :=
    (accept_prepared _ s).update _ _ _ _ _ _
  obtain ⟨t, hexec, hfinish, hkeeps, hlatch, hfb, hx, hy, hinit, -⟩ := run_finish hseg hu nofun
  exact ⟨t, hexec, hx, hy, hinit, fun a => by rw [hfb]; rfl, hfinish, hkeeps, hlatch⟩

/-! ### The glyph step that fails -/

theorem drawCharOp_badGlyph {ch : Byte} (hch : glyphCode ch = false) (x y : Half) (f : BitVec 4) (c : Bool) (s : State) :
    drawCharOp x y ch f c s = (.badGlyph, s) := by simp [drawCharOp, hch]

section

variable {x y : Half} {ch : Byte} {f : BitVec 4} {c : Bool} {s : State}

theorem drawCharOp_rejected_before (hch : glyphCode ch = true) (hcheck : s.cfg.charCheck = .beforeReposition)
    (hfit : glyphFits (fontOf s.cfg f) s = false) : drawCharOp x y ch f c s = (.glyphRejected, s) := by
  simp [drawCharOp, hch, hcheck, hfit]

theorem drawCharOp_rejected_after (hch : glyphCode ch = true) (hcheck : s.cfg.charCheck = .afterReposition)
    (hfit : glyphFits (fontOf s.cfg f) (reposition x y s) = false) :
    drawCharOp x y ch f c s = (.glyphRejected, reposition x y s) := by
  simp [drawCharOp, hch, hcheck, hfit]

end

theorem not_glyphFits_iff (font : Font) (s : State) :
    glyphFits font s = false ↔ ¬ (s.curX.toNat + font.fw ≤ 128 ∧ s.curY.toNat + font.fh ≤ 64) := by
  rw [← Bool.not_eq_true, glyphFits_iff]

/-! ### CHAR of a rejected glyph -/

theorem segChar_of_failed {s u : State} {code : Code} (hcode : code ≠ .ok)
    (h : drawCharOp (s.opd 0) (s.opd 1) s.opdByte s.latch.font s.latch.color s = (code, u)) :
    segChar s = finishWith { code := code } u := by
  rw [segChar, h]
  cases code with
  | ok => exact absurd rfl hcode
  | _ => rfl

/-- CHAR whose glyph step fails in the state `u`: it reports the code with the sentinel 0x00 and leaves what `u` has (R128). -/
theorem exec_char_of_failed {s u : State} {c : Bool} {f : BitVec 4} {code : Code}
    (h : drawCharOp s.arg[0] s.arg[1] (BitVec.ofNat 8 (s.arg[2]).toNat) f c (accept (.char c f) s) = (code, u))
    (hcode : code ≠ .ok) :
    ∃ t, exec (.char c f) s = .next t ∧ t.fb = u.fb ∧ t.curX = u.curX ∧ t.curY = u.curY ∧ t.initialized = s.initialized ∧
      Unflushed 0x0D { code := code } s t ∧ KeepsRegisters s t ∧ Latched (.char c f) s t := by
  rw [← opdByte_accept (.char c f) s] at h
  have hdrew := drawCharOp_onlyDrew s.arg[0] s.arg[1] (accept (.char c f) s).opdByte f c (accept (.char c f) s)
  have hfailure := drawCharOp_code s.arg[0] s.arg[1] (accept (.char c f) s).opdByte f c (accept (.char c f) s)
  rw [h] at hdrew hfailure
  have htransport : code ≠ .transportFail := by rintro rfl; simp at hfailure
  obtain ⟨t, hexec, hfinish, hkeeps, hlatch, hfb, hx, hy, hinit, -⟩ :=
    run_finish (segChar_of_failed hcode h) ((accept_prepared _ s).of_onlyDrew hdrew) htransport
  exact ⟨t, hexec, hfb, hx, hy, hinit.trans hdrew.initialized_eq, hfinish, hkeeps, hlatch⟩

theorem reposition_accept_curX (x y : Half) (i : Instr) (s : State) :
    (reposition x y (accept i s)).curX = if s.batch then s.curX else x := by
  cases hb : s.batch <;> simp [reposition, hb]

theorem reposition_accept_curY (x y : Half) (i : Instr) (s : State) :
    (reposition x y (accept i s)).curY = if s.batch then s.curY else y := by
  cases hb : s.batch <;> simp [reposition, hb]

/-- Settles O46: the glyph step fails before it plots, and only under AFTER_REPOSITION has it moved the cursor. -/
theorem charRejectsItsGlyph : Obligations.CharRejectsItsGlyph := by
  intro s c f
  simp only [← reposition_accept_curX s.arg[0] s.arg[1] (.char c f) s, ← reposition_accept_curY s.arg[0] s.arg[1] (.char c f) s]
  refine ⟨fun hch => ?_, fun hlo hhi hcheck hfit => ?_, fun hlo hhi hcheck hfit => ?_⟩
  · rw [← glyphCode_iff, Bool.not_eq_true] at hch
    have hstep := drawCharOp_badGlyph hch s.arg[0] s.arg[1] f c (accept (.char c f) s)
    obtain ⟨t, hexec, hfb, hx, hy, hinit, hfinish, hkeeps, hlatch⟩ := exec_char_of_failed hstep nofun
    exact ⟨t, hexec, fun a => by rw [hfb, accept_fb], ⟨hx, hy, hinit⟩, hfinish, hkeeps, hlatch⟩
  · have hstep := drawCharOp_rejected_before (x := s.arg[0]) (y := s.arg[1]) (c := c) (s := accept (.char c f) s)
      ((glyphCode_iff _).mpr ⟨hlo, hhi⟩) hcheck ((not_glyphFits_iff _ _).mpr hfit)
    obtain ⟨t, hexec, hfb, hx, hy, hinit, hfinish, hkeeps, hlatch⟩ := exec_char_of_failed hstep nofun
    exact ⟨t, hexec, fun a => by rw [hfb, accept_fb], ⟨hx, hy, hinit⟩, hfinish, hkeeps, hlatch⟩
  · have hstep := drawCharOp_rejected_after (c := c) (s := accept (.char c f) s) ((glyphCode_iff _).mpr ⟨hlo, hhi⟩) hcheck
      ((not_glyphFits_iff _ _).mpr hfit)
    obtain ⟨t, hexec, hfb, hx, hy, hinit, hfinish, hkeeps, hlatch⟩ := exec_char_of_failed hstep nofun
    exact ⟨t, hexec, fun a => by rw [hfb, fb_reposition, accept_fb], hx, hy, hinit, hfinish, hkeeps, hlatch⟩

/-! ### Glyphs side by side -/

/-- From `fb` to `fb'` the glyphs of `cs` were drawn side by side with their first top left corner at (X, Y): every glyph pixel has
its colour, and every other pixel of the panel and every byte beside the glyphs is as before. -/
structure DrewString (font : Font) (c : Bool) (cs : List Byte) (X Y : Nat) (fb fb' : Memory) : Prop where
  glyph : ∀ k i j (hk : k < cs.length), i < font.fh → j < font.fw →
    pixelAt fb' (X + k * font.fw + j) (Y + i) = glyphColour font cs[k] i j c
  kept : ∀ x y, x < 128 → y < 64 → ¬ (X ≤ x ∧ x < X + cs.length * font.fw ∧ Y ≤ y ∧ y < Y + font.fh) →
    pixelAt fb' x y = pixelAt fb x y
  bytes : ∀ a, (∀ x y, X ≤ x → x < X + cs.length * font.fw → Y ≤ y → y < Y + font.fh → pixelIndex x y ≠ a) →
    fb'.read a = fb.read a

section

variable {font : Font} {c : Bool}

theorem DrewString.nil (X Y : Nat) (fb : Memory) : DrewString font c [] X Y fb fb :=
  ⟨fun _ _ _ hk => absurd hk (Nat.not_lt_zero _), fun _ _ _ _ _ => rfl, fun _ _ => rfl⟩

/-- One glyph whose box lies in the panel, where no coordinate wraps (R126, R127). -/
theorem DrewString.singleton {X Y : Half} (hx : X.toNat + font.fw ≤ 128) (hy : Y.toNat + font.fh ≤ 64) (ch : Byte)
    (fb : Memory) : DrewString font c [ch] X.toNat Y.toNat fb (putDots (glyphDots font ch X Y c) fb) := by
  have hX : ∀ j, j < font.fw → (X.toNat + j) % 65536 = X.toNat + j := fun j hj => Nat.mod_eq_of_lt (by omega)
  have hY : ∀ i, i < font.fh → (Y.toNat + i) % 65536 = Y.toNat + i := fun i hi => Nat.mod_eq_of_lt (by omega)
  constructor
  · intro k i j hk hi hj
    obtain rfl : k = 0 := Nat.lt_one_iff.mp hk
    have h := pixelAt_glyphDots (ch := ch) (X := X) (Y := Y) (c := c) (fb := fb) hi hj
    rw [hX j hj, hY i hi] at h
    simpa using h (by omega) (by omega)
  · intro x y hx' hy' hout
    refine pixelAt_glyphDots_outside hx' hy' fun i j hi hj hxy => hout ?_
    rw [hX j hj, hY i hi] at hxy
    simp only [List.length_singleton]
    omega
  · intro a hout
    refine read_glyphDots_outside fun i j hi hj _ _ => ?_
    rw [hX j hj, hY i hi]
    exact hout _ _ (by omega) (by simp; omega) (by omega) (by omega)

/-- A glyph, and then a string drawn from its right edge on, which leaves that glyph alone. -/
theorem DrewString.cons {ch : Byte} {cs : List Byte} {X Y : Nat} {fb fb₁ fb₂ : Memory}
    (hhead : DrewString font c [ch] X Y fb fb₁) (htail : DrewString font c cs (X + font.fw) Y fb₁ fb₂)
    (hx : X + font.fw ≤ 128) (hy : Y + font.fh ≤ 64) : DrewString font c (ch :: cs) X Y fb fb₂ := by
  obtain ⟨hglyph₁, hkept₁, hbytes₁⟩ := hhead
  obtain ⟨hglyph₂, hkept₂, hbytes₂⟩ := htail
  simp only [List.length_singleton, Nat.one_mul] at hkept₁ hbytes₁
  constructor
  · intro k i j hk hi hj
    cases k with
    | zero =>
      rw [hkept₂ _ _ (by omega) (by omega) (by omega)]
      exact hglyph₁ 0 i j Nat.one_pos hi hj
    | succ k =>
      have hplace : X + (k + 1) * font.fw + j = X + font.fw + k * font.fw + j := by rw [Nat.succ_mul]; omega
      rw [hplace]
      exact hglyph₂ k i j (Nat.lt_of_succ_lt_succ hk) hi hj
  · intro x y hx' hy' hout
    rw [List.length_cons, Nat.succ_mul] at hout
    rw [hkept₂ x y hx' hy' (by omega), hkept₁ x y hx' hy' (by omega)]
  · intro a hout
    rw [List.length_cons, Nat.succ_mul] at hout
    rw [hbytes₂ a fun x y _ _ => hout x y (by omega) (by omega), hbytes₁ a fun x y _ _ => hout x y (by omega) (by omega)]

/-- `s` after plotting the glyphs of `cs` one after the other. -/
def plotGlyphs (font : Font) (c : Bool) (cs : List Byte) (s : State) : State := cs.foldl (fun u ch => plotGlyph font ch c u) s

@[simp] theorem plotGlyphs_nil (s : State) : plotGlyphs font c [] s = s := rfl

@[simp] theorem plotGlyphs_cons (ch : Byte) (cs : List Byte) (s : State) :
    plotGlyphs font c (ch :: cs) s = plotGlyphs font c cs (plotGlyph font ch c s) := rfl

theorem plotGlyphs_onlyDrew (cs : List Byte) (s : State) : OnlyDrew s (plotGlyphs font c cs s) := by
  induction cs generalizing s with
  | nil => exact .refl s
  | cons ch cs ih => exact (plotGlyph_onlyDrew font ch c s).trans (ih _)

@[simp] theorem plotGlyphs_curY (cs : List Byte) (s : State) : (plotGlyphs font c cs s).curY = s.curY := by
  induction cs generalizing s with
  | nil => rfl
  | cons ch cs ih => exact ih _

/-- The glyphs of `cs` side by side from `s`'s cursor on all lie in the panel; no glyph asks for nothing (R126). -/
def StringFits (font : Font) (cs : List Byte) (s : State) : Prop :=
  cs = [] ∨ s.curX.toNat + cs.length * font.fw ≤ 128 ∧ s.curY.toNat + font.fh ≤ 64

/-- A string that fits: its first glyph fits, no cursor wraps after it, and the rest fits from there. -/
theorem StringFits.cons {ch : Byte} {cs : List Byte} {s : State} (h : StringFits font (ch :: cs) s) :
    (s.curX.toNat + font.fw ≤ 128 ∧ s.curY.toNat + font.fh ≤ 64) ∧
      (plotGlyph font ch c s).curX.toNat = s.curX.toNat + font.fw ∧ StringFits font cs (plotGlyph font ch c s) := by
  obtain ⟨hx, hy⟩ := h.resolve_left (List.cons_ne_nil _ _)
  rw [List.length_cons, Nat.succ_mul] at hx
  have hcurX : (plotGlyph font ch c s).curX.toNat = s.curX.toNat + font.fw := by
    rw [plotGlyph_curX, toNat_mod16]
    omega
  exact ⟨⟨by omega, hy⟩, hcurX, .inr ⟨by rw [hcurX]; omega, hy⟩⟩

variable {cs : List Byte} {s : State}

theorem plotGlyphs_curX (hfit : StringFits font cs s) :
    (plotGlyphs font c cs s).curX.toNat = s.curX.toNat + cs.length * font.fw := by
  induction cs generalizing s with
  | nil => simp
  | cons ch cs ih =>
    obtain ⟨-, hcurX, hrest⟩ := hfit.cons (c := c)
    rw [plotGlyphs_cons, ih hrest, hcurX, List.length_cons, Nat.succ_mul]
    omega

theorem drewString_plotGlyphs (hfit : StringFits font cs s) :
    DrewString font c cs s.curX.toNat s.curY.toNat s.fb (plotGlyphs font c cs s).fb := by
  induction cs generalizing s with
  | nil => exact .nil _ _ _
  | cons ch cs ih =>
    obtain ⟨⟨hx, hy⟩, hcurX, hrest⟩ := hfit.cons (c := c)
    have htail := ih hrest
    rw [hcurX] at htail
    exact (DrewString.singleton hx hy ch s.fb).cons htail hx hy

end

/-! ### STR's loop -/

section

variable {x y : Half} {f : BitVec 4} {c : Bool} {ch : Byte} {rest : List Byte} {s : State}

theorem reposition_of_batch (hb : s.batch = true) : reposition x y s = s := if_pos hb

theorem strLoop_cons_ok {u : State} (hch : ch ≠ 0) (h : drawCharOp x y ch f c s = (.ok, u)) :
    strLoop x y f c (ch :: rest) s = strLoop x y f c rest u := by
  rw [strLoop, if_neg hch, h]

theorem strLoop_cons_failed {u : State} {code : Code} (hch : ch ≠ 0) (hcode : code ≠ .ok)
    (h : drawCharOp x y ch f c s = (code, u)) : strLoop x y f c (ch :: rest) s = (some (code, ch), u) := by
  rw [strLoop, if_neg hch, h]
  cases code with
  | ok => exact absurd rfl hcode
  | _ => rfl

theorem strLoop_terminator : strLoop x y f c (0 :: rest) s = (none, s) := if_pos rfl

/-- In batch mode both orders of the check read the cursor as it stands (R126). -/
theorem drawCharOp_batch_rejected (hb : s.batch = true) (hch : glyphCode ch = true)
    (hfit : glyphFits (fontOf s.cfg f) s = false) : drawCharOp x y ch f c s = (.glyphRejected, s) := by
  have hstay := reposition_of_batch (x := x) (y := y) hb
  cases hcheck : s.cfg.charCheck with
  | beforeReposition => exact drawCharOp_rejected_before hch hcheck hfit
  | afterReposition =>
    have h := drawCharOp_rejected_after (x := x) (y := y) (c := c) hch hcheck (by rw [hstay]; exact hfit)
    rwa [hstay] at h

theorem drawCharOp_batch_ok (hb : s.batch = true) (hch : glyphCode ch = true) (hfit : glyphFits (fontOf s.cfg f) s = true) :
    drawCharOp x y ch f c s = (.ok, plotGlyph (fontOf s.cfg f) ch c s) := by
  have hstay := reposition_of_batch (x := x) (y := y) hb
  rw [drawCharOp_ok hch (fun _ => hfit) (fun _ => by rw [hstay]; exact hfit), hstay]

theorem ne_zero_of_glyphCode (h : glyphCode ch = true) : ch ≠ 0 := by
  rintro rfl
  exact absurd h (by decide)

/-- The loop plots drawable characters that fit one after the other and goes on behind them (R130). -/
theorem strLoop_append {cs : List Byte} (hb : s.batch = true) (hcode : ∀ ch ∈ cs, glyphCode ch = true)
    (hfit : StringFits (fontOf s.cfg f) cs s) :
    strLoop x y f c (cs ++ rest) s = strLoop x y f c rest (plotGlyphs (fontOf s.cfg f) c cs s) := by
  induction cs generalizing s with
  | nil => rfl
  | cons ch cs ih =>
    obtain ⟨hbox, -, hrest⟩ := hfit.cons (c := c)
    have hch := hcode ch List.mem_cons_self
    rw [List.cons_append, strLoop_cons_ok (ne_zero_of_glyphCode hch) (drawCharOp_batch_ok hb hch ((glyphFits_iff _ _).mpr hbox))]
    exact ih hb (fun d hd => hcode d (List.mem_cons_of_mem ch hd)) hrest

end

/-! ### The characters of TEXT -/

/-- The n characters of TEXT from index `start` on. -/
def textRun (text : Vector Byte 256) (start n : Nat) : List Byte := (text.toList.drop start).take n

section

variable {text : Vector Byte 256} {start n : Nat}

theorem drop_eq_textRun_append : text.toList.drop start = textRun text start n ++ text.toList.drop (start + n) := by
  rw [textRun, ← List.drop_drop, List.take_append_drop]

theorem textRun_length (h : start + n ≤ 256) : (textRun text start n).length = n := by
  rw [textRun, List.length_take, List.length_drop, Vector.length_toList]
  omega

theorem textRun_getElem {k : Nat} (hk : k < (textRun text start n).length) (h : start + k < 256) :
    (textRun text start n)[k] = text[start + k] := by
  simp only [textRun, List.getElem_take, List.getElem_drop, Vector.getElem_toList]

theorem drawableRun.le (hrun : drawableRun text start n) (hstart : start < 256) : start + n ≤ 256 := by
  cases n with
  | zero => omega
  | succ n =>
    obtain ⟨h, -⟩ := hrun n (Nat.lt_succ_self n)
    omega

theorem drawableRun.glyphCode_of_mem (hrun : drawableRun text start n) (hstart : start < 256) {ch : Byte}
    (hch : ch ∈ textRun text start n) : glyphCode ch = true := by
  obtain ⟨k, hk, rfl⟩ := List.getElem_of_mem hch
  obtain ⟨h, hcode⟩ := hrun k (textRun_length (hrun.le hstart) ▸ hk)
  rw [textRun_getElem hk h]
  exact hcode

end

/-! ### STR -/

/-- The TEXT index STR reads from: ARG2's low byte (R69). -/
abbrev strIndex (s : State) : Nat := (s.arg[2]).toNat % 256

/-- STR just accepted, with batch mode on and the cursor at its operands (R130). -/
def strStart (c : Bool) (f : BitVec 4) (s : State) : State :=
  State.setCursor s.arg[0] s.arg[1] { accept (.str c f) s with batch := true }

/-- STR after its first n characters, all drawable and fitting. -/
def strDrawn (c : Bool) (f : BitVec 4) (n : Nat) (s : State) : State :=
  plotGlyphs (fontOf s.cfg f) c (textRun s.text (strIndex s) n) (strStart c f s)

theorem strIndex_lt (s : State) : strIndex s < 256 := Nat.mod_lt _ (by decide)

section

variable (c : Bool) (f : BitVec 4) (n : Nat) (s : State)

theorem strDrawn_onlyDrew : OnlyDrew (strStart c f s) (strDrawn c f n s) := plotGlyphs_onlyDrew _ _

theorem strDrawn_prepared : Prepared (.str c f) s (strDrawn c f n s) :=
  ((accept_prepared _ s).update s.fb s.arg[0] s.arg[1] s.initialized true _).of_onlyDrew (strDrawn_onlyDrew c f n s)

theorem strDrawn_cfg : (strDrawn c f n s).cfg = s.cfg := (strDrawn_prepared c f n s).cfg

theorem strDrawn_batch : (strDrawn c f n s).batch = true := (strDrawn_onlyDrew c f n s).batch_eq

theorem strDrawn_initialized : (strDrawn c f n s).initialized = s.initialized := (strDrawn_onlyDrew c f n s).initialized_eq

theorem strDrawn_curY : (strDrawn c f n s).curY = s.arg[1] := plotGlyphs_curY _ _

/-- STR's segment by its loop and its end (R130). -/
theorem segStr_accept : segStr (accept (.str c f) s) =
    strEnd (strLoop s.arg[0] s.arg[1] f c (s.text.toList.drop (strIndex s)) (strStart c f s)) := by
  rw [segStr_eq_strEnd, opdByte_accept, BitVec.toNat_ofNat]
  rfl

variable {c f n s}

variable (hrun : drawableRun s.text (strIndex s) n)
  (hfit : n = 0 ∨ (s.arg[0]).toNat + n * (fontOf s.cfg f).fw ≤ 128 ∧ (s.arg[1]).toNat + (fontOf s.cfg f).fh ≤ 64)

include hrun

theorem textRun_length_of_drawableRun : (textRun s.text (strIndex s) n).length = n :=
  textRun_length (hrun.le (strIndex_lt s))

include hfit

theorem stringFits_strStart : StringFits (fontOf s.cfg f) (textRun s.text (strIndex s) n) (strStart c f s) := by
  have hlen := textRun_length_of_drawableRun hrun
  rcases hfit with rfl | hbox
  · exact .inl (List.eq_nil_of_length_eq_zero hlen)
  · refine .inr ?_
    rw [hlen]
    exact hbox

theorem strDrawn_curX : (strDrawn c f n s).curX.toNat = (s.arg[0]).toNat + n * (fontOf s.cfg f).fw := by
  rw [strDrawn, plotGlyphs_curX (stringFits_strStart hrun hfit), textRun_length_of_drawableRun hrun]
  rfl

theorem drewString_strDrawn : DrewString (fontOf s.cfg f) c (textRun s.text (strIndex s) n) (s.arg[0]).toNat (s.arg[1]).toNat
    s.fb (strDrawn c f n s).fb := drewString_plotGlyphs (stringFits_strStart hrun hfit)

/-- STR's segment after n drawable characters that fit. -/
theorem segStr_accept_drawn : segStr (accept (.str c f) s) =
    strEnd (strLoop s.arg[0] s.arg[1] f c (s.text.toList.drop (strIndex s + n)) (strDrawn c f n s)) := by
  rw [segStr_accept, drop_eq_textRun_append (n := n), strLoop_append rfl
    (fun ch hch => hrun.glyphCode_of_mem (strIndex_lt s) hch) (stringFits_strStart hrun hfit)]
  rfl

end

/-- The drawn glyphs by their TEXT index. -/
theorem DrewString.glyph_textRun {font : Font} {c : Bool} {text : Vector Byte 256} {start n X Y : Nat} {fb fb' : Memory}
    (h : DrewString font c (textRun text start n) X Y fb fb') (hle : start + n ≤ 256) (k i j : Nat) (hk : k < n)
    (hi : i < font.fh) (hj : j < font.fw) :
    ∃ hk : start + k < 256, pixelAt fb' (X + k * font.fw + j) (Y + i) = glyphColour font (text[start + k]'hk) i j c := by
  have hlt : k < (textRun text start n).length := by rwa [textRun_length hle]
  refine ⟨by omega, ?_⟩
  rw [h.glyph k i j hlt hi hj, textRun_getElem]

/-- The loop ends without a failure where the string ends (R132). -/
theorem strLoop_of_stringEnds {text : Vector Byte 256} {start n : Nat} (h : stringEnds text start n) (x y : Half)
    (f : BitVec 4) (c : Bool) (u : State) : strLoop x y f c (text.toList.drop (start + n)) u = (none, u) := by
  rcases h with hend | ⟨hlt, hzero⟩
  · rw [hend, List.drop_eq_nil_of_le (by rw [Vector.length_toList])]
    rfl
  · rw [List.drop_eq_getElem_cons (by rwa [Vector.length_toList]), Vector.getElem_toList, hzero, strLoop_terminator]

/-- Settles O47: after the n characters the loop ends, and STR flushes what they left. -/
theorem strDrawsTheWholeString : Obligations.StrDrawsTheWholeString := by
  intro s c f n start font X Y hrun hend hfit
  have hseg := segStr_accept_drawn (c := c) hrun hfit
  rw [strLoop_of_stringEnds hend] at hseg
  obtain ⟨t, hexec, hflush, hkeeps, hlatch, hfb, hx, hy, hinit, -⟩ := run_flushTail hseg (strDrawn_prepared c f n s)
  have hdrew := drewString_strDrawn (c := c) hrun hfit
  have hlen := textRun_length_of_drawableRun hrun
  rw [← hfb] at hdrew
  exact ⟨t, hexec, hdrew.glyph_textRun (hrun.le (strIndex_lt s)), hlen ▸ hdrew.kept, hlen ▸ hdrew.bytes,
    by rw [hx, strDrawn_curX hrun hfit], by rw [hy, strDrawn_curY], hinit.trans (strDrawn_initialized c f n s),
    hflush, hkeeps, hlatch⟩

/-- The glyph step in batch mode of a character that is no drawable code or does not fit (R125, R126). -/
theorem drawCharOp_batch_failed {x y : Half} {ch : Byte} {f : BitVec 4} {c : Bool} {u : State} (hb : u.batch = true)
    (h : glyphCode ch = false ∨ glyphFits (fontOf u.cfg f) u = false) :
    drawCharOp x y ch f c u = (if glyphCode ch then .glyphRejected else .badGlyph, u) := by
  cases hch : glyphCode ch with
  | false => exact drawCharOp_badGlyph hch x y f c u
  | true => exact drawCharOp_batch_rejected hb hch (h.resolve_left (by simp [hch]))

/-- Settles O48: the character after the n drawn ones fails, and STR finishes with its code. -/
theorem strStopsAtTheFirstFailure : Obligations.StrStopsAtTheFirstFailure := by
  intro s c f n start font X Y hrun hfit hlt hne hfails
  have hfails' : glyphCode (s.text[start + n]'hlt) = false ∨
      glyphFits (fontOf (strDrawn c f n s).cfg f) (strDrawn c f n s) = false := by
    rwa [not_glyphFits_iff, strDrawn_cfg, strDrawn_curX hrun hfit, strDrawn_curY, Nat.add_assoc, ← Nat.succ_mul]
  have hcode : (if glyphCode (s.text[start + n]'hlt) then Code.glyphRejected else .badGlyph) ≠ .ok := by split <;> nofun
  have hseg := segStr_accept_drawn (c := c) hrun hfit
  rw [List.drop_eq_getElem_cons (by rwa [Vector.length_toList]), Vector.getElem_toList,
    strLoop_cons_failed hne hcode (drawCharOp_batch_failed (strDrawn_batch c f n s) hfails')] at hseg
  have hu : Prepared (.str c f) s { strDrawn c f n s with batch := false } := (strDrawn_prepared c f n s).update _ _ _ _ _ _
  obtain ⟨t, hexec, hfinish, hkeeps, hlatch, hfb, hx, hy, hinit, -⟩ := run_finish hseg hu (by dsimp only; split <;> nofun)
  have hdrew := drewString_strDrawn (c := c) hrun hfit
  have hlen := textRun_length_of_drawableRun hrun
  rw [← show t.fb = (strDrawn c f n s).fb from hfb] at hdrew
  exact ⟨t, hexec, hdrew.glyph_textRun (hrun.le (strIndex_lt s)), hlen ▸ hdrew.kept, hlen ▸ hdrew.bytes,
    by rw [hx, strDrawn_curX hrun hfit], by rw [hy, strDrawn_curY], hinit.trans (strDrawn_initialized c f n s),
    hfinish, hkeeps, hlatch⟩

end Sys2Proof.Machine
end

section
/-! PROOFS. No step stops (R141), and what a command draws does not depend on the transport's answers (R139, R140). -/

namespace Sys2Proof.Machine

/-! ### No step stops -/

theorem runWord_next (w : Word) (s : State) : ∃ t, runWord w s = .next t := by
  obtain ⟨-, h⟩ | ⟨-, i, -, h⟩ | ⟨-, e, -, h⟩ := runWord_cases w s
  · exact ⟨_, h⟩
  · exact ⟨_, h.trans (exec_next i s)⟩
  · exact ⟨_, h⟩

/-- Settles O13: every event's step is a next state, and a CMD write that waits answers one too. -/
theorem noStepStops : Obligations.NoStepStops := by
  intro s
  cases hin : s.inbox with
  | nil => exact ⟨_, step_nil hin⟩
  | cons e rest =>
    cases e with
    | command w => rw [step_command hin]; exact runWord_next w _
    | host a => exact ⟨_, step_host hin⟩
    | waitIdle => exact ⟨_, step_waitIdle hin⟩
    | engine => exact ⟨_, step_engine hin⟩
    | transport => exact ⟨_, step_transport hin⟩
    | reset => exact ⟨_, step_reset hin⟩

/-! ### A first segment reads no answer -/

/-- `s` with the transport's coming answers, the environment's and the free ones, replaced (log entry 3). -/
def State.withAnswers (answers : List Answer) (draws : Nat) (s : State) : State :=
  { s with answers := answers, answerDraws := draws }

section

variable (answers : List Answer) (draws : Nat) (s : State)

@[simp] theorem withAnswers_batch : (s.withAnswers answers draws).batch = s.batch := rfl

@[simp] theorem draw_withAnswers (ps : List Point) :
    (s.withAnswers answers draws).draw ps = (s.draw ps).withAnswers answers draws := rfl

@[simp] theorem flushTail_withAnswers (ch : Byte) :
    flushTail ch (s.withAnswers answers draws) = (flushTail ch s).withAnswers answers draws := rfl

@[simp] theorem finishWith_withAnswers (c : Completion) :
    finishWith c (s.withAnswers answers draws) = (finishWith c s).withAnswers answers draws := rfl

theorem accept_withAnswers (i : Instr) :
    accept i (s.withAnswers answers draws) = (accept i s).withAnswers answers draws := rfl

theorem reposition_withAnswers (x y : Half) :
    reposition x y (s.withAnswers answers draws) = (reposition x y s).withAnswers answers draws :=
  (apply_ite (State.withAnswers answers draws) (s.batch = true) s (s.setCursor x y)).symm

theorem drawCharOp_withAnswers (x y : Half) (ch : Byte) (f : BitVec 4) (c : Bool) :
    drawCharOp x y ch f c (s.withAnswers answers draws) =
      (drawCharOp x y ch f c s).map id (State.withAnswers answers draws) := by
  have hcfg : (s.withAnswers answers draws).cfg = s.cfg := rfl
  have hfits (font : Font) (u : State) : glyphFits font (u.withAnswers answers draws) = glyphFits font u := rfl
  simp only [drawCharOp, reposition_withAnswers, hcfg, hfits]
  split
  · rfl
  · split <;> split <;> rfl

theorem strLoop_withAnswers (x y : Half) (f : BitVec 4) (c : Bool) (bytes : List Byte) :
    strLoop x y f c bytes (s.withAnswers answers draws) =
      (strLoop x y f c bytes s).map id (State.withAnswers answers draws) := by
  induction bytes generalizing s with
  | nil => rfl
  | cons ch rest ih =>
    simp only [strLoop, drawCharOp_withAnswers]
    split
    · rfl
    · obtain ⟨code, u⟩ := drawCharOp x y ch f c s
      cases code with
      | ok => exact ih u
      | _ => rfl

theorem segLine_withAnswers : segLine (s.withAnswers answers draws) = (segLine s).withAnswers answers draws := by
  have hopd (n : Fin 6) : (s.withAnswers answers draws).opd n = s.opd n := rfl
  cases hb : s.batch <;> simp [segLine, hb, hopd]

/-- How CHAR ends after its glyph step: in batch mode and after a failed step without the flush (R128). -/
def charEnd (ch : Byte) : Code × State → State
  | (.ok, u) => if u.batch then finishWith { code := .ok, char := ch } u else flushTail ch u
  | (code, u) => finishWith { code := code } u

theorem segChar_eq_charEnd :
    segChar s = charEnd s.opdByte (drawCharOp (s.opd 0) (s.opd 1) s.opdByte s.latch.font s.latch.color s) := rfl

theorem charEnd_withAnswers (ch : Byte) (d : Code × State) :
    charEnd ch (d.map id (State.withAnswers answers draws)) = (charEnd ch d).withAnswers answers draws := by
  obtain ⟨code, u⟩ := d
  cases code with
  | ok => cases hb : u.batch <;> simp [charEnd, hb]
  | _ => rfl

theorem segChar_withAnswers : segChar (s.withAnswers answers draws) = (segChar s).withAnswers answers draws := by
  rw [segChar_eq_charEnd, segChar_eq_charEnd, ← charEnd_withAnswers, ← drawCharOp_withAnswers]
  rfl

theorem strEnd_withAnswers (d : Option (Code × Byte) × State) :
    strEnd (d.map id (State.withAnswers answers draws)) = (strEnd d).withAnswers answers draws := by
  obtain ⟨failure, u⟩ := d
  cases failure <;> rfl

theorem segStr_withAnswers : segStr (s.withAnswers answers draws) = (segStr s).withAnswers answers draws := by
  rw [segStr_eq_strEnd, segStr_eq_strEnd, ← strEnd_withAnswers, ← strLoop_withAnswers]
  rfl

theorem flushTail_fill_withAnswers (m : Memory) :
    flushTail 0 { s.withAnswers answers draws with fb := m } = (flushTail 0 { s with fb := m }).withAnswers answers draws := rfl

theorem configFrom_withAnswers (k : Nat) :
    configFrom k (s.withAnswers answers draws) = (configFrom k s).withAnswers answers draws := by
  unfold configFrom
  generalize Memory.filled _ = m
  simp only [State.withAnswers]
  split <;> rfl

/-- The transport's answers are beside every first segment (R139, R140). -/
theorem firstSegment_withAnswers (i : Instr) :
    firstSegment i (s.withAnswers answers draws) = (firstSegment i s).withAnswers answers draws := by
  cases i with
  | init c f => exact configFrom_withAnswers answers draws { s with initialized := false } 0
  | clear c f => exact flushTail_fill_withAnswers answers draws s _
  | allon c f => exact flushTail_fill_withAnswers answers draws s _
  | line c f => exact segLine_withAnswers answers draws s
  | char c f => exact segChar_withAnswers answers draws s
  | str c f => exact segStr_withAnswers answers draws s
  | _ => rfl

end

/-! ### After its first segment a command only flushes -/

/-- What a command leaves on the panel's side: the framebuffer, the cursor and INITIALIZED. -/
def State.drawing (s : State) : Memory × Half × Half × Bool := (s.fb, s.curX, s.curY, s.initialized)

theorem drawing_withAnswers (answers : List Answer) (draws : Nat) (s : State) :
    (s.withAnswers answers draws).drawing = s.drawing := rfl

theorem drawing_exec {i : Instr} (hi : i.opcode ≠ 0x01) (s : State) :
    ∃ t, exec i s = .next t ∧ t.drawing = (firstSegment i (accept i s)).drawing := by
  have hprep := accept_prepared i s
  rw [exec_eq]
  generalize hseg : firstSegment i (accept i s) = v
  have hend : SegmentEnd (accept i s) v := hseg ▸ firstSegment_end hi (accept i s)
  cases hend with
  | flush ch hu =>
    obtain ⟨t, hrun, -, -, -, hfb, hx, hy, hinit, -⟩ := run_flushTail hseg (hprep.of_drawn hu)
    exact ⟨t, hrun, by simp [State.drawing, hfb, hx, hy, hinit]⟩
  | finish c hc hu =>
    obtain ⟨t, hrun, -, -, -, hfb, hx, hy, hinit, -⟩ := run_finish hseg (hprep.of_drawn hu) hc
    exact ⟨t, hrun, by simp [State.drawing, hfb, hx, hy, hinit]⟩

/-- Settles O19: a first segment reads no answer, and the flush after it draws nothing. -/
theorem drawingIgnoresTheTransport : Obligations.DrawingIgnoresTheTransport := by
  intro i s answers draws hi
  obtain ⟨t, ht, hdrawn⟩ := drawing_exec hi s
  obtain ⟨u, hu, hdrawn'⟩ := drawing_exec hi (s.withAnswers answers draws)
  have hsame : u.drawing = t.drawing := by
    rw [hdrawn', hdrawn, accept_withAnswers, firstSegment_withAnswers, drawing_withAnswers]
  simp only [State.drawing, Prod.mk.injEq] at hsame
  exact ⟨t, u, ht, hu, hsame⟩

end Sys2Proof.Machine
end

section
/-! PROOFS. Reset and hazards: what the reset input leaves, host accesses while a command runs, and the end of a command and of a run
(R26, R75, R153 to R155, R159, R160, R166 to R168). -/

namespace Sys2Proof.Machine

/-! ### The reset input -/

@[simp] theorem getElem_drawnText (n : Nat) {i : Nat} (hi : i < 256) : (drawnText n)[i] = Config.resetText n i := by
  simp [drawnText]

@[simp] theorem busy_resetInput (s : State) : (resetInput s).busy = false := rfl

@[simp] theorem statusWord_resetInput (s : State) : (resetInput s).statusWord = 0 :=
  show statusBits false false false false false false = 0 by decide

@[simp] theorem resultWord_resetInput (s : State) : (resetInput s).result.word = 0 := show Result.zero.word = 0 by decide

@[simp] theorem read_resetInput (s : State) (a : Nat) : (resetInput s).fb.read a = 0 := rfl

/-- Power-on leaves what the reset input leaves where the environment holds nothing and TEXT was never drawn (R153). -/
theorem reset_eq_resetInput : State.reset = resetInput { State.reset with textDraws := 0 } := rfl

/-- A state that power-on or a step with the reset input answers is one the reset input leaves. -/
theorem exists_eq_resetInput {s : State}
    (h : s = State.reset ∨ ∃ u rest, u.inbox = .reset :: rest ∧ step u = .next s) : ∃ u, s = resetInput u := by
  obtain rfl | ⟨u, rest, hin, hs⟩ := h
  · exact ⟨_, reset_eq_resetInput⟩
  · rw [step_reset hin] at hs
    cases hs
    exact ⟨_, rfl⟩

/-- Settles O1: both ways lead to a state the reset input leaves, and that one holds the reset values. -/
theorem resetValues : Obligations.ResetValues := by
  intro s h
  obtain ⟨u, rfl⟩ := exists_eq_resetInput h
  refine ⟨read_resetInput u, rfl, rfl, statusWord_resetInput u, resultWord_resetInput u, fun n => ?_,
    ⟨u.textDraws, fun i => getElem_drawnText u.textDraws i.isLt⟩, rfl, rfl⟩
  exact Vector.getElem_replicate n.isLt

/-- Settles O2: the step is the reset input, which keeps the log, the parameters and the events still to come. -/
theorem resetAbortsTheCommand : Obligations.ResetAbortsTheCommand := by
  intro s rest hin _
  exact ⟨_, step_reset hin, busy_resetInput _, rfl, resultWord_resetInput _, read_resetInput _, rfl, rfl,
    statusWord_resetInput _, rfl, rfl⟩

/-! ### Host accesses while a command runs -/

/-- Every aligned offset of the map reaches a register (R39, R50). -/
theorem exists_regAt {addr : Offset} (halign : addr.toNat % 4 = 0)
    (hmapped : addr.toNat < 0x02C ∨ (0x100 ≤ addr.toNat ∧ addr.toNat < 0x200) ∨ (0x400 ≤ addr.toNat ∧ addr.toNat < 0x800)) :
    ∃ r, regAt addr = some r := by
  rw [← Option.ne_none_iff_exists', Ne, regAt_eq_none_iff]
  omega

theorem hostAccess_read_busy {addr : Offset} {r : Reg} {s : State} (hr : regAt addr = some r) (hb : s.busy = true) :
    hostAccess (.read 4 addr) s =
      State.respond (.read 4 addr) .ok (busyRead s r) { s with readDraws := s.readDraws + 1 } := by
  simp only [hostAccess, hostRead, accessReg, if_true, hr, readData, hb]

/-- A busy read of STATUS is free in INITIALIZED and BATCH alone (R160). -/
theorem busyRead_status_toNat {s : State} (hb : s.busy = true) : ∃ v w : Bool, (busyRead s .status).toNat =
    1 + 2 * v.toNat + 8 * w.toNat + 256 * s.ovr.toNat + 512 * s.ill.toNat + 1024 * s.terr.toNat := by
  refine ⟨s.anyRead.getLsbD 1, s.anyRead.getLsbD 3, ?_⟩
  rw [busyRead, statusBits_toNat, hb]
  rfl

/-- Settles O52: the offset names the register, and each clause reads off what that register answers while busy. -/
theorem busyReadReturnsCurrentOrAnyValue : Obligations.BusyReadReturnsCurrentOrAnyValue := by
  intro s addr rest hin hb halign hmapped
  obtain ⟨r, hr⟩ := exists_regAt halign hmapped
  have hreg {r' : Reg} (h : addr.toNat = r'.offset) : r = r' := Option.some.inj (hr.symm.trans (regAt_of_toNat_eq_offset h))
  refine ⟨busyRead { s with inbox := rest } r, ?_, fun h => ?_, fun h => ?_, fun h => ?_, fun n h => ?_, fun i hi h => ?_⟩
  · exact (step_host hin).trans (congrArg _ (hostAccess_read_busy hr hb))
  · obtain rfl := hreg (r' := .id) h; rfl
  · obtain rfl := hreg (r' := .cmd) h; rfl
  · obtain rfl := hreg (r' := .status) h
    exact busyRead_status_toNat (s := { s with inbox := rest }) hb
  · obtain rfl := hreg (r' := .arg n) h
    exact BitVec.toNat_setWidth_of_le (by decide)
  · obtain rfl := hreg (r' := .text ⟨i / 4, by omega⟩) h
    exact byte_textWord s.text hi

/-- A CMD or a TEXT write while BUSY = 1 has no effect but OVR (R159). -/
theorem writeReg_overrun {addr : Offset} (haddr : addr.toNat = 0x004 ∨
    (0x100 ≤ addr.toNat ∧ addr.toNat < 0x200 ∧ addr.toNat % 4 = 0)) {s : State} (hb : s.busy = true) (v : Word) :
    ∃ r, regAt addr = some r ∧ writeReg r v s = some (setOvr s) := by
  obtain hcmd | ⟨hlo, hhi, halign⟩ := haddr
  · exact ⟨.cmd, regAt_of_toNat_eq_offset hcmd, if_pos hb⟩
  · have htext : addr.toNat = (Reg.text ⟨(addr.toNat - 0x100) / 4, by omega⟩).offset := by simp only [Reg.offset]; omega
    exact ⟨_, regAt_of_toNat_eq_offset htext, if_pos hb⟩

/-- Settles O57: the write reaches CMD or a TEXT word, and either one only sets OVR. -/
theorem busyCmdAndTextWritesSetOvr : Obligations.BusyCmdAndTextWritesSetOvr := by
  intro s addr v rest hin hb haddr
  obtain ⟨r, hr, hw⟩ := writeReg_overrun (s := { s with inbox := rest }) haddr hb v
  rw [step_host hin, hostAccess_write hr hw]
  rfl

/-! ### The end of a command -/

/-- The steps left are enough (R166, R167). -/
theorem advanceFor_stepsLeft_idle (s : State) : (advanceFor (stepsLeft s) s).engine = .idle := by
  have hle := stepsLeft_advanceFor (stepsLeft s) s
  rw [Nat.sub_self] at hle
  exact stepsLeft_eq_zero (Nat.le_zero.mp hle)

/-- Settles O14: with no event left every step is the running command's, and its steps left are within the bound. -/
theorem runningCommandFinishes : Obligations.RunningCommandFinishes := by
  intro s hin
  exact ⟨stepsLeft s, advanceFor (stepsLeft s) s, stepsLeft_le s, run_of_inbox_nil _ s hin,
    (busy_eq_false_iff _).mpr (advanceFor_stepsLeft_idle s)⟩

/-! ### The end of a run -/

theorem advance_idle {s : State} (h : s.engine = .idle) : advance s = s := advanceFor_idle h 1

theorem engineStep_idle {s : State} (h : s.engine = .idle) : engineStep s = s := by
  obtain hs | hs := engineStep_cases s
  · exact hs
  · exact hs.trans (advance_idle h)

theorem transportStep_idle {s : State} (h : s.engine = .idle) : transportStep s = s := by
  obtain hs | hs := transportStep_cases s
  · exact hs
  · exact hs.trans (advance_idle h)

/-- An ended run's next event is a turn of the engine or the transport, which find nothing to do, or a reset input. -/
theorem step_of_ended {s : State} {e : Event} {rest : List Event} (h : s.ended) (hin : s.inbox = e :: rest) (he : e ≠ .reset) :
    step s = .next { s with inbox := rest } := by
  obtain ⟨hinbox, hidle⟩ := h
  have hno : e.isAccess = false := hinbox e (by simp [hin])
  cases e with
  | host a => cases hno
  | waitIdle => cases hno
  | command w => cases hno
  | reset => exact absurd rfl he
  | engine => exact (step_engine hin).trans (congrArg _ (engineStep_idle hidle))
  | transport => exact (step_transport hin).trans (congrArg _ (transportStep_idle hidle))

/-- A run that has ended has also ended with one event fewer to come. -/
theorem State.ended.tail {s : State} {e : Event} {rest : List Event} (h : s.ended) (hin : s.inbox = e :: rest) :
    ({ s with inbox := rest } : State).ended :=
  ⟨fun e' he' => h.1 e' (hin ▸ List.mem_cons_of_mem e he'), h.2⟩

theorem ended_resetInput {s : State} (h : s.ended) : (resetInput s).ended := ⟨h.1, rfl⟩

/-- Settles O15: an ended run's step does nothing, uses up an event that does nothing, or is the reset input. -/
theorem endedRunStays : Obligations.EndedRunStays := by
  intro s h
  have hnil (hin : s.inbox = []) : step s = .next s := by rw [step_nil hin, advance_idle h.2]
  refine ⟨hnil, fun e rest hin he => step_of_ended h hin he, fun rest hin => step_reset hin, fun t ht => ?_⟩
  cases hin : s.inbox with
  | nil =>
    rw [hnil hin] at ht
    cases ht
    exact ⟨h, fun _ => rfl⟩
  | cons e rest =>
    by_cases he : e = .reset
    · subst he
      rw [step_reset hin] at ht
      cases ht
      exact ⟨ended_resetInput (h.tail hin), fun hne => absurd rfl (hne rest)⟩
    · rw [step_of_ended h hin he] at ht
      cases ht
      exact ⟨h.tail hin, fun _ => rfl⟩

/-! ### WAITIDLE -/

/-- Between two polls the command has one step fewer to go, and the poll is still the next event (R75). -/
theorem poll_statusRead_busy {s : State} (hb : s.busy = true) :
    stepsLeft (advance (hostAccess statusRead s)) < stepsLeft s ∧ (advance (hostAccess statusRead s)).inbox = s.inbox := by
  obtain ⟨d, n, hread, -⟩ := hostAccess_statusRead s
  have hrun : (hostAccess statusRead s).engine ≠ .idle := by rw [hread]; exact (busy_eq_true_iff s).mp hb
  have hleft : stepsLeft (hostAccess statusRead s) = stepsLeft s := by rw [hread]; rfl
  refine ⟨hleft ▸ stepsLeft_advance hrun, (advance_frame _).inbox.trans ?_⟩
  rw [hread]
  rfl

/-- The poll that finds BUSY = 0 ends the run: it is recorded with the STATUS word as it stands (R75, R168). -/
theorem endsAt_waitIdle_idle {s : State} {rest : List Event} (hin : s.inbox = .waitIdle :: rest)
    (hrest : ∀ e ∈ rest, e.isAccess = false) (hb : s.busy = false) :
    ∃ t, EndsAt s 1 t ∧ t.inbox = rest ∧ t.busy = false ∧
      t.hostLog = s.hostLog ++ [{ access := statusRead, resp := .ok, data := t.statusWord }] := by
  obtain ⟨d, n, hread, hd⟩ := hostAccess_statusRead { s with inbox := rest }
  have hstep := step_waitIdle_idle hin hb
  obtain rfl := hd hb
  rw [hread] at hstep
  exact ⟨_, .of_step hstep (not_ended_of_access hin rfl) (.of_ended ⟨hrest, (busy_eq_false_iff s).mp hb⟩), rfl, hb, rfl⟩

/-- A WAITIDLE after which no access is left ends the run one step after the command's last (R75, R168). -/
theorem endsAt_waitIdle (k : Nat) {s : State} {rest : List Event} (hk : stepsLeft s ≤ k) (hin : s.inbox = .waitIdle :: rest)
    (hrest : ∀ e ∈ rest, e.isAccess = false) :
    ∃ n t entries, n ≤ k + 1 ∧ EndsAt s n t ∧ t.inbox = rest ∧ t.busy = false ∧
      t.hostLog = entries ++ [{ access := statusRead, resp := .ok, data := t.statusWord }] := by
  induction k generalizing s with
  | zero =>
    have hidle := (busy_eq_false_iff s).mpr (stepsLeft_eq_zero (Nat.le_zero.mp hk))
    obtain ⟨t, hend⟩ := endsAt_waitIdle_idle hin hrest hidle
    exact ⟨1, t, s.hostLog, by omega, hend⟩
  | succ k ih =>
    cases hb : s.busy with
    | false =>
      obtain ⟨t, hend⟩ := endsAt_waitIdle_idle hin hrest hb
      exact ⟨1, t, s.hostLog, by omega, hend⟩
    | true =>
      obtain ⟨hless, hsame⟩ := poll_statusRead_busy hb
      obtain ⟨n, t, entries, hn, hend, hafter⟩ := ih (by omega) (hsame.trans hin)
      exact ⟨n + 1, t, entries, by omega, hend.of_step (step_waitIdle_busy hin hb) (not_ended_of_busy hb), hafter⟩

/-- Settles O59: the poll ends the run one step after the command's last, and the command's steps left are within INIT's bound. -/
theorem waitIdleReachesTheEndOfTheRun : Obligations.WaitIdleReachesTheEndOfTheRun := by
  intro s rest hin hrest
  obtain ⟨n, t, entries, hn, hend, hafter, hidle, hlog⟩ := endsAt_waitIdle _ (stepsLeft_le s) hin hrest
  exact ⟨n, t, entries, hn, hend, hafter, hlog, (statusWord_bit0 t).trans hidle⟩

end Sys2Proof.Machine
end
